-- ==== Sys2Proof/Word.lean ====
section
/-! DEFINITION. The fixed widths of the block: bytes, the command word, the two log registers, the device address
and the codes. Values whose width is a parameter (TW, PW, RW of R7) are natural numbers below two to that width (R9). -/

namespace Sys2Proof

/-- One byte of the store or of the bus. -/
abbrev Byte := BitVec 8

/-- The command word CW (R100). -/
abbrev CommandWord := BitVec 16

/-- A sequence counter, SEQ_W = 32 bits (R7, R29). -/
abbrev SeqWord := BitVec 32

/-- A record index, OFF_W = 32 bits (R7, R28). -/
abbrev IndexWord := BitVec 32

/-- A device address on the two-wire bus (R75). -/
abbrev DeviceAddress := BitVec 7

end Sys2Proof
end

