-- ==== Sys2Proof/Syntax.lean ====
section
/-! DEFINITION. The nine commands of R103, one constructor per row of the opcode table. -/

namespace Sys2Proof

/-- The direction bit of an address frame: 0 = write, 1 = read (R104). -/
inductive Direction where
  | write
  | read
deriving DecidableEq, Repr

/-- The commands. `din` is the payload operand on `cmd_din`, which only LOGAPPEND reads (R100, R106). -/
inductive Instr where
  /-- BEGIN (R161): open a transaction to the device `addr`. -/
  | begin (addr : DeviceAddress) (dir : Direction)
  /-- WRBIT (R139): write one bit. -/
  | wrbit (value : Bool)
  /-- RDBIT (R140): read one bit. -/
  | rdbit
  /-- WRBYTE (R163): write one byte and read its acknowledgment. -/
  | wrbyte (byte : Byte)
  /-- RDBYTE (R165): read one byte and, if asked, acknowledge it. -/
  | rdbyte (wantAck : Bool)
  /-- END (R167): close the transaction. -/
  | end_
  /-- LOGINIT (R206): rebuild the log state from the store. -/
  | loginit
  /-- LOGLAST (R208): return the newest value. -/
  | loglast
  /-- LOGAPPEND (R210): write a new record. -/
  | logappend (din : Nat)
deriving DecidableEq, Repr

end Sys2Proof
end

