-- ==== Sys2Proof/Config.lean ====
section
/-! DEFINITION. What an implementation fixes (the parameters of R7) and the free values: what the environment
draws and the spec leaves open. A configuration is plain data that `State` carries and no step changes, so a claim
about every state is a claim about every configuration. -/

namespace Sys2Proof

/-- The two speed classes of R27, 0 = SLOW, 1 = FAST. -/
inductive Speed where
  | slow
  | fast
deriving DecidableEq, Repr

/-- The OPEN parameters of R7, and TW, which R7 lets a model take as an argument. All times are in ticks. -/
structure Config where
  /-- TW: the width of TIME in bits. -/
  tw : Nat
  /-- TICK_NS: nanoseconds per tick; no rule reads it (90_conflicts.md C7). -/
  tickNs : Nat
  /-- DT_MAX: the largest advance of TIME between two reads of it. -/
  dtMax : Nat
  /-- UNIT_SLOW. -/
  unitSlow : Nat
  /-- UNIT_FAST. -/
  unitFast : Nat
  /-- T_STRETCH(SLOW). -/
  stretchSlow : Nat
  /-- T_STRETCH(FAST). -/
  stretchFast : Nat
  /-- T_BIT(SLOW). -/
  bitSlow : Nat
  /-- T_BIT(FAST). -/
  bitFast : Nat
  /-- PAYLOAD_BYTES. -/
  payloadBytes : Nat
  /-- PAGE_SIZE. -/
  pageSize : Nat
  /-- CAPACITY. -/
  capacity : Nat
deriving DecidableEq, Repr

/-- DESIGN CHOICE (log entry 2, unsafe): the configuration `State.reset` carries, the test configuration of section 0
of 95_test_vectors.md. The spec gives the FAST class no numbers; here it has half the SLOW unit and windows. -/
def Config.reference : Config where
  tw := 32
  tickNs := 1
  dtMax := 1
  unitSlow := 4
  unitFast := 2
  stretchSlow := 8
  stretchFast := 4
  bitSlow := 16
  bitFast := 8
  payloadBytes := 4
  pageSize := 16
  capacity := 32

/-- What the peer does to the two lines at one sample: 0 = holds low, 1 = leaves released (R35). -/
structure PeerPair where
  scl : Bool
  sda : Bool
deriving DecidableEq, Repr

/-- How the store's environment treats one request that lies inside the capacity (R61, R63, R45, U7, U9). -/
inductive StoreDraw where
  /-- The request is carried out and answered Ok. -/
  | ok
  /-- A bus fault: answered BusError. -/
  | busError
  /-- Answered with the reserved `mem_status` 3, which R45 treats as BusError. -/
  | reserved
  /-- Answered AddressOutOfRange although the request is in range: a store that breaks R62 (D24). -/
  | outOfRange
  /-- Never answered (U7). -/
  | silent
deriving DecidableEq, Repr

/-- Free value (log entry 3): the `n`-th unscripted advance of TIME between two reads (R133). -/
opaque Config.freeAdvance : Nat → Nat

/-- Free value (log entry 3): the `n`-th unscripted time between two commands (R133, D30). -/
opaque Config.freeGap : Nat → Nat

/-- Free value (log entry 3): the `n`-th unscripted level of SCL on the peer's side (R132). -/
opaque Config.freePeerScl : Nat → Bool

/-- Free value (log entry 3): the `n`-th unscripted level of SDA on the peer's side (R132). -/
opaque Config.freePeerSda : Nat → Bool

/-- Free value (log entry 3): whether the `n`-th unscripted store request meets a bus fault (R61, R63, R64). -/
opaque Config.freeStoreFault : Nat → Bool

/-- Free value (log entry 3): whether the `n`-th unscripted store request is never answered (U7). -/
opaque Config.freeStoreSilent : Nat → Bool

/-- Free value (log entry 3): the `n`-th unscripted byte that a failed or cut store write leaves (R63, U5). -/
opaque Config.freeByte : Nat → Byte

end Sys2Proof
end

