-- ==== Sys2Proof/WellFormed.lean ====
section
/-! DEFINITION. Which commands a host can put on the ports of a block with a given configuration. The operand fields of
the eight word-only commands have exactly the widths of R101 as types, so the one check left is the width of DIN. -/

namespace Sys2Proof

/-- PW, the width of the payload port in bits (R7). -/
def Config.payloadWidth (c : Config) : Nat := 8 * c.payloadBytes

/-- A command fits the ports of configuration `c`: a payload is a PW-bit value (R40, R106). -/
def Instr.wf (c : Config) : Instr → Bool
  | .begin _ _ => true
  | .wrbit _ => true
  | .rdbit => true
  | .wrbyte _ => true
  | .rdbyte _ => true
  | .end_ => true
  | .loginit => true
  | .loglast => true
  | .logappend din => decide (din < 2 ^ c.payloadWidth)

end Sys2Proof
end

