-- ==== Sys2Proof/Decode.lean ====
section
/-! DEFINITION. The command encoding of 30_encoding.md: the opcode map of R103 as rows of match and mask, the decoder,
total on every word, and the encoder. A word that no row matches is rejected by `none`; the block answers it with
ILLEGAL or HALTED (R112 to R115). -/

namespace Sys2Proof

/-- A command as the host drives it: CW on `cmd_word` and DIN on `cmd_din` (R100). -/
structure Command where
  cw : CommandWord
  din : Nat
deriving DecidableEq, Repr

/-- The direction a frame's last bit stands for (R104). -/
def Direction.ofBit (b : Bool) : Direction := if b then .read else .write

/-- The bit of a direction (R104): 0 = write, 1 = read. -/
def Direction.bit : Direction → Bool
  | .write => false
  | .read => true

/-- One row of the opcode map of R103. `make` reads the operands of R104 to R106. -/
structure OpcodeRow where
  pattern : CommandWord
  mask : CommandWord
  make : CommandWord → Nat → Instr

/-- A word is the command of a row exactly when `w & mask = match` (R103). -/
def OpcodeRow.hits (r : OpcodeRow) (w : CommandWord) : Bool := w &&& r.mask == r.pattern

def rowBegin : OpcodeRow where
  pattern := 0x1000
  mask := 0xFF00
  make w _ := .begin (w.extractLsb' 1 7) (Direction.ofBit (w.getLsbD 0))

def rowWrbit : OpcodeRow where
  pattern := 0x2000
  mask := 0xFFFE
  make w _ := .wrbit (w.getLsbD 0)

def rowRdbit : OpcodeRow where
  pattern := 0x3000
  mask := 0xFFFF
  make _ _ := .rdbit

def rowWrbyte : OpcodeRow where
  pattern := 0x4000
  mask := 0xFF00
  make w _ := .wrbyte (w.extractLsb' 0 8)

def rowRdbyte : OpcodeRow where
  pattern := 0x5000
  mask := 0xFFFE
  make w _ := .rdbyte (w.getLsbD 0)

def rowEnd : OpcodeRow where
  pattern := 0x6000
  mask := 0xFFFF
  make _ _ := .end_

def rowLoginit : OpcodeRow where
  pattern := 0x8000
  mask := 0xFFFF
  make _ _ := .loginit

def rowLoglast : OpcodeRow where
  pattern := 0x9000
  mask := 0xFFFF
  make _ _ := .loglast

def rowLogappend : OpcodeRow where
  pattern := 0xA000
  mask := 0xFFFF
  make _ din := .logappend din

/-- The opcode map, in the order of R103. -/
def opcodeRows : List OpcodeRow :=
  [rowBegin, rowWrbit, rowRdbit, rowWrbyte, rowRdbyte, rowEnd, rowLoginit, rowLoglast, rowLogappend]

/-- The decoder: the command of the row that matches, if one does (R103, R112 check 2). -/
def decode (cw : CommandWord) (din : Nat) : Option Instr :=
  (opcodeRows.find? (fun r => r.hits cw)).map (fun r => r.make cw din)

/-- The operand byte of BEGIN, the address frame as it goes on the wire: `{address, dir}` (R104). -/
def frameByte (addr : DeviceAddress) (dir : Direction) : Byte :=
  (addr ++ BitVec.ofBool dir.bit).cast rfl

/-- A command word from an opcode and an operand byte, `mbz` zero (R100). -/
def commandWord (op : BitVec 4) (a : Byte) : CommandWord := (op ++ (0 : BitVec 4) ++ a).cast rfl

/-- A flag operand in `a[0]` (R105). -/
def flagOperand (v : Bool) : Byte := if v then 1 else 0

/-- The encoder: the ports as the host drives them for a command (R101, R103, R123). DIN is ignored by every command
but LOGAPPEND and driven 0. -/
def encode : Instr → Command
  | .begin addr dir => { cw := commandWord 0x1 (frameByte addr dir), din := 0 }
  | .wrbit v => { cw := commandWord 0x2 (flagOperand v), din := 0 }
  | .rdbit => { cw := commandWord 0x3 0, din := 0 }
  | .wrbyte b => { cw := commandWord 0x4 b, din := 0 }
  | .rdbyte k => { cw := commandWord 0x5 (flagOperand k), din := 0 }
  | .end_ => { cw := commandWord 0x6 0, din := 0 }
  | .loginit => { cw := commandWord 0x8 0, din := 0 }
  | .loglast => { cw := commandWord 0x9 0, din := 0 }
  | .logappend din => { cw := commandWord 0xA 0, din := din }

/-- The command that `nbits` bits numbered as the opcode table numbers them stand for: CW is bits 15 to 0 and the
payload port, which the table gives no bits, counts on from bit 16. -/
def commandOfTable (nbits w : Nat) : Command :=
  { cw := BitVec.ofNat 16 (w % 2 ^ nbits), din := (w % 2 ^ nbits) / 2 ^ 16 }

/-- The instruction the decoder reads from an instruction of the opcode table whose bits are `w`. -/
def decodeTableWord (nbits w : Nat) : Option Instr :=
  decode (commandOfTable nbits w).cw (commandOfTable nbits w).din

end Sys2Proof
end

