-- ==== Sys2Proof/Machine/State.lean ====
section
/-! DEFINITION. The state as plain data: the registers of the two units and the shared ones, the environment the rules
read (TIME, the peer, the store), the parameters, what the host does next, and the trace of the last step. -/

namespace Sys2Proof.Machine

/-- PHASE (R24): where in a bus transaction the block stands. The reserved value 7 is never taken. -/
inductive Phase where
  | idle
  | start
  | addressing
  | rwBit
  | ackWait
  | data
  | stop
deriving DecidableEq, Repr

/-- The response statuses of R110. Code 7 is reserved and never given. -/
inductive Status where
  | ok
  | noAck
  | addrOutOfRange
  | busError
  | invariantViolation
  | illegal
  | halted
deriving DecidableEq, Repr

/-- The two fatal errors, the block's only traps (R231, R236). -/
inductive FatalError where
  | busError
  | invariantViolation
deriving DecidableEq, Repr

/-- The two lines (R5). -/
inductive Line where
  | scl
  | sda
deriving DecidableEq, Repr

/-- A request on the store port (R45): `mem_we`, `mem_off`, `mem_len` and the bytes of `mem_wdata`, byte 0 first. -/
structure StoreRequest where
  write : Bool
  off : Nat
  len : Nat
  wdata : List Byte
deriving DecidableEq, Repr

/-- The answers of the store port (R45, R60). -/
inductive StoreAnswer where
  | ok
  | outOfRange
  | busError
deriving DecidableEq, Repr

/-- What a store request of the sequencer ends with (R60): an answer, `ok` with the bytes of a read, or none at all
(U7). -/
inductive StoreReply where
  | ok (bytes : List Byte)
  | outOfRange
  | busError
  | silent
deriving DecidableEq, Repr

/-- What the ports and pins show, every write of a register that the status port mirrors among it (R33, R42); the
events of the lines carry the tick count at which they happen. -/
inductive TraceEvent where
  /-- A line write (R134), redundant ones included. -/
  | line (l : Line) (v : Bool) (ticks : Nat)
  /-- A write of PHASE (R24), visible on the status port. -/
  | phase (p : Phase) (ticks : Nat)
  /-- A write of TXN_ADDR and TXN_DIR (R26), visible on the status port; both at once, the model's choice (log entry 27). -/
  | transaction (addr : DeviceAddress) (dir : Direction)
  /-- A write of LOG_VALID (R30), visible on the status port. -/
  | logValid (v : Bool)
  /-- A write of WRITE_OFFSET (R28), visible on the status port. -/
  | writeOffset (i : IndexWord)
  /-- A write of WRITE_SEQUENCE (R29), visible on the status port. -/
  | writeSequence (n : SeqWord)
  /-- A sample (R132): the time and the two wire levels. -/
  | sample (ticks : Nat) (scl sda : Bool)
  /-- A request sent on the store port (R45). -/
  | request (r : StoreRequest)
  /-- The store's answer (R45). -/
  | answer (a : StoreAnswer)
  /-- The one response of a command (R41); a fatal status is trap entry, HALT and FAULT with it (R236). -/
  | response (status : Status) (data : Nat)
  /-- Reset: every register at its reset value, both lines released at once (R260, R261). -/
  | reset (strap : Speed)
deriving DecidableEq, Repr

/-- What the host does next (R40, R44): drive a command on the command port, or assert reset. -/
inductive HostEvent where
  /-- Drive `cw` on `cmd_word` and `din` on `cmd_din` with `cmd_valid` (R40). -/
  | command (cw : CommandWord) (din : Nat)
  /-- Assert reset, or cycle the power, between commands, the strap `speed_i` at `strap` (R44, R46, R260). -/
  | reset (strap : Speed)
  /-- Drive a command and assert reset, or lose power, inside it, after its first `cut` trace events (R72, R261). -/
  | resetDuring (cw : CommandWord) (din : Nat) (cut : Nat) (strap : Speed)
deriving DecidableEq, Repr

/-- The values the environment will draw: those of `script` first, then the free values of Config, the `count`-th
and on. The MODEL's own bookkeeping (log entry 3). -/
structure Draws (α : Type) where
  script : List α
  count : Nat
deriving DecidableEq, Repr

/-- The store's bytes as (address, byte) pairs in canonical form; an unlisted byte reads 0xFF (R69, log entry 7). -/
abbrev Memory := List Host.Cell

/-- The registers of unit BBM (R21 to R24, R26, R27). -/
structure Bbm where
  sr : Byte
  bitacc : Bool
  t0 : Nat
  sclDrv : Bool
  sdaDrv : Bool
  phase : Phase
  txnAddr : DeviceAddress
  txnDir : Direction
  speed : Speed
deriving DecidableEq, Repr

/-- The registers of unit ALS (R28 to R30). -/
structure Als where
  writeOffset : IndexWord
  writeSequence : SeqWord
  logValid : Bool
deriving DecidableEq, Repr

/-- The shared registers (R31, R32) and `cmd_ready` (R40). -/
structure Ctl where
  halt : Bool
  faultCode : BitVec 3
  rspStatus : Status
  rspData : Nat
  lastStatus : Status
  cmdReady : Bool
deriving DecidableEq, Repr

/-- The lines' environment: the ticks the time source has counted, which the block sees as TIME, modulo 2^TW (R34, see
`State.time`), the peer's two levels (R35), and the draws of both and of the time between commands. -/
structure LineEnv where
  ticks : Nat
  pScl : Bool
  pSda : Bool
  advances : Draws Nat
  peers : Draws PeerPair
  gaps : Draws Nat
deriving DecidableEq, Repr

/-- The store: its content NV (R36), the request outstanding on the port (R39, R45), and its draws. -/
structure Store where
  nv : Memory
  pending : Option StoreRequest
  answers : Draws StoreDraw
  debris : Draws Byte
deriving DecidableEq, Repr

/-- The whole machine. -/
structure State where
  cfg : Config
  bbm : Bbm
  als : Als
  ctl : Ctl
  line : LineEnv
  store : Store
  host : List HostEvent
  trace : List TraceEvent
deriving DecidableEq, Repr

/-- No instruction of this block stops the machine with a fault. The errors of R230 are responses, the two fatal ones
among them (R236), and a store that never answers leaves `cmd_ready` at 0 (U7). So nothing raises a `Fault`: the type
is closed and has no constructor, which is safe. -/
inductive Fault : Type
deriving DecidableEq, Repr

/-- Why the model gives a step no meaning. -/
inductive Refusal where
  /-- Raised by `Machine.exec` for an instruction whose meaning is not written yet; no arm raises it. Safe. -/
  | notModelled (mnemonic : String)
  /-- Raised for every command when the configuration breaks a constraint of R8: the model "gives such a block no
  meaning" (R8, U4 of 93_implementation_defined.md). Safe. -/
  | illegalConfiguration
deriving DecidableEq, Repr

/-- The registers of unit BBM after reset (R47). SR, BITACC and T0 are unspecified there; DESIGN CHOICE 0 (log
entry 5, unsafe). -/
def Bbm.reset (strap : Speed) : Bbm where
  sr := 0
  bitacc := false
  t0 := 0
  sclDrv := true
  sdaDrv := true
  phase := .idle
  txnAddr := 0
  txnDir := .write
  speed := strap

/-- The registers of unit ALS after reset (R47). -/
def Als.reset : Als where
  writeOffset := 0
  writeSequence := 0
  logValid := false

/-- The shared registers after reset (R47). -/
def Ctl.reset : Ctl where
  halt := false
  faultCode := 0
  rspStatus := .ok
  rspData := 0
  lastStatus := .ok
  cmdReady := true

/-- The environment of the lines at `State.reset`: arbitrary in R47; DESIGN CHOICE tick count 0, lines left released,
no script (log entries 3 and 4, unsafe). -/
def LineEnv.atReset : LineEnv where
  ticks := 0
  pScl := true
  pSda := true
  advances := { script := [], count := 0 }
  peers := { script := [], count := 0 }
  gaps := { script := [], count := 0 }

/-- The store at `State.reset`: erased, DESIGN CHOICE for the parameter of U17 (log entry 7, unsafe), no script. -/
def Store.atReset : Store where
  nv := []
  pending := none
  answers := { script := [], count := 0 }
  debris := { script := [], count := 0 }

/-- The machine right after reset (R47, R260), nothing driven by the host yet. The configuration and the strap SLOW are
DESIGN CHOICES (log entries 2 and 6, unsafe). -/
def State.reset : State where
  cfg := Config.reference
  bbm := Bbm.reset .slow
  als := Als.reset
  ctl := Ctl.reset
  line := LineEnv.atReset
  store := Store.atReset
  host := []
  trace := []

end Sys2Proof.Machine
end

