-- ==== Sys2Proof/Machine/Params.lean ====
section
/-! DEFINITION. The derived parameters of R7, the constraints of R8, and elapsed time (R13, R136). -/

namespace Sys2Proof

/-- UNIT_TICKS (R7, R135). -/
def Config.unit (c : Config) : Speed → Nat
  | .slow => c.unitSlow
  | .fast => c.unitFast

/-- T_STRETCH (R7). -/
def Config.stretch (c : Config) : Speed → Nat
  | .slow => c.stretchSlow
  | .fast => c.stretchFast

/-- T_BIT (R7). -/
def Config.bitWindow (c : Config) : Speed → Nat
  | .slow => c.bitSlow
  | .fast => c.bitFast

/-- SEQ_BYTES (R7, D20). -/
def seqBytes : Nat := 4

/-- SENTINEL = 2^SEQ_W - 1, all bits set (R7, R201). -/
def sentinel : SeqWord := 0xFFFFFFFF

/-- RECORD_SIZE (R7). -/
def Config.recordSize (c : Config) : Nat := seqBytes + c.payloadBytes

/-- N_SLOTS (R7). -/
def Config.nSlots (c : Config) : Nat := c.capacity / c.recordSize

/-- RW, the width of RSP_DATA: the largest of 8, PW and OFF_W (R32). -/
def Config.dataWidth (c : Config) : Nat := max 8 (max c.payloadWidth 32)

/-- The size check of R205, which LOGINIT makes: RECORD_SIZE divides PAGE_SIZE. -/
def Config.sizesFit (c : Config) : Bool := c.pageSize % c.recordSize == 0

/-- The windows of one speed class meet R8 (c) and (d). -/
def Config.windowsOk (c : Config) (sp : Speed) : Bool :=
  decide (1 ≤ c.stretch sp) && decide (c.stretch sp ≤ c.bitWindow sp) && decide (c.bitWindow sp + c.dtMax ≤ 2 ^ c.tw)

/-- The configuration, with the strap `sp`, meets every constraint of R7 and R8; (b) is about the UNIT of the configured
speed, (a), (c) and (d) about both classes. -/
def Config.ok (c : Config) (sp : Speed) : Bool :=
  decide (1 ≤ c.unitSlow) && decide (1 ≤ c.unitFast)
    && decide (1 ≤ c.dtMax) && decide (2 * c.unit sp + c.dtMax ≤ 2 ^ c.tw)
    && c.windowsOk .slow && c.windowsOk .fast
    && decide (1 ≤ c.payloadBytes) && decide (1 ≤ c.pageSize)
    && decide (c.recordSize ≤ c.capacity) && decide (c.capacity % c.pageSize = 0)
    && decide ((c.nSlots + 1) * c.recordSize < 2 ^ 32)

/-- `Elapsed(now, t) = now -w t` with w = TW (R13, R136). -/
def elapsed (tw now t : Nat) : Nat := (now + (2 ^ tw - t % 2 ^ tw)) % 2 ^ tw

/-- `Off(i) = i * RECORD_SIZE`, without wrap (R203). -/
def Config.slotOffset (c : Config) (i : Nat) : Nat := i * c.recordSize

end Sys2Proof
end

