-- ==== Sys2Proof/Machine/Operands.lean ====
section
/-! DEFINITION. How operands become bits and bytes: the bits of the shift register (R21, R68) and the record layout
(R66, R67). The operands of the command word are assembled in Decode.lean (R104 to R106). -/

namespace Sys2Proof

/-- `SR[i] <- b` (R165). -/
def setBit (v : Byte) (i : Nat) (b : Bool) : Byte :=
  if b then v ||| ((1 : Byte) <<< i) else v &&& ~~~((1 : Byte) <<< i)

/-- The low `n` bytes of a number, the least significant first (R67). -/
def leBytes : Nat → Nat → List Byte
  | 0, _ => []
  | n + 1, v => BitVec.ofNat 8 v :: leBytes n (v / 256)

/-- The number whose bytes, the least significant first, these are (R67). -/
def leNat : List Byte → Nat
  | [] => 0
  | b :: bs => b.toNat + 256 * leNat bs

/-- `EncodeRecord(seq, payload)` (R67): the counter's bytes, then the payload's. -/
def Config.encodeRecord (c : Config) (seq : SeqWord) (payload : Nat) : List Byte :=
  leBytes seqBytes seq.toNat ++ leBytes c.payloadBytes payload

/-- `DecodeSeq` (R67). -/
def decodeSeq (bytes : List Byte) : SeqWord := BitVec.ofNat 32 (leNat (bytes.take seqBytes))

/-- `DecodePayload` (R67). -/
def decodePayload (bytes : List Byte) : Nat := leNat (bytes.drop seqBytes)

/-- `Inc(s) = s +w 1` with w = SEQ_W (R204). -/
def incSeq (s : SeqWord) : SeqWord := s + 1

end Sys2Proof
end

