-- ==== Sys2Proof/Machine/Memory.lean ====
section
/-! DEFINITION. The byte space of the store (R74) as a list of (address, byte) pairs in one canonical form: addresses
strictly rising, and no entry equal to the erased byte, which is what an unlisted address reads as (R69). -/

namespace Sys2Proof.Machine

/-- What a byte that nothing has written reads as: "Unwritten store bytes read as 0xFF" (R69). -/
def erasedByte : Byte := 0xFF

/-- The byte at an address. -/
def Memory.read : Memory → Nat → Byte
  | [], _ => erasedByte
  | (k, v) :: m, a => if k = a then v else Memory.read m a

/-- Write one byte, keeping the canonical form. -/
def Memory.write : Memory → Nat → Byte → Memory
  | [], a, b => if b = erasedByte then [] else [(a, b)]
  | (k, v) :: m, a, b =>
    if a < k then (if b = erasedByte then (k, v) :: m else (a, b) :: (k, v) :: m)
    else if a = k then (if b = erasedByte then m else (a, b) :: m)
    else (k, v) :: Memory.write m a b

/-- The `n` bytes from an address on. -/
def Memory.readBytes (m : Memory) (a : Nat) : Nat → List Byte
  | 0 => []
  | n + 1 => Memory.read m a :: Memory.readBytes m (a + 1) n

/-- Write bytes from an address on. -/
def Memory.writeBytes (m : Memory) (a : Nat) : List Byte → Memory
  | [] => m
  | b :: bs => Memory.writeBytes (Memory.write m a b) (a + 1) bs

/-- The canonical form: addresses strictly rising, no erased byte listed. -/
def Memory.wf (m : Memory) : Bool :=
  decide (List.Pairwise (fun p q : Host.Cell => p.1 < q.1) m) && m.all (fun c => c.2 != erasedByte)

/-- Every listed byte is a byte of a store of `capacity` bytes (R74). -/
def Memory.within (capacity : Nat) (m : Memory) : Bool := m.all (fun c => decide (c.1 < capacity))

end Sys2Proof.Machine
end

