-- ==== Sys2Proof/Machine/Flags.lean ====
section
/-! DEFINITION. The flags (R37: the block has no arithmetic condition codes), the codes of statuses, phases and errors,
when each command is allowed (R116), and the status port, which shows them between commands and inside one (R33, R42). -/

namespace Sys2Proof

/-- The code of a speed class (R27). -/
def Speed.bit : Speed → Bool
  | .slow => false
  | .fast => true

/-- The `mem_status` the store puts on its port, or none when it never answers (R45, U7). -/
def StoreDraw.memStatus : StoreDraw → Option (BitVec 2)
  | .ok => some 0
  | .outOfRange => some 1
  | .busError => some 2
  | .reserved => some 3
  | .silent => none

end Sys2Proof

namespace Sys2Proof.Machine

/-- The codes of R110. -/
def Status.code : Status → BitVec 3
  | .ok => 0
  | .noAck => 1
  | .addrOutOfRange => 2
  | .busError => 3
  | .invariantViolation => 4
  | .illegal => 5
  | .halted => 6

/-- The codes of R24. -/
def Phase.code : Phase → BitVec 3
  | .idle => 0
  | .start => 1
  | .addressing => 2
  | .rwBit => 3
  | .ackWait => 4
  | .data => 5
  | .stop => 6

/-- `mem_status` of an answer (R45, R110): a code space of its own. -/
def StoreAnswer.code : StoreAnswer → BitVec 2
  | .ok => 0
  | .outOfRange => 1
  | .busError => 2

/-- The answer a `mem_status` gives (R45, R110): the reserved code 3 is treated as BusError. -/
def StoreAnswer.ofStatus (status : BitVec 2) : StoreAnswer :=
  if status = 0 then .ok else if status = 1 then .outOfRange else .busError

/-- The response status of a fatal error (R110, R231). -/
def FatalError.status : FatalError → Status
  | .busError => .busError
  | .invariantViolation => .invariantViolation

/-- BEGIN is allowed when PHASE = IDLE (R116). -/
def allowedIdle (s : State) : Bool := decide (s.bbm.phase = .idle)

/-- WRBIT, RDBIT, WRBYTE and RDBYTE are allowed when PHASE = DATA (R116). -/
def allowedData (s : State) : Bool := decide (s.bbm.phase = .data)

/-- END is allowed when PHASE = IDLE or PHASE = DATA (R116). In another phase, which no state between two commands has
(R48 (a)), it is refused like any command that R160 gives no row for (DEDUCED, log entry 17). -/
def allowedIdleOrData (s : State) : Bool := decide (s.bbm.phase = .idle ∨ s.bbm.phase = .data)

/-- LOGLAST and LOGAPPEND are allowed when LOG_VALID = 1 (R116). -/
def allowedLog (s : State) : Bool := s.als.logValid

/-- `LOG_VALID <- v` (R30). -/
def setLogValid (v : Bool) (s : State) : State :=
  { s with als.logValid := v, trace := .logValid v :: s.trace }

/-- `WRITE_OFFSET <- i` (R28). -/
def setWriteOffset (i : IndexWord) (s : State) : State :=
  { s with als.writeOffset := i, trace := .writeOffset i :: s.trace }

/-- `WRITE_SEQUENCE <- n` (R29). -/
def setWriteSequence (n : SeqWord) (s : State) : State :=
  { s with als.writeSequence := n, trace := .writeSequence n :: s.trace }

/-- The STATUS register of R33: bits 31:22 zero, then LAST_STATUS, FAULT, LOG_VALID, HALT, SPEED, SDA_DRV, SCL_DRV,
TXN_ADDR, TXN_DIR and, in bits 2:0, PHASE. -/
def statusWord (s : State) : BitVec 32 :=
  ((0 : BitVec 10) ++ s.ctl.lastStatus.code ++ s.ctl.faultCode ++ BitVec.ofBool s.als.logValid
    ++ BitVec.ofBool s.ctl.halt ++ BitVec.ofBool s.bbm.speed.bit ++ BitVec.ofBool s.bbm.sdaDrv
    ++ BitVec.ofBool s.bbm.sclDrv ++ s.bbm.txnAddr ++ BitVec.ofBool s.bbm.txnDir.bit ++ s.bbm.phase.code).cast rfl

/-- `stat_data` for a `stat_sel` (R33, R42): STATUS, LOG_OFFSET, LOG_SEQ, and zero for 3. A read has no side effect. -/
def statusPort (sel : BitVec 2) (s : State) : BitVec 32 :=
  if sel = 0 then statusWord s
  else if sel = 1 then s.als.writeOffset
  else if sel = 2 then s.als.writeSequence
  else 0

/-- The statuses of a fatal error, which are given by trap entry alone (R110, R236). -/
def Status.isFatal : Status → Bool
  | .ok => false
  | .noAck => false
  | .addrOutOfRange => false
  | .busError => true
  | .invariantViolation => true
  | .illegal => false
  | .halted => false

/-- The shared registers after a response; with a fatal status HALT and FAULT are written too (R236). -/
def Ctl.afterResponse (c : Ctl) (status : Status) (data : Nat) : Ctl where
  halt := c.halt || status.isFatal
  faultCode := if status.isFatal then status.code else c.faultCode
  rspStatus := status
  rspData := data
  lastStatus := status
  cmdReady := true

/-- The state once an event has happened, in every register the status port mirrors and in the store port's request:
what stands there inside a command, whose meaning is one step (R33, R39, R42, log entry 1). -/
def State.replay (s : State) : TraceEvent → State
  | .line .scl v _ => { s with bbm.sclDrv := v }
  | .line .sda v _ => { s with bbm.sdaDrv := v }
  | .phase p _ => { s with bbm.phase := p }
  | .transaction addr dir => { s with bbm.txnAddr := addr, bbm.txnDir := dir }
  | .logValid v => { s with als.logValid := v }
  | .writeOffset i => { s with als.writeOffset := i }
  | .writeSequence n => { s with als.writeSequence := n }
  | .sample _ _ _ => s
  | .request r => { s with store.pending := some r }
  | .answer _ => { s with store.pending := none }
  | .response status data => { s with ctl := s.ctl.afterResponse status data }
  | .reset strap =>
    { s with bbm := Bbm.reset strap, als := Als.reset, ctl := Ctl.reset, store.pending := none }

/-- The state after events, the oldest first. -/
def replayAll (events : List TraceEvent) (s : State) : State := events.foldl State.replay s

/-- `stat_data` at any time, also while a command runs (R42): after the first `k` events of a step that began in `s`, with
`trace` the trace the step leaves. -/
def statusDuring (sel : BitVec 2) (k : Nat) (trace : List TraceEvent) (s : State) : BitVec 32 :=
  statusPort sel (replayAll (trace.reverse.take k) s)

end Sys2Proof.Machine
end

