-- ==== Sys2Proof/Machine/Ops.lean ====
section
/-! DEFINITION. The shared operations: the draws of the environment, time (R13, R133), the lines (R130 to R134), bit
writes, bit reads and the start and stop conditions (R137 to R140), the store port (R60 to R64), responses and refusals
(R14, R41, R112), taking a fatal error (R236), and reset (R46, R260, R261), which is the only way back from it (R239). -/

namespace Sys2Proof.Machine

/-! Draws (log entry 3). -/

/-- The next value the environment draws. -/
def Draws.head {α : Type} (free : Nat → α) (d : Draws α) : α :=
  match d.script with
  | x :: _ => x
  | [] => free d.count

/-- The draws after the next one. -/
def Draws.tail {α : Type} (d : Draws α) : Draws α :=
  match d.script with
  | _ :: r => { d with script := r }
  | [] => { d with count := d.count + 1 }

/-- The next `n` values. -/
def Draws.take {α : Type} (free : Nat → α) : Nat → Draws α → List α
  | 0, _ => []
  | n + 1, d => d.head free :: Draws.take free n d.tail

/-- The draws after the next `n`. -/
def Draws.drop {α : Type} : Nat → Draws α → Draws α
  | 0, d => d
  | n + 1, d => Draws.drop n d.tail

/-- The unscripted peer (R132, D28): any of the four pairs. -/
def freePeer (n : Nat) : PeerPair := { scl := Config.freePeerScl n, sda := Config.freePeerSda n }

/-- The unscripted store: it keeps the range contract of R62 (log entry 11), and is silent, faults or answers Ok. -/
def freeStoreDraw (n : Nat) : StoreDraw :=
  if Config.freeStoreSilent n then .silent else if Config.freeStoreFault n then .busError else .ok

/-! Time. -/

/-- TIME (R34): the ticks counted, modulo 2^TW. -/
def State.time (s : State) : Nat := s.line.ticks % 2 ^ s.cfg.tw

/-- UNIT (R135). -/
def State.unit (s : State) : Nat := s.cfg.unit s.bbm.speed

/-- T_STRETCH of the configured speed (R7). -/
def State.stretch (s : State) : Nat := s.cfg.stretch s.bbm.speed

/-- T_BIT of the configured speed (R7). -/
def State.bitWindow (s : State) : Nat := s.cfg.bitWindow s.bbm.speed

/-- The amount one read of TIME advances it by: the drawn value, brought into 1 .. DT_MAX (R133). -/
def advanceAmount (s : State) : Nat :=
  if s.cfg.dtMax ≤ 1 then 1 else max 1 (min (s.line.advances.head Config.freeAdvance) s.cfg.dtMax)

/-- `Now()` (R133): TIME advances and is then read. -/
def now (s : State) : State :=
  { s with line.ticks := s.line.ticks + advanceAmount s, line.advances := s.line.advances.tail }

/-- `T0 <- TIME` after a read (R22). -/
def stamp (s : State) : State := { s with bbm.t0 := s.time }

/-- `Elapsed(now, T0)` (R136). -/
def sinceStamp (s : State) : Nat := elapsed s.cfg.tw s.time s.bbm.t0

/-- The poll of `Wait` (R13): read TIME until `limit` ticks have passed since T0. At most `limit` reads are needed, since
each advances TIME by at least 1 (R133); the first argument bounds them. -/
def waitPoll : Nat → Nat → State → State
  | 0, _, s => s
  | fuel + 1, limit, s => if limit ≤ sinceStamp (now s) then now s else waitPoll fuel limit (now s)

/-- `Wait(n)` (R13). -/
def wait (n : Nat) (s : State) : State :=
  waitPoll (n * s.unit) (n * s.unit) (stamp (now s))

/-- The time that passes between two commands: any amount (R133, D30). -/
def idleGap (s : State) : State :=
  { s with line.ticks := s.line.ticks + s.line.gaps.head Config.freeGap, line.gaps := s.line.gaps.tail }

/-! Lines. -/

/-- `SCL <- v` (R12, R134). -/
def driveScl (v : Bool) (s : State) : State :=
  { s with bbm.sclDrv := v, trace := .line .scl v s.line.ticks :: s.trace }

/-- `SDA <- v` (R12, R134). -/
def driveSda (v : Bool) (s : State) : State :=
  { s with bbm.sdaDrv := v, trace := .line .sda v s.line.ticks :: s.trace }

/-- LEVEL(SCL) (R131): the block's latch and the peer's. -/
def sclLevel (s : State) : Bool := s.bbm.sclDrv && s.line.pScl

/-- LEVEL(SDA) (R131). -/
def sdaLevel (s : State) : Bool := s.bbm.sdaDrv && s.line.pSda

/-- The peer draws a fresh pair of levels (R132). -/
def drawPeer (s : State) : State :=
  { s with
    line.pScl := (s.line.peers.head freePeer).scl
    line.pSda := (s.line.peers.head freePeer).sda
    line.peers := s.line.peers.tail }

/-- The sample as the pins show it. -/
def recordSample (s : State) : State :=
  { s with trace := .sample s.line.ticks (sclLevel s) (sdaLevel s) :: s.trace }

/-- `Sample()` (R132): TIME and both wire levels at one instant; they stand in the state afterwards. -/
def sample (s : State) : State := recordSample (drawPeer (now s))

/-- `StartCond()` (R137). -/
def startCond (s : State) : State := wait 1 (driveScl false (wait 1 (driveSda false s)))

/-- `StopCond()` (R138). -/
def stopCond (s : State) : State := wait 1 (driveSda true (wait 1 (driveScl true s)))

/-- `WriteBit(v)` (R139). -/
def writeBit (v : Bool) (s : State) : State :=
  wait 1 (driveScl false (wait 2 (driveScl true (wait 1 (driveSda v s)))))

/-- `bit <- v` (R21). -/
def setBitacc (v : Bool) (s : State) : State := { s with bbm.bitacc := v }

/-- The poll of `ReadBit` (R140 to R142). At most T_BIT samples are needed, since each advances TIME by at least 1; the
first argument bounds them. -/
def readPoll : Nat → State → State
  | 0, s => s
  | fuel + 1, s =>
    if s.bitWindow ≤ sinceStamp (sample s) then sample s
    else if sclLevel (sample s) then
      readPoll fuel (if sdaLevel (sample s) then sample s else setBitacc false (sample s))
    else if s.stretch ≤ sinceStamp (sample s) then sample s
    else readPoll fuel (sample s)

/-- The opening of `ReadBit` (R140): the clock pulled low, data released, one unit, the clock released, T0 taken. -/
def readBitOpen (s : State) : State :=
  setBitacc true (stamp (now (driveScl true (wait 1 (driveSda true (driveScl false s))))))

/-- `ReadBit()` (R140); the bit stands in BITACC afterwards. Every exit drives both lines low (R144). -/
def readBit (s : State) : State :=
  driveSda false (driveScl false (readPoll s.bitWindow (readBitOpen s)))

/-! The shift register and the phase. -/

/-- `SR <- v` (R21). -/
def setSr (v : Byte) (s : State) : State := { s with bbm.sr := v }

/-- Shift out the bits of SR at these positions, in order (R21, R68). -/
def writeBits : List Nat → State → State
  | [], s => s
  | i :: is, s => writeBits is (writeBit (s.bbm.sr.getLsbD i) s)

/-- `SR[i] <- ReadBit()` at these positions, in order (R165). -/
def readBits : List Nat → State → State
  | [], s => s
  | i :: is, s => readBits is (setSr (setBit (readBit s).bbm.sr i (readBit s).bbm.bitacc) (readBit s))

/-- `PHASE <- p` (R24). -/
def setPhase (p : Phase) (s : State) : State :=
  { s with bbm.phase := p, trace := .phase p s.line.ticks :: s.trace }

/-- `TXN_ADDR <- a[7:1] ; TXN_DIR <- a[0] ; SR <- a` (R161). The first two are one event: no read of the status port
falls between them (R42), the model's choice (log entry 27). -/
def loadFrame (addr : DeviceAddress) (dir : Direction) (s : State) : State :=
  { s with
    bbm.txnAddr := addr
    bbm.txnDir := dir
    bbm.sr := frameByte addr dir
    trace := .transaction addr dir :: s.trace }

/-! Responses, refusals and the trap. -/

/-- `return <status>(data)` (R14, R32, R41): the response is given and the next command can be accepted. -/
def respond (status : Status) (data : Nat) (s : State) : State :=
  { s with
    ctl.rspStatus := status
    ctl.lastStatus := status
    ctl.rspData := data
    ctl.cmdReady := true
    trace := .response status data :: s.trace }

/-- To refuse with a status (R112): the response registers, and nothing else. -/
def refuse (status : Status) (s : State) : State := respond status 0 s

/-- Trap entry (R236): HALT, FAULT and the response. Nothing is saved and control goes nowhere; there is no return
(R239). -/
def raise (e : FatalError) (s : State) : State :=
  respond e.status 0 { s with ctl.halt := true, ctl.faultCode := e.status.code }

/-- Acceptance makes `cmd_ready` 0 until the response (R40). -/
def busy (s : State) : State := { s with ctl.cmdReady := false }

/-- The acceptance checks of R112 for a word that a row matches: HALTED, then not allowed now, then execution. A
configuration that breaks R8 has no meaning (U4). -/
def accept (allowed : Bool) (body : State → State) (s : State) : Host.Outcome State Fault Refusal :=
  if s.cfg.ok s.bbm.speed then
    .next (if s.ctl.halt then refuse .halted s else if allowed then body (busy s) else refuse .illegal s)
  else .refused .illegalConfiguration

/-- The acceptance checks of R112 for a word that no row matches: HALTED, then ILLEGAL (R113 to R115). -/
def rejectWord (s : State) : Host.Outcome State Fault Refusal := accept false id s

/-! The store port. -/

/-- A request goes out on the store port (R45). -/
def sendRequest (r : StoreRequest) (s : State) : State :=
  { s with store.pending := some r, trace := .request r :: s.trace }

/-- The store answers the outstanding request (R45). -/
def takeAnswer (a : StoreAnswer) (s : State) : State :=
  { s with store.pending := none, trace := .answer a :: s.trace }

/-- How the environment treats the next request that is in range (R61, R63). -/
def storeDraw (s : State) : StoreDraw := s.store.answers.head freeStoreDraw

/-- The store's answer to the next request that is in range (R45), or none when it never comes (U7). -/
def storeAnswer (s : State) : Option StoreAnswer := (storeDraw s).memStatus.map StoreAnswer.ofStatus

/-- The draw is used up. -/
def nextStoreDraw (s : State) : State := { s with store.answers := s.store.answers.tail }

/-- The addressed bytes hold any value (R63, R210, U5); nothing outside them changes (D29). -/
def scramble (off n : Nat) (s : State) : State :=
  { s with
    store.nv := Memory.writeBytes s.store.nv off (s.store.debris.take Config.freeByte n)
    store.debris := s.store.debris.drop n }

/-- NV takes the written bytes (R63). -/
def storeBytes (off : Nat) (bytes : List Byte) (s : State) : State :=
  { s with store.nv := Memory.writeBytes s.store.nv off bytes }

/-- Some of the `n` bytes from `off` on lie in another page than the first (R65). -/
def crossesPage (pageSize off n : Nat) : Bool := decide (off / pageSize ≠ (off + n - 1) / pageSize)

/-- `MemRead(off, n)` (R61, R62). A request past the capacity is always answered; one that is never answered is in
range, the model's choice (log entry 23). No tick of TIME passes while the answer is awaited (R34, R241), the model's
choice (log entry 29). -/
def memRead (off n : Nat) (s : State) : StoreReply × State :=
  let s1 := sendRequest { write := false, off := off, len := n, wdata := [] } s
  if s.cfg.capacity < off + n then (.outOfRange, takeAnswer .outOfRange s1)
  else
    match storeAnswer s with
    | some .ok => (.ok (Memory.readBytes s.store.nv off n), takeAnswer .ok (nextStoreDraw s1))
    | some .busError => (.busError, takeAnswer .busError (nextStoreDraw s1))
    | some .outOfRange => (.outOfRange, takeAnswer .outOfRange (nextStoreDraw s1))
    | none => (.silent, nextStoreDraw s1)

/-- `MemWrite(off, n, bytes)` (R62, R63); a write that crosses a page is answered BusError (U6, log entry 12).
A request past the capacity is always answered; one that is never answered is in range and inside a page, the model's
choice (log entry 23). A write in range answered AddressOutOfRange leaves any bytes: R210 says so of the retry of
LOGAPPEND, and for its first write, of which R63 says nothing, it is the model's choice (log entry 28). No tick of TIME
passes while the answer is awaited (R34, R241), the model's choice (log entry 29), and a write that is never answered (U7)
leaves NV as it was until a reset, of which R63 and U5 say nothing: the model's choice too (log entry 30). -/
def memWrite (off : Nat) (bytes : List Byte) (s : State) : StoreReply × State :=
  let n := bytes.length
  let s1 := sendRequest { write := true, off := off, len := n, wdata := bytes } s
  if s.cfg.capacity < off + n then (.outOfRange, takeAnswer .outOfRange s1)
  else if crossesPage s.cfg.pageSize off n then (.busError, takeAnswer .busError (scramble off n s1))
  else
    match storeAnswer s with
    | some .ok => (.ok [], takeAnswer .ok (storeBytes off bytes (nextStoreDraw s1)))
    | some .busError => (.busError, takeAnswer .busError (scramble off n (nextStoreDraw s1)))
    | some .outOfRange => (.outOfRange, takeAnswer .outOfRange (scramble off n (nextStoreDraw s1)))
    | none => (.silent, nextStoreDraw s1)

/-- What the store has done to NV when it has answered `a` to `r` (R61, R63, R210): a write in range answered Ok is carried
out, one answered otherwise leaves any bytes; a read and a request past the capacity change nothing. `memWrite` does the
same as it goes (`memWrite_settles`). -/
def settle (a : StoreAnswer) (r : StoreRequest) (s : State) : State :=
  if r.write && decide (r.off + r.len ≤ s.cfg.capacity) then
    match a with
    | .ok => storeBytes r.off r.wdata s
    | .outOfRange => scramble r.off r.len s
    | .busError => scramble r.off r.len s
  else s

/-- The store after one event of a trace: a request stands on the port, an answer settles it (R39, R45). -/
def storeEvent (s : State) : TraceEvent → State
  | .request r => { s with store.pending := some r }
  | .answer a =>
    match s.store.pending with
    | some r => { settle a r s with store.pending := none }
    | none => s
  | _ => s

/-! Reset. -/

/-- A store write in flight at reset leaves the addressed bytes with any value (R261, U5), as a failed one does. -/
def dropRequest (s : State) : State :=
  match s.store.pending with
  | none => s
  | some r => settle .busError r s

/-- Reset (R46, R47, R260, R261): every register at its reset value, SPEED loaded from the strap, the lines released at
once, no response; NV kept but for a write in flight. The outstanding request is withdrawn and no answer to it comes after
the reset: R45 and R261 are silent on a late `mem_done`, so this is the model's choice (log entry 26). -/
def resetBlock (strap : Speed) (s : State) : State :=
  let s1 := dropRequest s
  { s1 with
    bbm := Bbm.reset strap
    als := Als.reset
    ctl := Ctl.reset
    store.pending := none
    trace := .reset strap :: s1.trace }

/-- The trace events of a command that ran from `before` to `after`, the oldest first. -/
def freshEvents (before after : State) : List TraceEvent :=
  (after.trace.take (after.trace.length - before.trace.length)).reverse

/-- What survives reset of a command cut after its first `cut` events (R261): NV holds what the store has done in the
events kept, and the request outstanding is the one they leave so, which is the one from before when there are none of the
store port: a store that has not answered is still asked (R241). The registers are the reset's to set. -/
def cutBack (cut : Nat) (before after : State) : State :=
  let events := (freshEvents before after).take cut
  { before with
    line := after.line
    store := { (events.foldl storeEvent before).store with answers := after.store.answers }
    trace := events.reverse ++ before.trace }

/-- The state in which the block meets what the host does next: the host's entry is taken, any time has passed, the trace
starts anew. -/
def openPort (rest : List HostEvent) (s : State) : State := idleGap { s with host := rest, trace := [] }

end Sys2Proof.Machine
end

