-- ==== Sys2Proof/Machine/Line.lean ====
section
/-! DEFINITION. The bit commands WRBIT and RDBIT (40_line_primitives.md). -/

namespace Sys2Proof.Machine

/-- WRBIT (R139). -/
def wrbitBody (v : Bool) (s : State) : State := respond .ok 0 (writeBit v s)

/-- WRBIT with its acceptance checks (R112, R116, R139). -/
def execWrbit (v : Bool) (s : State) : Host.Outcome State Fault Refusal :=
  accept (allowedData s) (wrbitBody v) s

/-- RDBIT (R140). -/
def rdbitBody (s : State) : State := respond .ok (readBit s).bbm.bitacc.toNat (readBit s)

/-- RDBIT with its acceptance checks (R112, R116, R140). -/
def execRdbit (s : State) : Host.Outcome State Fault Refusal :=
  accept (allowedData s) rdbitBody s

end Sys2Proof.Machine
end

