-- ==== Sys2Proof/Machine/Log.lean ====
section
/-! DEFINITION. The append log: LOGINIT, LOGLAST and LOGAPPEND (43_append_log.md). Where the store never answers, the
command does not end: the state keeps `cmd_ready` at 0 and the request outstanding (U7). -/

namespace Sys2Proof.Machine

/-- A read of slot `i` (R203). -/
def readSlot (i : Nat) (s : State) : StoreReply × State := memRead (s.cfg.slotOffset i) s.cfg.recordSize s

/-- A write of a record to slot `i` (R203). -/
def writeSlot (i : Nat) (record : List Byte) (s : State) : StoreReply × State := memWrite (s.cfg.slotOffset i) record s

/-- The end of a scan that found its break (R206): the registers, LOG_VALID and the response. -/
def finishScan (offset : IndexWord) (seq : SeqWord) (s : State) : State :=
  respond .ok 0 (setLogValid true (setWriteSequence seq (setWriteOffset offset s)))

/-- The loop of LOGINIT from slot `i` on, `prev` the counter of the slot before (R206 step 3). It ends at slot N_SLOTS at
the latest (R207 (a)); the first argument bounds the reads. -/
def scanFrom : Nat → Nat → SeqWord → State → State
  | 0, _, _, s => s
  | fuel + 1, i, prev, s =>
    match readSlot i s with
    | (.silent, s1) => s1
    | (.busError, s1) => raise .busError s1
    | (.outOfRange, s1) => finishScan 0 (incSeq prev) s1
    | (.ok bytes, s1) =>
      if decodeSeq bytes = incSeq prev then scanFrom fuel (i + 1) (decodeSeq bytes) s1
      else finishScan (BitVec.ofNat 32 i) (incSeq prev) s1

/-- LOGINIT from step 2 on (R206). -/
def scanStore (s : State) : State :=
  match readSlot 0 s with
  | (.silent, s1) => s1
  | (.busError, s1) => raise .busError s1
  | (.outOfRange, s1) => raise .busError s1
  | (.ok bytes, s1) =>
    if decodeSeq bytes = sentinel then finishScan 0 0 s1
    else scanFrom s.cfg.nSlots 1 (decodeSeq bytes) s1

/-- LOGINIT (R206): LOG_VALID is cleared on entry, then the size check of R205. -/
def loginitBody (s : State) : State :=
  if s.cfg.sizesFit then scanStore (setLogValid false s) else raise .invariantViolation (setLogValid false s)

/-- LOGINIT with its acceptance checks (R112, R116, R206). -/
def execLoginit (s : State) : Host.Outcome State Fault Refusal := accept true loginitBody s

/-- LOGLAST (R208): `ZERO` is the payload of PW zero bits (R202). -/
def loglastBody (s : State) : State :=
  if s.als.writeOffset = 0 then respond .ok 0 s
  else
    match readSlot (s.als.writeOffset.toNat - 1) s with
    | (.silent, s1) => s1
    | (.busError, s1) => raise .busError s1
    | (.outOfRange, s1) => raise .busError s1
    | (.ok bytes, s1) =>
      if decodeSeq bytes = sentinel then respond .ok 0 s1 else respond .ok (decodePayload bytes) s1

/-- LOGLAST with its acceptance checks (R112, R116, R208). -/
def execLoglast (s : State) : Host.Outcome State Fault Refusal := accept (allowedLog s) loglastBody s

/-- The end of an append that was written to slot WRITE_OFFSET (R210). -/
def finishAppend (s : State) : State :=
  respond .ok s.als.writeOffset.toNat
    (setWriteOffset (s.als.writeOffset + 1) (setWriteSequence (incSeq s.als.writeSequence) s))

/-- The one retry of LOGAPPEND, at slot 0 (R210, R211 (b)). -/
def retryAppend (record : List Byte) (s : State) : State :=
  match writeSlot 0 record (setWriteOffset 0 s) with
  | (.silent, s1) => s1
  | (.busError, s1) => raise .busError s1
  | (.outOfRange, s1) => raise .busError s1
  | (.ok _, s1) => finishAppend s1

/-- LOGAPPEND (R210). -/
def logappendBody (din : Nat) (s : State) : State :=
  let record := s.cfg.encodeRecord s.als.writeSequence din
  match writeSlot s.als.writeOffset.toNat record s with
  | (.silent, s1) => s1
  | (.busError, s1) => raise .busError s1
  | (.outOfRange, s1) => retryAppend record s1
  | (.ok _, s1) => finishAppend s1

/-- LOGAPPEND with its acceptance checks (R112, R116, R210). -/
def execLogappend (din : Nat) (s : State) : Host.Outcome State Fault Refusal :=
  accept (allowedLog s) (logappendBody din) s

end Sys2Proof.Machine
end

