-- ==== Sys2Proof/Machine/Transaction.lean ====
section
/-! DEFINITION. The transaction commands BEGIN, WRBYTE, RDBYTE and END (41_bus_transactions.md). -/

namespace Sys2Proof.Machine

/-- `PHASE <- STOP ; StopCond() ; PHASE <- IDLE` (R161, R163, R167). -/
def closeTransaction (s : State) : State := setPhase .idle (stopCond (setPhase .stop s))

/-- BEGIN up to the sampled acknowledgment (R161). -/
def addressFrame (addr : DeviceAddress) (dir : Direction) (s : State) : State :=
  let s1 := startCond (setPhase .start (loadFrame addr dir s))
  let s2 := writeBits [7, 6, 5, 4, 3, 2, 1] (setPhase .addressing s1)
  let s3 := writeBits [0] (setPhase .rwBit s2)
  readBit (setPhase .ackWait s3)

/-- BEGIN (R161): the acknowledgment is active-low (R121). -/
def beginBody (addr : DeviceAddress) (dir : Direction) (s : State) : State :=
  let s1 := addressFrame addr dir s
  if s1.bbm.bitacc then respond .noAck 0 (closeTransaction s1) else respond .ok 0 (setPhase .data s1)

/-- BEGIN with its acceptance checks (R112, R116, R161). -/
def execBegin (addr : DeviceAddress) (dir : Direction) (s : State) : Host.Outcome State Fault Refusal :=
  accept (allowedIdle s) (beginBody addr dir) s

/-- WRBYTE up to the sampled acknowledgment (R163). -/
def byteFrame (b : Byte) (s : State) : State :=
  readBit (writeBits [7, 6, 5, 4, 3, 2, 1, 0] (setSr b s))

/-- WRBYTE (R163). -/
def wrbyteBody (b : Byte) (s : State) : State :=
  let s1 := byteFrame b s
  if s1.bbm.bitacc then respond .noAck 0 (closeTransaction s1) else respond .ok 0 s1

/-- WRBYTE with its acceptance checks (R112, R116, R163). -/
def execWrbyte (b : Byte) (s : State) : Host.Outcome State Fault Refusal :=
  accept (allowedData s) (wrbyteBody b) s

/-- RDBYTE (R165): nothing follows the eighth bit when no acknowledgment is wanted. -/
def rdbyteBody (wantAck : Bool) (s : State) : State :=
  let s1 := readBits [7, 6, 5, 4, 3, 2, 1, 0] s
  respond .ok s1.bbm.sr.toNat (if wantAck then writeBit false s1 else s1)

/-- RDBYTE with its acceptance checks (R112, R116, R165). -/
def execRdbyte (wantAck : Bool) (s : State) : Host.Outcome State Fault Refusal :=
  accept (allowedData s) (rdbyteBody wantAck) s

/-- END (R167). -/
def endBody (s : State) : State := respond .ok 0 (closeTransaction s)

/-- END with its acceptance checks (R112, R116, R167). -/
def execEnd (s : State) : Host.Outcome State Fault Refusal :=
  accept (allowedIdleOrData s) endBody s

end Sys2Proof.Machine
end

