-- ==== Sys2Proof/Machine/Dispatch.lean ====
section
/-! DEFINITION. One arm per command: its meaning. -/

namespace Sys2Proof.Machine

def exec (i : Instr) (s : State) : Host.Outcome State Fault Refusal :=
  match i with
  | .begin addr dir => Sys2Proof.Machine.execBegin addr dir s
  | .wrbit value => Sys2Proof.Machine.execWrbit value s
  | .rdbit => Sys2Proof.Machine.execRdbit s
  | .wrbyte byte => Sys2Proof.Machine.execWrbyte byte s
  | .rdbyte wantAck => Sys2Proof.Machine.execRdbyte wantAck s
  | .end_ => Sys2Proof.Machine.execEnd s
  | .loginit => Sys2Proof.Machine.execLoginit s
  | .loglast => Sys2Proof.Machine.execLoglast s
  | .logappend din => Sys2Proof.Machine.execLogappend din s

end Sys2Proof.Machine
end

