-- ==== Sys2Proof/Machine/Step.lean ====
section
/-! DEFINITION. The step: the block meets what the host does next. The block fetches nothing (R25, R81); its command port
stands where a fetch would (R40). Everything a step does is defined in Ops.lean and in the meanings; this file only
puts them in order. -/

namespace Sys2Proof.Machine

/-- A command word at the command port, DIN cut to the PW wires of the port (R40). While `cmd_ready` is 0 it is not
accepted and has no effect (U19). -/
def State.atCommandPort (cw : CommandWord) (din : Nat) (s : State) : Host.Outcome State Fault Refusal :=
  if s.ctl.cmdReady then
    match decode cw (din % 2 ^ s.cfg.payloadWidth) with
    | some i => exec i s
    | none => rejectWord s
  else .next s

/-- A command that reset or loss of power cuts off after its first `cut` trace events (R261). -/
def State.cutCommand (cw : CommandWord) (din cut : Nat) (strap : Speed) (s : State) : Host.Outcome State Fault Refusal :=
  match s.atCommandPort cw din with
  | .next after => .next (resetBlock strap (cutBack cut s after))
  | .fault f => .fault f
  | .refused r => .refused r

/-- One step: nothing, one command from acceptance to response, a reset, or a command cut off by a reset. A configuration
that breaks R8 is refused where a command word is accepted, the model's choice: with nothing driven, at a reset and while
`cmd_ready` is 0 the step goes on (log entry 24). -/
def step (s : State) : Host.Outcome State Fault Refusal :=
  match s.host with
  | [] => .next (openPort [] s)
  | .command cw din :: rest => (openPort rest s).atCommandPort cw din
  | .reset strap :: rest => .next (resetBlock strap (openPort rest s))
  | .resetDuring cw din cut strap :: rest => (openPort rest s).cutCommand cw din cut strap

/-- `s` with this instruction of the opcode table as what the host drives next, at a command port that accepts it. -/
def State.withFetchWord (s : State) (nbits w : Nat) : State :=
  { s with
    ctl.cmdReady := true
    host := .command (commandOfTable nbits w).cw (commandOfTable nbits w).din :: s.host }

end Sys2Proof.Machine
end

