-- ==== Sys2Proof/Machine/Accessor.lean ====
section
/-! DEFINITION. The sequence forms and the shared-bus accessor of 42_shared_accessor.md: pseudo-instructions, that is,
fixed ways for the host to issue commands, looking at each response before the next (R124, R190 to R193). They hold no
state in the block (R195). -/

namespace Sys2Proof.Machine

/-- What a pseudo-instruction reports: `result r` or `result r, buf`. -/
structure Report where
  status : Status
  buf : List Byte
  state : State
deriving DecidableEq, Repr

/-- `r <- CMD`: the host drives the command next and the block runs it; the response stands in the state.
While `cmd_ready` is 0 no response comes (R241), the word is dropped and the old response still stands there, the model's
choice (log entry 25). -/
def issue (i : Instr) (s : State) : Host.Outcome State Fault Refusal :=
  step { s with host := .command (encode i).cw (encode i).din :: s.host }

/-- Go on after an issued command. -/
def andThen {α β : Type} (o : Host.Outcome α Fault Refusal) (k : α → Host.Outcome β Fault Refusal) :
    Host.Outcome β Fault Refusal :=
  match o with
  | .next a => k a
  | .fault f => .fault f
  | .refused r => .refused r

/-- `WRITE b[0], ..., b[n-1]` (R190): the first response that is not OK ends it. -/
def pseudoWrite : List Byte → State → Host.Outcome Report Fault Refusal
  | [], s => .next { status := .ok, buf := [], state := s }
  | b :: bs, s =>
    andThen (issue (.wrbyte b) s) fun s1 =>
      if s1.ctl.rspStatus = .ok then pseudoWrite bs s1
      else .next { status := s1.ctl.rspStatus, buf := [], state := s1 }

/-- `READ n` (R191): every byte but the last is acknowledged; its result is OK. -/
def pseudoRead : Nat → List Byte → State → Host.Outcome Report Fault Refusal
  | 0, buf, s => .next { status := .ok, buf := buf, state := s }
  | n + 1, buf, s =>
    andThen (issue (.rdbyte (decide (0 < n))) s) fun s1 =>
      pseudoRead n (buf ++ [BitVec.ofNat 8 s1.ctl.rspData]) s1

/-- The closing END of a bracket, and the result before it (R192, R193). -/
def closeBracket (r : Report) : Host.Outcome Report Fault Refusal :=
  andThen (issue .end_ r.state) fun s1 => .next { r with state := s1 }

/-- A bracket opened by BEGIN: its body runs if BEGIN answered OK; END is issued in every case (R192, R193). -/
def bracket (addr : DeviceAddress) (dir : Direction) (body : State → Host.Outcome Report Fault Refusal) (s : State) :
    Host.Outcome Report Fault Refusal :=
  andThen (issue (.begin addr dir) s) fun s1 =>
    andThen
      (if s1.ctl.rspStatus = .ok then body s1 else .next { status := s1.ctl.rspStatus, buf := [], state := s1 })
      closeBracket

/-- `XWRITE addr, b[0], ..., b[n-1]` (R192). -/
def pseudoXwrite (addr : DeviceAddress) (bytes : List Byte) (s : State) : Host.Outcome Report Fault Refusal :=
  bracket addr .write (pseudoWrite bytes) s

/-- `XWRRD addr, [w[0], ..., w[m-1]], n` (R193): the read phase is skipped when the write phase is not OK. -/
def pseudoXwrrd (addr : DeviceAddress) (bytes : List Byte) (n : Nat) (s : State) :
    Host.Outcome Report Fault Refusal :=
  andThen (pseudoXwrite addr bytes s) fun r =>
    if r.status = .ok then bracket addr .read (pseudoRead n []) r.state else .next r

end Sys2Proof.Machine
end

