-- ==== Sys2Proof/Safety.lean ====
section
/-! DEFINITION. The terms claims are stated in: the invariant of states between two steps (R48), how a run of draws
behaves, what a slot of the store holds, and when the store holds a history of appended values. -/

namespace Sys2Proof.Machine

/-- What holds of every state between two steps that a run from reset reaches: the clauses of R48, the widths, and the
store's form. -/
structure Inv (s : State) : Prop where
  /-- No request is outstanding while the block accepts commands (R39, R40). -/
  ready_no_request : s.ctl.cmdReady = true → s.store.pending = none
  /-- R48 (a). -/
  phase_between : s.bbm.phase = .idle ∨ s.bbm.phase = .data
  /-- R48 (b). -/
  idle_released : s.bbm.phase = .idle → s.bbm.sclDrv = true ∧ s.bbm.sdaDrv = true
  /-- R48 (c), its first half. -/
  data_clock_low : s.bbm.phase = .data → s.bbm.sclDrv = false
  /-- R48 (d). -/
  offset_in_range : s.als.logValid = true → s.als.writeOffset.toNat ≤ s.cfg.nSlots
  /-- A valid log passed the check of R205. -/
  log_sizes : s.als.logValid = true → s.cfg.sizesFit = true
  /-- R48 (e). -/
  halt_code : s.ctl.halt = true → s.ctl.faultCode = 3 ∨ s.ctl.faultCode = 4
  /-- FAULT is 0 until a fatal error (R31). -/
  run_code : s.ctl.halt = false → s.ctl.faultCode = 0
  /-- T0 is TW bits wide (R22). -/
  t0_width : s.bbm.t0 < 2 ^ s.cfg.tw
  /-- RSP_DATA is RW bits wide (R32). -/
  data_width : s.ctl.rspData < 2 ^ s.cfg.dataWidth
  /-- LAST_STATUS is a copy of RSP_STATUS (R32). -/
  status_copy : s.ctl.lastStatus = s.ctl.rspStatus
  /-- Out-of-range is never a response (R212). -/
  never_out_of_range : s.ctl.rspStatus ≠ .addrOutOfRange
  /-- The store is in canonical form. -/
  store_wf : Memory.wf s.store.nv = true
  /-- The store has CAPACITY bytes (R36). -/
  store_within : Memory.within s.cfg.capacity s.store.nv = true

/-- The block is ready to run commands: a legal configuration, not halted, accepting (R8, R31, R40). -/
structure Ready (s : State) : Prop where
  config_ok : s.cfg.ok s.bbm.speed = true
  not_halted : s.ctl.halt = false

/-- The `k`-th value the environment will draw, from 0. -/
def Draws.nth {α : Type} (free : Nat → α) (d : Draws α) (k : Nat) : α := (Draws.drop k d).head free

/-- The peer leaves the clock alone and holds data low at each of the next `n` samples: it acknowledges, or sends zeros
(R121). -/
def PeerPullsData (n : Nat) (s : State) : Prop :=
  ∀ k, k < n → s.line.peers.nth freePeer k = { scl := true, sda := false }

/-- The peer leaves both lines alone at each of the next `n` samples: an idle bus (R121). -/
def PeerIdle (n : Nat) (s : State) : Prop :=
  ∀ k, k < n → s.line.peers.nth freePeer k = { scl := true, sda := true }

/-- The peer holds the clock low at each of the next `n` samples: it stretches (R16, R142). -/
def PeerStretches (n : Nat) (s : State) : Prop :=
  ∀ k, k < n → (s.line.peers.nth freePeer k).scl = false

/-- One sample as the pins show it (R132). -/
structure Sample where
  ticks : Nat
  scl : Bool
  sda : Bool
deriving DecidableEq, Repr

/-- The trace event of a sample. -/
def Sample.event (x : Sample) : TraceEvent := .sample x.ticks x.scl x.sda

/-- The samples among events, in order. -/
def samplesOf (events : List TraceEvent) : List Sample :=
  events.filterMap fun
    | .sample ticks scl sda => some { ticks := ticks, scl := scl, sda := sda }
    | _ => none

/-- `e = Elapsed(now, t0)` of a sample (R140). -/
def Sample.since (c : Config) (t0 : Nat) (x : Sample) : Nat := elapsed c.tw (x.ticks % 2 ^ c.tw) t0

/-- A sample of the active window (R141): before the outer window is over, with the clock wire high. -/
def Sample.active (c : Config) (sp : Speed) (t0 : Nat) (x : Sample) : Bool :=
  decide (x.since c t0 < c.bitWindow sp) && x.scl

/-- A sample after which the poll of ReadBit goes on (R140, R142): before the outer window is over, the clock high or
the stretch still tolerated. -/
def Sample.goesOn (c : Config) (sp : Speed) (t0 : Nat) (x : Sample) : Bool :=
  decide (x.since c t0 < c.bitWindow sp) && (x.scl || decide (x.since c t0 < c.stretch sp))

/-- The bit that samples give (R141): 0 exactly when one of the active window has data low. -/
def bitOf (c : Config) (sp : Speed) (t0 : Nat) (xs : List Sample) : Bool :=
  xs.all fun x => !(x.active c sp t0 && !x.sda)

/-- The store carries out the next `n` in-range requests: no fault, no silence, no broken contract (R64). -/
def StoreWorks (n : Nat) (s : State) : Prop := ∀ k, k < n → s.store.answers.nth freeStoreDraw k = .ok

/-- The bytes of slot `j` (R74). -/
def slotBytes (c : Config) (nv : Memory) (j : Nat) : List Byte :=
  Memory.readBytes nv (c.slotOffset j) c.recordSize

/-- The sequence counter slot `j` carries. -/
def slotSeq (c : Config) (nv : Memory) (j : Nat) : SeqWord := decodeSeq (slotBytes c nv j)

/-- The payload slot `j` carries. -/
def slotPayload (c : Config) (nv : Memory) (j : Nat) : Nat := decodePayload (slotBytes c nv j)

/-- The latest of the appends 0 .. `len` - 1 that went to slot `j`, for `j < len`: append `m` goes to slot `m mod N`. -/
def latestAppend (slots len j : Nat) : Nat := j + slots * ((len - 1 - j) / slots)

/-- The store holds what appending `values` (the oldest first) to an erased store leaves: each slot the record of the
latest append to it, under the counter of that append, and the slots never written the sentinel (R211 (f), R213). -/
def HoldsHistory (c : Config) (nv : Memory) (values : List Nat) : Prop :=
  ∀ j, j < c.nSlots →
    if j < values.length then
      slotBytes c nv j =
        c.encodeRecord (BitVec.ofNat 32 (latestAppend c.nSlots values.length j))
          (values.getD (latestAppend c.nSlots values.length j) 0)
    else slotSeq c nv j = sentinel

/-- The log registers stand where these appends leave them: WRITE_SEQUENCE counts them and WRITE_OFFSET is their count
modulo N_SLOTS, with N_SLOTS itself standing for 0 before a wrap is found (R28, R211 (a)). -/
structure LogAt (s : State) (values : List Nat) : Prop where
  valid : s.als.logValid = true
  sequence : s.als.writeSequence = BitVec.ofNat 32 values.length
  offset_le : s.als.writeOffset.toNat ≤ s.cfg.nSlots
  offset_mod : s.als.writeOffset.toNat % s.cfg.nSlots = values.length % s.cfg.nSlots
  history : HoldsHistory s.cfg s.store.nv values

/-- The events a step or a meaning adds to the trace, the oldest first. -/
def Emits (s s' : State) (events : List TraceEvent) : Prop := s'.trace = events.reverse ++ s.trace

/-- The line writes among events, in order. -/
def lineWrites (events : List TraceEvent) : List (Line × Bool) :=
  events.filterMap fun
    | .line l v _ => some (l, v)
    | _ => none

/-- The phases among events, in order. -/
def phasesOf (events : List TraceEvent) : List Phase :=
  events.filterMap fun
    | .phase p _ => some p
    | _ => none

/-- The store requests among events, in order. -/
def requestsOf (events : List TraceEvent) : List StoreRequest :=
  events.filterMap fun
    | .request r => some r
    | _ => none

/-- The responses among events, in order. -/
def responsesOf (events : List TraceEvent) : List (Status × Nat) :=
  events.filterMap fun
    | .response st d => some (st, d)
    | _ => none

/-- What the ports showed from `s` to `s'`: these line writes, phases, store requests and responses, each in order. -/
def Shows (s s' : State) (lines : List (Line × Bool)) (phases : List Phase) (requests : List StoreRequest)
    (responses : List (Status × Nat)) : Prop :=
  ∃ events, Emits s s' events ∧ lineWrites events = lines ∧ phasesOf events = phases ∧
    requestsOf events = requests ∧ responsesOf events = responses

/-- The ticks that pass in the polls of `ReadBit` among events: from the event before each sample to it, where `start` is
the tick of the event before the first of them. A poll begins when the clock is released (R140, R285). -/
def polledTicks (start : Nat) : List TraceEvent → Nat
  | [] => 0
  | .line _ _ k :: es => polledTicks k es
  | .phase _ k :: es => polledTicks k es
  | .sample k _ _ :: es => k - start + polledTicks k es
  | .transaction _ _ :: es => polledTicks start es
  | .logValid _ :: es => polledTicks start es
  | .writeOffset _ :: es => polledTicks start es
  | .writeSequence _ :: es => polledTicks start es
  | .request _ :: es => polledTicks start es
  | .answer _ :: es => polledTicks start es
  | .response _ _ :: es => polledTicks start es
  | .reset _ :: es => polledTicks start es

/-- A command lasts `units` units and the ticks of its `polls` polls at least; each poll lasts T_STRETCH at least, and at
most T_BIT with two reads of TIME (R142, R143, R285). -/
def LastsAtLeast (units polls : Nat) (s t : State) : Prop :=
  ∃ events, Emits s t events ∧
    s.line.ticks + units * s.unit + polledTicks s.line.ticks events ≤ t.line.ticks ∧
    polls * s.stretch ≤ polledTicks s.line.ticks events ∧
    polledTicks s.line.ticks events ≤ polls * (s.bitWindow + 2 * s.cfg.dtMax)

/-- The line writes of one `WriteBit` (R139). -/
def writtenBit (v : Bool) : List (Line × Bool) := [(.sda, v), (.scl, true), (.scl, false)]

/-- The line writes of one `ReadBit` (R140). -/
def readBitWrites : List (Line × Bool) := [(.scl, false), (.sda, true), (.scl, true), (.scl, false), (.sda, false)]

/-- The line writes of `StartCond` (R137). -/
def startWrites : List (Line × Bool) := [(.sda, false), (.scl, false)]

/-- The line writes of `StopCond` (R138). -/
def stopWrites : List (Line × Bool) := [(.scl, true), (.sda, true)]

/-- The line writes of a byte shifted out, most significant bit first (R68). -/
def writtenByte (b : Byte) : List (Line × Bool) :=
  [7, 6, 5, 4, 3, 2, 1, 0].flatMap fun i => writtenBit (b.getLsbD i)

/-- The command of the reads of LOGINIT: slot `j`, whole (R203, R206). -/
def slotRead (c : Config) (j : Nat) : StoreRequest :=
  { write := false, off := c.slotOffset j, len := c.recordSize, wdata := [] }

/-- The request of LOGAPPEND: a record into slot `j` (R203, R210). -/
def slotWrite (c : Config) (j : Nat) (record : List Byte) : StoreRequest :=
  { write := true, off := c.slotOffset j, len := record.length, wdata := record }

/-- The slot a LOGAPPEND writes when the store keeps its contract: WRITE_OFFSET, or slot 0 when that names no slot (R210,
R211 (a), (d)). -/
def appendSlot (s : State) : Nat :=
  if s.als.writeOffset.toNat < s.cfg.nSlots then s.als.writeOffset.toNat else 0

/-- The response was given, as the last event of the command, and stands in the response registers, HALT and FAULT as
before (R14, R32, R41). -/
def Responded (s t : State) (status : Status) (data : Nat) : Prop :=
  t.ctl = { s.ctl with rspStatus := status, rspData := data, lastStatus := status, cmdReady := true } ∧
    t.trace.head? = some (.response status data)

/-- A fatal error was taken (R236): HALT, FAULT and the response registers, the response the last event of the command. -/
def Trapped (t : State) (e : FatalError) : Prop :=
  t.ctl =
      { halt := true, faultCode := e.status.code, rspStatus := e.status, rspData := 0, lastStatus := e.status,
        cmdReady := true } ∧
    t.trace.head? = some (.response e.status 0)

/-- The values that R47 gives the registers after reset, SPEED at the strap, and no request outstanding. SR, BITACC and
T0, which R47 leaves unspecified, are not among them. -/
structure HasResetValues (strap : Speed) (t : State) : Prop where
  sclDrv : t.bbm.sclDrv = true
  sdaDrv : t.bbm.sdaDrv = true
  phase : t.bbm.phase = .idle
  txnAddr : t.bbm.txnAddr = 0
  txnDir : t.bbm.txnDir = .write
  speed : t.bbm.speed = strap
  writeOffset : t.als.writeOffset = 0
  writeSequence : t.als.writeSequence = 0
  logValid : t.als.logValid = false
  halt : t.ctl.halt = false
  faultCode : t.ctl.faultCode = 0
  rspStatus : t.ctl.rspStatus = .ok
  lastStatus : t.ctl.lastStatus = .ok
  rspData : t.ctl.rspData = 0
  cmdReady : t.ctl.cmdReady = true
  request : t.store.pending = none

/-- The frame of every BBM command: parameters, the ALS, the store and all its bytes, HALT and FAULT, the host's entries
and SPEED are unchanged. -/
structure BbmFrame (s t : State) : Prop where
  cfg : t.cfg = s.cfg
  als : t.als = s.als
  store : t.store = s.store
  host : t.host = s.host
  gaps : t.line.gaps = s.line.gaps
  speed : t.bbm.speed = s.bbm.speed
  halt : t.ctl.halt = s.ctl.halt
  faultCode : t.ctl.faultCode = s.ctl.faultCode

/-- The frame of every ALS command: parameters, every BBM register, TIME, the peer and the host's entries are
unchanged. Of how much TIME passes while the store's answer is awaited the spec says nothing (R34, R133, R241); that it is
none is the model's choice (log entry 29). -/
structure AlsFrame (s t : State) : Prop where
  cfg : t.cfg = s.cfg
  bbm : t.bbm = s.bbm
  line : t.line = s.line
  host : t.host = s.host

/-- The six commands of unit BBM (R102). -/
def isBbm : Instr → Bool
  | .begin _ _ => true
  | .wrbit _ => true
  | .rdbit => true
  | .wrbyte _ => true
  | .rdbyte _ => true
  | .end_ => true
  | .loginit => false
  | .loglast => false
  | .logappend _ => false

/-- The table of R116: when each command is allowed. -/
def allowedNow (s : State) : Instr → Prop
  | .begin _ _ => s.bbm.phase = .idle
  | .wrbit _ => s.bbm.phase = .data
  | .rdbit => s.bbm.phase = .data
  | .wrbyte _ => s.bbm.phase = .data
  | .rdbyte _ => s.bbm.phase = .data
  | .end_ => s.bbm.phase = .idle ∨ s.bbm.phase = .data
  | .loginit => True
  | .loglast => s.als.logValid = true
  | .logappend _ => s.als.logValid = true

/-- The transition table of R160, its rows that change PHASE. -/
def phaseMayFollow : Phase → Phase → Bool
  | .idle, .start => true
  | .start, .addressing => true
  | .addressing, .rwBit => true
  | .rwBit, .ackWait => true
  | .ackWait, .data => true
  | .ackWait, .stop => true
  | .data, .stop => true
  | .idle, .stop => true
  | .stop, .idle => true
  | _, _ => false

/-- A list of phases that follows the table from `p` on. -/
def phasesFollow : Phase → List Phase → Bool
  | _, [] => true
  | p, q :: qs => phaseMayFollow p q && phasesFollow q qs

/-- `n` bit reads one after the other. -/
def afterReads : Nat → State → State
  | 0, s => s
  | n + 1, s => readBit (afterReads n s)

/-- The constraints of R7 and R8 on a configuration with strap `sp`, in the spec's own words. -/
def MeetsConstraints (c : Config) (sp : Speed) : Prop :=
  (1 ≤ c.unitSlow ∧ 1 ≤ c.unitFast) ∧
  (1 ≤ c.dtMax ∧ 2 * c.unit sp + c.dtMax ≤ 2 ^ c.tw) ∧
  (∀ v, 1 ≤ c.stretch v ∧ c.stretch v ≤ c.bitWindow v ∧ c.bitWindow v + c.dtMax ≤ 2 ^ c.tw) ∧
  (1 ≤ c.payloadBytes ∧ 1 ≤ c.pageSize) ∧
  c.recordSize ≤ c.capacity ∧
  c.capacity % c.pageSize = 0 ∧
  (c.nSlots + 1) * c.recordSize < 2 ^ 32

/-- Every tick count in a state's registers and trace moved on by `d`: the same run, begun `d` ticks later. -/
def TraceEvent.later (d : Nat) : TraceEvent → TraceEvent
  | .line l v t => .line l v (t + d)
  | .phase p t => .phase p (t + d)
  | .transaction addr dir => .transaction addr dir
  | .logValid v => .logValid v
  | .writeOffset i => .writeOffset i
  | .writeSequence n => .writeSequence n
  | .sample t scl sda => .sample (t + d) scl sda
  | .request r => .request r
  | .answer a => .answer a
  | .response st data => .response st data
  | .reset strap => .reset strap

/-- The same state with the time source `d` ticks further on and every time stamp with it. -/
def State.later (d : Nat) (s : State) : State :=
  { s with
    bbm.t0 := (s.bbm.t0 + d) % 2 ^ s.cfg.tw
    line.ticks := s.line.ticks + d
    trace := s.trace.map (TraceEvent.later d) }

end Sys2Proof.Machine
end

