-- ==== Sys2Proof/Certificates/Slice0/Obligations.lean ====
section
/-! DEFINITION. The statements for the provers. Each formalises rules of spec/, named in its docstring; a statement about
every state holds for every configuration and every behaviour of the peer, the time source and the store, because a
state carries all of them. -/

open Sys2Proof Sys2Proof.Machine

/-! ## Encoding -/

/-- R103 to R106: decoding what the encoder drives gives the command back, every operand at every value, through a
payload port of PW wires. -/
def Obligations.DecodeOfEncodeIsIdentity : Prop :=
  ∀ (c : Config) (i : Instr), i.wf c = true →
    decode (encode i).cw ((encode i).din % 2 ^ c.payloadWidth) = some i

/-- R103, R115, D3: each legal word has one meaning: the decoded command encodes to that word, so no bit is dropped and no
must-be-zero bit is tolerated; the payload is DIN. -/
def Obligations.DecodedWordIsTheEncoding : Prop :=
  ∀ (cw : CommandWord) (din : Nat) (i : Instr), decode cw din = some i →
    (encode i).cw = cw ∧ ((encode i).din = din ∨ (encode i).din = 0 ∧ cw.extractLsb' 12 4 ≠ 0xA)

/-- R104, R105: the operand bytes: `a[7:1]` and `a[0]` of BEGIN, `a[7:0]` of WRBYTE, `a[0]` of WRBIT and RDBYTE. -/
def Obligations.OperandsAreTheirBits : Prop :=
  (∀ (a : Byte) (din : Nat),
      decode (commandWord 0x1 a) din = some (.begin (a.extractLsb' 1 7) (if a.getLsbD 0 then .read else .write)) ∧
      decode (commandWord 0x4 a) din = some (.wrbyte a)) ∧
    ∀ (v : Bool) (din : Nat),
      decode (commandWord 0x2 (if v then 1 else 0)) din = some (.wrbit v) ∧
      decode (commandWord 0x5 (if v then 1 else 0)) din = some (.rdbyte v)

/-- The words of V1, V20, V22, V24, V26, V40 and R123, written out, decode to their commands. -/
def Obligations.WrittenWordsDecode : Prop :=
  decode 0x10A0 0 = some (.begin 0x50 .write) ∧ decode 0x10A1 0 = some (.begin 0x50 .read) ∧
    decode 0x2001 0 = some (.wrbit true) ∧ decode 0x3000 0 = some .rdbit ∧ decode 0x40A5 0 = some (.wrbyte 0xA5) ∧
    decode 0x5001 0 = some (.rdbyte true) ∧ decode 0x6000 0 = some .end_ ∧ decode 0x8000 0 = some .loginit ∧
    decode 0x9000 0 = some .loglast ∧ decode 0xA000 0x55 = some (.logappend 0x55) ∧ decode 0x0000 0 = none ∧
    decode 0xFFFF 0 = none

/-- R114: in a block that takes a command and is not halted, a word with a reserved opcode is refused with ILLEGAL,
whatever its other bits. -/
def Obligations.ReservedOpcodesAreIllegal : Prop :=
  ∀ (s : State) (cw : CommandWord) (din : Nat) (rest : List HostEvent),
    s.host = .command cw din :: rest → Ready s → s.ctl.cmdReady = true →
    cw.extractLsb' 12 4 ∈ [0x0, 0x7, 0xB, 0xC, 0xD, 0xE, (0xF : BitVec 4)] →
      step s = .next (refuse .illegal (openPort rest s))

/-- R115: in a block that takes a command and is not halted, a word whose opcode is a command's but which has a 1 in a
must-be-zero bit of its format is refused with ILLEGAL: bits 11:8 of the formats B, bits 11:1 of the formats F, bits 11:0 of the formats N and P (R101). -/
def Obligations.MustBeZeroBitsAreIllegal : Prop :=
  ∀ (s : State) (cw : CommandWord) (din : Nat) (rest : List HostEvent),
    s.host = .command cw din :: rest → Ready s → s.ctl.cmdReady = true →
    (cw.extractLsb' 12 4 ∈ [0x1, (0x4 : BitVec 4)] ∧ cw.extractLsb' 8 4 ≠ 0 ∨
      cw.extractLsb' 12 4 ∈ [0x2, (0x5 : BitVec 4)] ∧ cw.extractLsb' 1 11 ≠ 0 ∨
      cw.extractLsb' 12 4 ∈ [0x3, 0x6, 0x8, 0x9, (0xA : BitVec 4)] ∧ cw.extractLsb' 0 12 ≠ 0) →
      step s = .next (refuse .illegal (openPort rest s))

/-- R101, U12: DIN is ignored on every word but LOGAPPEND's: any value of it gives the same step. -/
def Obligations.DinIsIgnored : Prop :=
  ∀ (s : State) (cw : CommandWord) (d d' : Nat) (rest : List HostEvent), cw ≠ 0xA000 →
    step { s with host := .command cw d :: rest } = step { s with host := .command cw d' :: rest }

/-! ## Step, acceptance, refusal, trap, reset -/

/-- R25, R40, R112: when the host drives a word that decodes to `i` and the block accepts it, the step is `exec i` in the
state at the port, which differs from the state before in time passed, the host's entry taken and the trace begun. -/
def Obligations.StepRunsTheDecodedCommand : Prop :=
  ∀ (s : State) (cw : CommandWord) (din : Nat) (rest : List HostEvent) (i : Instr),
    s.host = .command cw din :: rest → s.ctl.cmdReady = true →
    decode cw (din % 2 ^ s.cfg.payloadWidth) = some i →
      step s = exec i (openPort rest s) ∧
        openPort rest s =
          { s with
            host := rest
            trace := []
            line := { s.line with
              ticks := s.line.ticks + s.line.gaps.head Config.freeGap
              gaps := s.line.gaps.tail } }

/-- R40, U19: a word driven while `cmd_ready` is 0 is not accepted and has no effect; with nothing driven the block does
nothing (R249). Time passes. That the step takes the host's entry away, though the word was not accepted, is the model's
deduction (log entry 10); that a block whose configuration breaks R8 goes on in these steps too is the model's choice (log
entry 24). -/
def Obligations.NothingIsAcceptedUnlessReady : Prop :=
  (∀ (s : State) (cw : CommandWord) (din : Nat) (rest : List HostEvent),
      s.host = .command cw din :: rest → s.ctl.cmdReady = false → step s = .next (openPort rest s)) ∧
    ∀ s : State, s.host = [] → step s = .next (openPort [] s)

/-- R112, R116: the acceptance checks of every command, in their order: HALTED first, then ILLEGAL when the command is
not allowed in the present state. To refuse is to write the response registers and give the response, nothing else. That END
in a phase other than IDLE and DATA is refused too is the model's deduction (log entry 17). -/
def Obligations.AcceptanceChecksInOrder : Prop :=
  ∀ (i : Instr) (s : State), s.cfg.ok s.bbm.speed = true →
    (s.ctl.halt = true → exec i s = .next (refuse .halted s)) ∧
    (s.ctl.halt = false → ¬ allowedNow s i → exec i s = .next (refuse .illegal s)) ∧
    ∀ st, refuse st s =
      { s with
        ctl := { s.ctl with rspStatus := st, rspData := 0, lastStatus := st, cmdReady := true }
        trace := .response st 0 :: s.trace }

/-- R113: while HALT = 1 every command word, legal or not, is refused with HALTED. -/
def Obligations.HaltedRefusesEveryWord : Prop :=
  ∀ (s : State) (cw : CommandWord) (din : Nat) (rest : List HostEvent),
    s.host = .command cw din :: rest → s.cfg.ok s.bbm.speed = true → s.ctl.cmdReady = true → s.ctl.halt = true →
      step s = .next (refuse .halted (openPort rest s))

/-- R8: a configuration that breaks a constraint is refused, and one that meets them all is not. That the constraint (b)
is read with the UNIT of the configured speed is the model's deduction (log entry 15). -/
def Obligations.BrokenConfigurationIsRefused : Prop :=
  ∀ (i : Instr) (s : State),
    (¬ MeetsConstraints s.cfg s.bbm.speed → exec i s = .refused .illegalConfiguration) ∧
      (MeetsConstraints s.cfg s.bbm.speed → ∃ t, exec i s = .next t)

/-- R236: trap entry writes HALT, FAULT and the response, with the error's code, and nothing else; the codes are 3 and
4. -/
def Obligations.TrapEntryWritesOnlyItsRegisters : Prop :=
  ∀ (e : FatalError) (s : State),
    raise e s =
        { s with
          ctl :=
            { halt := true
              faultCode := e.status.code
              rspStatus := e.status
              rspData := 0
              lastStatus := e.status
              cmdReady := true }
          trace := .response e.status 0 :: s.trace } ∧
      FatalError.busError.status.code = 3 ∧ FatalError.invariantViolation.status.code = 4

/-- R46, R239: only reset clears HALT and FAULT: a step of a halted block that is not a reset keeps both. -/
def Obligations.OnlyResetLeavesHalt : Prop :=
  ∀ (s t : State), step s = .next t → s.ctl.halt = true →
    (∀ strap rest, s.host ≠ .reset strap :: rest) →
    (∀ cw din cut strap rest, s.host ≠ .resetDuring cw din cut strap :: rest) →
      t.ctl.halt = true ∧ t.ctl.faultCode = s.ctl.faultCode

/-- R47, R260, R261: what reset leaves, from any state: every register the rule gives a value at that value, SPEED at the
strap, and NV unchanged but for the bytes of a store write in flight, which may hold any value; and the registers of
`State.reset` hold those values, with the strap SLOW, the model's choice (log entry 6). That no request is outstanding
afterwards, because reset withdraws the one that was, is the model's choice (log entry 26), and so is that a block whose
configuration breaks R8 is reset like any other (log entry 24). -/
def Obligations.ResetLeavesTheResetValues : Prop :=
  (∀ (s : State) (strap : Speed) (rest : List HostEvent), s.host = .reset strap :: rest →
    ∃ t, step s = .next t ∧ HasResetValues strap t ∧ (s.store.pending = none → t.store.nv = s.store.nv) ∧
      ∀ a, (∀ r, s.store.pending = some r → r.write = true → a < r.off ∨ r.off + r.len ≤ a) →
        Memory.read t.store.nv a = Memory.read s.store.nv a) ∧
    HasResetValues .slow State.reset

/-- R47, R72, R261, U5: reset during a command. Whatever the command and the moment, every register R47 gives a value is at
it. The step shows the events of the same command left to run, up to the moment, and then the reset, nothing more: cut before
its response the command gives none, and no stop condition follows (R261). A command that is no LOGAPPEND changes no byte of
NV, and a LOGAPPEND none outside the slot it writes, or the two slots when the store breaks its contract (log entry 28); what
a command that ended by a response wrote stays written (R63). The moment is a point in the command's trace, the model's choice
(log entry 14), and that a request left outstanding by the cut is withdrawn is the model's choice too (log entry 26). In a
block that is stuck, `cmd_ready` 0, the driven word is not accepted (U19, log entry 10) and the reset is any other reset, a
store write in flight and all, whatever the configuration (log entry 24). -/
def Obligations.ResetDuringCommandKeepsTheStore : Prop :=
  (∀ (s : State) (cw : CommandWord) (din cut : Nat) (strap : Speed) (rest : List HostEvent),
    s.host = .resetDuring cw din cut strap :: rest → s.cfg.ok s.bbm.speed = true → s.store.pending = none →
      ∃ t u, step s = .next t ∧ step { s with host := .command cw din :: rest } = .next u ∧
        HasResetValues strap t ∧ t.cfg = s.cfg ∧
        t.trace.reverse = u.trace.reverse.take cut ++ [.reset strap] ∧
        (∀ a, (cw ≠ 0xA000 ∨
            (a < s.cfg.slotOffset (appendSlot s) ∨ s.cfg.slotOffset (appendSlot s) + s.cfg.recordSize ≤ a) ∧
              (storeDraw s = .outOfRange → s.cfg.recordSize ≤ a)) →
          Memory.read t.store.nv a = Memory.read s.store.nv a) ∧
        (u.trace.length ≤ cut → u.ctl.cmdReady = true → t.store.nv = u.store.nv)) ∧
    ∀ (s : State) (cw : CommandWord) (din cut : Nat) (strap : Speed) (rest : List HostEvent),
      s.ctl.cmdReady = false →
        step { s with host := .resetDuring cw din cut strap :: rest } = step { s with host := .reset strap :: rest }

/-- R33, R42: the status port between steps: STATUS field by field, LOG_OFFSET, LOG_SEQ, and zero for select 3. And the trace
of a step accounts for the values the step leaves: what the port shows after all of its events (`statusDuring`) is what it
shows of the state after the step. That the port inside a step is read from the events of its trace, at the grain of those
events, is the model's choice (log entries 1 and 27); of the values inside a step that a later write of the same step replaces
this statement says nothing. -/
def Obligations.StatusPortMirrorsTheRegisters : Prop :=
  (∀ s t : State, step s = .next t →
    ∀ sel, statusDuring sel t.trace.length t.trace s = statusPort sel t) ∧
  ∀ s : State,
    (statusPort 0 s).extractLsb' 0 3 = s.bbm.phase.code ∧
    (statusPort 0 s).getLsbD 3 = s.bbm.txnDir.bit ∧
    (statusPort 0 s).extractLsb' 4 7 = s.bbm.txnAddr ∧
    (statusPort 0 s).getLsbD 11 = s.bbm.sclDrv ∧
    (statusPort 0 s).getLsbD 12 = s.bbm.sdaDrv ∧
    (statusPort 0 s).getLsbD 13 = s.bbm.speed.bit ∧
    (statusPort 0 s).getLsbD 14 = s.ctl.halt ∧
    (statusPort 0 s).getLsbD 15 = s.als.logValid ∧
    (statusPort 0 s).extractLsb' 16 3 = s.ctl.faultCode ∧
    (statusPort 0 s).extractLsb' 19 3 = s.ctl.lastStatus.code ∧
    (statusPort 0 s).extractLsb' 22 10 = 0 ∧
    statusPort 1 s = s.als.writeOffset ∧ statusPort 2 s = s.als.writeSequence ∧ statusPort 3 s = 0

/-! ## Time and lines -/

/-- R133: each read of TIME sees it later by an advance from 1 to DT_MAX, modulo 2^TW. -/
def Obligations.NowAdvancesTime : Prop :=
  ∀ s : State, s.cfg.ok s.bbm.speed = true →
    ∃ d, 1 ≤ d ∧ d ≤ s.cfg.dtMax ∧ now s =
      { s with line := { s.line with ticks := s.line.ticks + d, advances := s.line.advances.tail } } ∧
      (now s).time = (s.time + d) % 2 ^ s.cfg.tw

/-- R13: from the first `Now()` of a `Wait(n)` to its return pass at least `n * UNIT` ticks and less than
`n * UNIT + DT_MAX`, across any wrap of TIME. -/
def Obligations.WaitLastsItsUnits : Prop :=
  ∀ (s : State) (n : Nat), s.cfg.ok s.bbm.speed = true → n = 1 ∨ n = 2 →
    (now s).line.ticks + n * s.unit ≤ (wait n s).line.ticks ∧
      (wait n s).line.ticks < (now s).line.ticks + n * s.unit + s.cfg.dtMax

/-- R131, R132: `Sample()` reads the AND of the block's latch and the peer's level of each line, at one instant, after
TIME has advanced. -/
def Obligations.SampleReadsWireLevels : Prop :=
  ∀ s : State,
    (sample s).trace =
        .sample (now s).line.ticks
          (s.bbm.sclDrv && (s.line.peers.nth freePeer 0).scl) (s.bbm.sdaDrv && (s.line.peers.nth freePeer 0).sda) ::
          s.trace ∧
      sclLevel (sample s) = (s.bbm.sclDrv && (s.line.peers.nth freePeer 0).scl) ∧
      sdaLevel (sample s) = (s.bbm.sdaDrv && (s.line.peers.nth freePeer 0).sda) ∧
      (sample s).bbm = s.bbm ∧ (sample s).line.ticks = (now s).line.ticks

/-- R139: WRBIT completes with OK, writes the data line, raises the clock after a unit, lowers it two units later and
ends a unit after that; nothing but SDA_DRV, SCL_DRV, T0, TIME and the response registers changes. -/
def Obligations.WrbitWritesOneBit : Prop :=
  ∀ (s : State) (v : Bool), Ready s → s.bbm.phase = .data →
    ∃ t up down, exec (.wrbit v) s = .next t ∧ Responded s t .ok 0 ∧ BbmFrame s t ∧
      t.bbm = { s.bbm with sdaDrv := v, sclDrv := false, t0 := t.bbm.t0 } ∧
      t.line = { s.line with ticks := t.line.ticks, advances := t.line.advances } ∧
      t.trace =
        .response .ok 0 :: .line .scl false down :: .line .scl true up :: .line .sda v s.line.ticks :: s.trace ∧
      s.line.ticks + s.unit ≤ up ∧ up + 2 * s.unit ≤ down ∧ down + s.unit ≤ t.line.ticks

/-- R140, R144: RDBIT completes with OK and the bit in BITACC: the three opening writes, the samples, and the two closing
writes at the last sample; the clock has been low with data released for a unit before it rises. Nothing but the latches,
T0, BITACC, TIME, the peer's levels and the response registers changes. -/
def Obligations.RdbitReadsOneBit : Prop :=
  ∀ s : State, Ready s → s.bbm.phase = .data →
    ∃ t up polls last, exec .rdbit s = .next t ∧ Responded s t .ok t.bbm.bitacc.toNat ∧ BbmFrame s t ∧
      t.bbm = { s.bbm with sdaDrv := false, sclDrv := false, t0 := t.bbm.t0, bitacc := t.bbm.bitacc } ∧
      t.trace =
        .response .ok t.bbm.bitacc.toNat :: .line .sda false t.line.ticks :: .line .scl false t.line.ticks ::
          (((polls ++ [last]).map Sample.event).reverse ++
            .line .scl true up :: .line .sda true s.line.ticks :: .line .scl false s.line.ticks :: s.trace) ∧
      s.line.ticks + s.unit ≤ up ∧ up < last.ticks ∧ t.line.ticks = last.ticks

/-- R141: the bit of RDBIT is 0 exactly when some sample of the active window (`e < T_BIT`, clock wire high) has the data
wire low. -/
def Obligations.RdbitBitIsTheActiveWindow : Prop :=
  ∀ s : State, Ready s → s.bbm.phase = .data →
    ∃ t events, exec .rdbit s = .next t ∧ Emits s t events ∧
      (t.ctl.rspData = 0 ∨ t.ctl.rspData = 1) ∧
      (t.ctl.rspData = 0 ↔
        ∃ x : Sample, x.event ∈ events ∧ x.active s.cfg s.bbm.speed t.bbm.t0 = true ∧ x.sda = false)

/-- R142, R143: the poll of RDBIT, in ticks since the tick `start` of T0: every sample but the last comes before T_BIT, and
its clock is high or it comes before T_STRETCH; the last one comes at T_BIT or later, or has its clock low at T_STRETCH or
later; it comes less than T_BIT + DT_MAX ticks after T0. The poll starts more than a unit after the command. -/
def Obligations.RdbitPollEndsByAWindow : Prop :=
  ∀ s : State, Ready s → s.bbm.phase = .data →
    ∃ t events polls last start, exec .rdbit s = .next t ∧ Emits s t events ∧
      samplesOf events = polls ++ [last] ∧
      t.bbm.t0 = start % 2 ^ s.cfg.tw ∧ s.line.ticks + s.unit < start ∧
      (∀ x ∈ polls,
        start < x.ticks ∧ x.ticks < start + s.bitWindow ∧ (x.scl = true ∨ x.ticks < start + s.stretch)) ∧
      start < last.ticks ∧
      (start + s.bitWindow ≤ last.ticks ∨ last.scl = false ∧ start + s.stretch ≤ last.ticks) ∧
      last.ticks < start + s.bitWindow + s.cfg.dtMax

/-- R142, R143, R277: a peer that never drives data, or never lets the clock rise, gives OK with the idle-line default 1;
with the clock held low the poll ends less than T_STRETCH + DT_MAX ticks after the tick `start` of T0. -/
def Obligations.RdbitIdleLineDefault : Prop :=
  ∀ s : State, Ready s → s.bbm.phase = .data →
    (PeerIdle s.bitWindow s → ∃ t, exec .rdbit s = .next t ∧ Responded s t .ok 1) ∧
      (PeerStretches s.bitWindow s →
        ∃ t start, exec .rdbit s = .next t ∧ Responded s t .ok 1 ∧ t.bbm.t0 = start % 2 ^ s.cfg.tw ∧
          start < t.line.ticks ∧ t.line.ticks < start + s.stretch + s.cfg.dtMax)

/-- R142 (source S6): a peer that stretches the clock at its first `n` samples, all of them before T_STRETCH, and then lets
the clock rise and holds data low, is read as 0: the poll goes on through the stretch. DT_MAX bounds each advance, so
`n * DT_MAX < T_STRETCH` keeps the stretch inside its window, and `(n + 1) * DT_MAX < T_BIT` the next sample. -/
def Obligations.RdbitToleratesAShortStretch : Prop :=
  ∀ (s : State) (n : Nat), Ready s → s.bbm.phase = .data →
    n * s.cfg.dtMax < s.stretch → (n + 1) * s.cfg.dtMax < s.bitWindow →
    (∀ k, k < n → (s.line.peers.nth freePeer k).scl = false) →
    s.line.peers.nth freePeer n = { scl := true, sda := false } →
      ∃ t, exec .rdbit s = .next t ∧ Responded s t .ok 0

/-! ## Transactions -/

/-- R161, R118, R119: BEGIN completes: start condition, the seven address bits and the direction bit, most significant
first, one bit read; then OK in phase DATA with both lines low, or, when the bit read is 1, the stop condition and NO_ACK
in phase IDLE with both lines released. The response is the last event, after the stop condition. Its frame: TXN_ADDR, TXN_DIR, SR, PHASE, the latches, T0, BITACC, TIME, the
peer's levels and the response registers. -/
def Obligations.BeginOpensATransaction : Prop :=
  ∀ (s : State) (addr : DeviceAddress) (dir : Direction), Ready s → s.bbm.phase = .idle →
    ∃ t, exec (.begin addr dir) s = .next t ∧ BbmFrame s t ∧
      t.bbm.txnAddr = addr ∧ t.bbm.txnDir = dir ∧ t.bbm.sr = frameByte addr dir ∧
      (t.bbm.bitacc = false ∧ Responded s t .ok 0 ∧ t.bbm.phase = .data ∧ t.bbm.sclDrv = false ∧
          t.bbm.sdaDrv = false ∧
          Shows s t (startWrites ++ writtenByte (frameByte addr dir) ++ readBitWrites)
            [.start, .addressing, .rwBit, .ackWait, .data] [] [(.ok, 0)] ∨
        t.bbm.bitacc = true ∧ Responded s t .noAck 0 ∧ t.bbm.phase = .idle ∧ t.bbm.sclDrv = true ∧
          t.bbm.sdaDrv = true ∧
          Shows s t (startWrites ++ writtenByte (frameByte addr dir) ++ readBitWrites ++ stopWrites)
            [.start, .addressing, .rwBit, .ackWait, .stop, .idle] [] [(.noAck, 0)])

/-- R121, R161, R163: BEGIN and WRBYTE answer OK to a peer that holds data low under their acknowledgment pulse (the first
sample inside the bit window), and NO_ACK to an idle bus and to a peer that stretches throughout. -/
def Obligations.AcknowledgmentDecidesTheAnswer : Prop :=
  ∀ (i : Instr) (s : State), Ready s →
    ((∃ addr dir, i = .begin addr dir) ∧ s.bbm.phase = .idle ∨ (∃ b, i = .wrbyte b) ∧ s.bbm.phase = .data) →
    (PeerPullsData s.bitWindow s → s.cfg.dtMax < s.bitWindow →
        ∃ t, exec i s = .next t ∧ Responded s t .ok 0 ∧ t.bbm.phase = .data) ∧
      (PeerIdle s.bitWindow s ∨ PeerStretches s.bitWindow s →
        ∃ t, exec i s = .next t ∧ Responded s t .noAck 0 ∧ t.bbm.phase = .idle)

/-- R163, R120: WRBYTE completes: eight bits, most significant first, one bit read; then OK in phase DATA, or, when the bit
read is 1, the stop condition and then NO_ACK, the last event, in phase IDLE. Its frame: SR, the latches, T0, BITACC, TIME, the peer's levels,
the response registers, and PHASE on NO_ACK. -/
def Obligations.WrbyteWritesOneByte : Prop :=
  ∀ (s : State) (b : Byte), Ready s → s.bbm.phase = .data →
    ∃ t, exec (.wrbyte b) s = .next t ∧ BbmFrame s t ∧
      t.bbm.txnAddr = s.bbm.txnAddr ∧ t.bbm.txnDir = s.bbm.txnDir ∧ t.bbm.sr = b ∧
      (t.bbm.bitacc = false ∧ Responded s t .ok 0 ∧ t.bbm.phase = .data ∧ t.bbm.sclDrv = false ∧
          t.bbm.sdaDrv = false ∧ Shows s t (writtenByte b ++ readBitWrites) [] [] [(.ok, 0)] ∨
        t.bbm.bitacc = true ∧ Responded s t .noAck 0 ∧ t.bbm.phase = .idle ∧ t.bbm.sclDrv = true ∧
          t.bbm.sdaDrv = true ∧
          Shows s t (writtenByte b ++ readBitWrites ++ stopWrites) [.stop, .idle] [] [(.noAck, 0)])

/-- R164, R212: NO_ACK is answered by BEGIN and WRBYTE only and never sets HALT; AddressOutOfRange never reaches the
response port. -/
def Obligations.StatusesNeverGiven : Prop :=
  ∀ (i : Instr) (s t : State) (events : List TraceEvent) (st : Status) (d : Nat),
    exec i s = .next t → Emits s t events → (st, d) ∈ responsesOf events →
      st ≠ .addrOutOfRange ∧
        (st = .noAck → ((∃ addr dir, i = .begin addr dir) ∨ ∃ b, i = .wrbyte b) ∧ t.ctl.halt = s.ctl.halt)

/-- R165: RDBYTE completes with OK and the eight bits read, most significant first, as its data; with `wantAck` one written
0 bit follows, without it nothing. Its frame: SR, the latches, T0, BITACC, TIME, the peer's levels and the response
registers; PHASE stays DATA. -/
def Obligations.RdbyteReadsOneByte : Prop :=
  ∀ (s : State) (wantAck : Bool), Ready s → s.bbm.phase = .data →
    ∃ t, exec (.rdbyte wantAck) s = .next t ∧ Responded s t .ok t.bbm.sr.toNat ∧ BbmFrame s t ∧
      (∀ k, k < 8 → t.bbm.sr.getLsbD (7 - k) = (afterReads (k + 1) s).bbm.bitacc) ∧
      t.bbm.phase = .data ∧ t.bbm.sclDrv = false ∧ t.bbm.sdaDrv = false ∧
      t.bbm.txnAddr = s.bbm.txnAddr ∧ t.bbm.txnDir = s.bbm.txnDir ∧
      Shows s t ((List.replicate 8 readBitWrites).flatten ++ if wantAck then writtenBit false else [])
        [] [] [(.ok, t.bbm.sr.toNat)]

/-- R143, R165: a peer that never drives data gives RDBYTE the byte 0xFF; one that holds it low throughout (the first
sample of each bit inside the bit window) gives 0x00. -/
def Obligations.RdbyteOfAConstantPeer : Prop :=
  ∀ (s : State) (wantAck : Bool), Ready s → s.bbm.phase = .data →
    (PeerIdle (8 * s.bitWindow) s → ∃ t, exec (.rdbyte wantAck) s = .next t ∧ Responded s t .ok 0xFF) ∧
      (PeerPullsData (8 * s.bitWindow) s → s.cfg.dtMax < s.bitWindow →
        ∃ t, exec (.rdbyte wantAck) s = .next t ∧ Responded s t .ok 0x00)

/-- R167, R138: END completes with OK from DATA and from IDLE: the clock released, a unit later the data, a unit later the
end, in phase IDLE with both lines released; nothing but PHASE, the latches, T0, TIME and the response registers changes. -/
def Obligations.EndClosesTheTransaction : Prop :=
  ∀ s : State, Ready s → s.bbm.phase = .data ∨ s.bbm.phase = .idle →
    ∃ t up, exec .end_ s = .next t ∧ Responded s t .ok 0 ∧ BbmFrame s t ∧
      t.bbm = { s.bbm with phase := .idle, sdaDrv := true, sclDrv := true, t0 := t.bbm.t0 } ∧
      t.line = { s.line with ticks := t.line.ticks, advances := t.line.advances } ∧
      t.trace =
        .response .ok 0 :: .phase .idle t.line.ticks :: .line .sda true up :: .line .scl true s.line.ticks ::
          .phase .stop s.line.ticks :: s.trace ∧
      s.line.ticks + s.unit ≤ up ∧ up + s.unit ≤ t.line.ticks

/-- R160: every command moves PHASE along the transition table only, from the phase it found to the phase it leaves. -/
def Obligations.PhaseFollowsTheTable : Prop :=
  ∀ (i : Instr) (s t : State), exec i s = .next t →
    ∃ events, Emits s t events ∧ phasesFollow s.bbm.phase (phasesOf events) = true ∧
      (s.bbm.phase :: phasesOf events).getLast? = some t.bbm.phase

/-- R48 (c): a command that leaves PHASE = DATA leaves the data line low, but for WRBIT 1 and for commands that leave the
BBM registers alone. -/
def Obligations.DataLineLowInDataPhase : Prop :=
  ∀ (i : Instr) (s t : State), exec i s = .next t → t.bbm.phase = .data →
    t.bbm.sdaDrv = false ∨ i = .wrbit true ∨ t.bbm = s.bbm

/-- R285: how long BEGIN, WRBYTE and RDBYTE last: 35 and 33 units and one poll at least, two units more on NO_ACK; 8 units
and eight polls, four units more with the acknowledgment. What a poll lasts stands in `LastsAtLeast`. -/
def Obligations.BeginWrbyteAndRdbyteDurations : Prop :=
  ∀ (s t : State), Ready s →
    (∀ addr dir, s.bbm.phase = .idle → exec (.begin addr dir) s = .next t →
        LastsAtLeast (if t.bbm.bitacc then 37 else 35) 1 s t) ∧
      (∀ b, s.bbm.phase = .data → exec (.wrbyte b) s = .next t →
        LastsAtLeast (if t.bbm.bitacc then 35 else 33) 1 s t) ∧
      ∀ wantAck, s.bbm.phase = .data → exec (.rdbyte wantAck) s = .next t →
        LastsAtLeast (if wantAck then 12 else 8) 8 s t

/-- R5, R78, R236: the two units share only the ports, the response and HALT: a BBM command leaves the log registers and
the store alone and never sets HALT; an ALS command leaves every BBM register and the lines alone, and TIME too, which is the
model's choice (log entry 29). -/
def Obligations.UnitsLeaveEachOtherAlone : Prop :=
  ∀ (i : Instr) (s t : State), exec i s = .next t →
    (isBbm i = true → BbmFrame s t) ∧ (isBbm i = false → AlsFrame s t)

/-! ## The store and the log -/

/-- R62: a store that keeps its contract answers AddressOutOfRange exactly when `off + n > CAPACITY`, never BusError then;
for slots, with the sizes fitting, exactly when the offset reaches CAPACITY, that is, when the index reaches N_SLOTS; and
never at offset 0. -/
def Obligations.OutOfRangeExactlyPastCapacity : Prop :=
  ∀ (s : State) (off n : Nat) (bytes : List Byte), storeDraw s ≠ .outOfRange →
    ((memRead off n s).1 = .outOfRange ↔ s.cfg.capacity < off + n) ∧
    ((memWrite off bytes s).1 = .outOfRange ↔ s.cfg.capacity < off + bytes.length) ∧
    (∀ i, (readSlot i s).1 = .outOfRange ↔ s.cfg.nSlots ≤ i) ∧
    (s.cfg.ok s.bbm.speed = true → s.cfg.sizesFit = true →
      ∀ i, s.cfg.nSlots ≤ i ↔ s.cfg.capacity ≤ s.cfg.slotOffset i) ∧
    (s.cfg.ok s.bbm.speed = true → (readSlot 0 s).1 ≠ .outOfRange)

/-- R63, D29: a write answered Ok puts its bytes into NV; past the capacity it leaves NV as before, and so it
does when it is not answered (U7), which is the model's choice (log entry 30); failed in range it leaves there the bytes the
environment draws, whichever they are, for AddressOutOfRange the model's choice but for the retry of LOGAPPEND (R210, log
entry 28), and for a write that crosses a page (U6) too (log entry 12); bytes outside the range never change. A read changes
nothing in NV (R61). -/
def Obligations.StoreRequestsTouchTheirRangeOnly : Prop :=
  ∀ (s : State) (off n : Nat) (bytes : List Byte), Memory.wf s.store.nv = true →
    (memRead off n s).2.store.nv = s.store.nv ∧
    (∀ bs, (memRead off n s).1 = .ok bs → bs = Memory.readBytes s.store.nv off n) ∧
    ((memWrite off bytes s).1 = .ok [] →
      Memory.readBytes (memWrite off bytes s).2.store.nv off bytes.length = bytes) ∧
    (s.cfg.capacity < off + bytes.length ∨ (memWrite off bytes s).1 = .silent →
      (memWrite off bytes s).2.store.nv = s.store.nv) ∧
    (off + bytes.length ≤ s.cfg.capacity →
      (memWrite off bytes s).1 = .busError ∨ (memWrite off bytes s).1 = .outOfRange →
        Memory.readBytes (memWrite off bytes s).2.store.nv off bytes.length =
          s.store.debris.take Config.freeByte bytes.length) ∧
    (∀ a, (a < off ∨ off + bytes.length ≤ a) →
      Memory.read (memWrite off bytes s).2.store.nv a = Memory.read s.store.nv a) ∧
    Memory.wf (memWrite off bytes s).2.store.nv = true

/-- R66, R67: a record is RECORD_SIZE bytes, the counter first, both fields little-endian, and decoding gives both
fields back. -/
def Obligations.RecordsAreLittleEndian : Prop :=
  ∀ (c : Config) (seq : SeqWord) (payload : Nat), payload < 2 ^ c.payloadWidth →
    (c.encodeRecord seq payload).length = c.recordSize ∧
    (∀ k, k < 4 → (c.encodeRecord seq payload)[k]? = some (seq.extractLsb' (8 * k) 8)) ∧
    (∀ k, k < c.payloadBytes →
      (c.encodeRecord seq payload)[4 + k]? = some (BitVec.ofNat 8 (payload / 2 ^ (8 * k)))) ∧
    decodeSeq (c.encodeRecord seq payload) = seq ∧ decodePayload (c.encodeRecord seq payload) = payload

/-- R206, R207 (b): LOGINIT on a device whose slot 0 reads the sentinel: one request, then OK with WRITE_OFFSET = 0,
WRITE_SEQUENCE = 0 and LOG_VALID = 1; NV and the BBM registers unchanged, and TIME, which is the model's choice (log entry
29). -/
def Obligations.LoginitOfAVirginDevice : Prop :=
  ∀ s : State, Ready s → s.cfg.sizesFit = true → slotSeq s.cfg s.store.nv 0 = sentinel → storeDraw s = .ok →
    ∃ t, exec .loginit s = .next t ∧ Responded s t .ok 0 ∧
      t.als = { writeOffset := 0, writeSequence := 0, logValid := true } ∧ AlsFrame s t ∧
      t.store.nv = s.store.nv ∧ Shows s t [] [] [slotRead s.cfg 0] [(.ok, 0)]

/-- R206, R207 (a), (c): LOGINIT on a written device completes at the first break `b`: it reads slots 0 to `b` and no
other, and leaves WRITE_OFFSET at `b`, or 0 when the break is the end of the device, and WRITE_SEQUENCE after the last
counter of the run. NV and the BBM registers are unchanged, and TIME, which is the model's choice (log entry 29). -/
def Obligations.LoginitFindsTheFirstBreak : Prop :=
  ∀ (s : State) (b : Nat), Ready s → s.cfg.sizesFit = true → 1 ≤ b → b ≤ s.cfg.nSlots →
    slotSeq s.cfg s.store.nv 0 ≠ sentinel →
    (∀ j, j + 1 < b → slotSeq s.cfg s.store.nv (j + 1) = incSeq (slotSeq s.cfg s.store.nv j)) →
    (b < s.cfg.nSlots → slotSeq s.cfg s.store.nv b ≠ incSeq (slotSeq s.cfg s.store.nv (b - 1))) →
    StoreWorks (b + 1) s →
      ∃ t, exec .loginit s = .next t ∧ Responded s t .ok 0 ∧
        t.als =
          { writeOffset := if b < s.cfg.nSlots then BitVec.ofNat 32 b else 0
            writeSequence := incSeq (slotSeq s.cfg s.store.nv (b - 1))
            logValid := true } ∧
        AlsFrame s t ∧ t.store.nv = s.store.nv ∧
        Shows s t [] [] ((List.range (b + 1)).map (slotRead s.cfg)) [(.ok, 0)]

/-- R206, R207 (a), R285: whatever the store answers, LOGINIT reads slots 0, 1, 2, … in order, at most N_SLOTS + 1 of
them, and ends in one of three ways: OK with LOG_VALID = 1; a fatal error taken, HALT = 1, FAULT and the response its code,
with LOG_VALID = 0 and WRITE_OFFSET, WRITE_SEQUENCE unchanged; or not at all, an unanswered request outstanding. NV and the
BBM registers are unchanged, and TIME, which is the model's choice (log entry 29). -/
def Obligations.LoginitIsBounded : Prop :=
  ∀ s t : State, Ready s → exec .loginit s = .next t →
    AlsFrame s t ∧ t.store.nv = s.store.nv ∧
      ∃ n answer, n ≤ s.cfg.nSlots + 1 ∧
        Shows s t [] [] ((List.range n).map (slotRead s.cfg)) answer ∧
        (answer = [(.ok, 0)] ∧ Responded s t .ok 0 ∧ t.als.logValid = true ∨
          (∃ e, Trapped t e ∧ answer = [(e.status, 0)]) ∧ t.als = { s.als with logValid := false } ∨
          answer = [] ∧ t.ctl.cmdReady = false ∧ t.store.pending ≠ none ∧ t.als = { s.als with logValid := false })

/-- R205, R235: when RECORD_SIZE does not divide PAGE_SIZE, LOGINIT raises InvariantViolation before any store request:
HALT = 1, FAULT = 4, LOG_VALID = 0, the other log registers unchanged. The BBM registers and the store are unchanged, and
TIME, which is the model's choice (log entry 29). -/
def Obligations.LoginitChecksTheSizes : Prop :=
  ∀ s : State, Ready s → s.cfg.pageSize % s.cfg.recordSize ≠ 0 →
    ∃ t, exec .loginit s = .next t ∧ t.ctl.halt = true ∧ t.ctl.faultCode = 4 ∧
      t.ctl.rspStatus = .invariantViolation ∧ t.ctl.rspData = 0 ∧ t.als = { s.als with logValid := false } ∧
      AlsFrame s t ∧ t.store = s.store ∧ Shows s t [] [] [] [(.invariantViolation, 0)]

/-- R208, R209: LOGLAST with WRITE_OFFSET = 0 makes no request and returns ZERO; otherwise it reads slot WRITE_OFFSET - 1
and returns its payload, or ZERO when its counter is the sentinel. The log registers, NV and the BBM registers are unchanged,
and TIME, which is the model's choice (log entry 29). -/
def Obligations.LoglastReturnsTheNewest : Prop :=
  ∀ s : State, Ready s → s.als.logValid = true → s.als.writeOffset.toNat ≤ s.cfg.nSlots →
    (s.als.writeOffset = 0 →
      ∃ t, exec .loglast s = .next t ∧ Responded s t .ok 0 ∧ t.als = s.als ∧ AlsFrame s t ∧ t.store = s.store ∧
        Shows s t [] [] [] [(.ok, 0)]) ∧
    (s.als.writeOffset ≠ 0 → storeDraw s = .ok →
      ∃ t data, exec .loglast s = .next t ∧ Responded s t .ok data ∧ t.als = s.als ∧ AlsFrame s t ∧
        t.store.nv = s.store.nv ∧
        Shows s t [] [] [slotRead s.cfg (s.als.writeOffset.toNat - 1)] [(.ok, data)] ∧
        data =
          if slotSeq s.cfg s.store.nv (s.als.writeOffset.toNat - 1) = sentinel then 0
          else slotPayload s.cfg s.store.nv (s.als.writeOffset.toNat - 1))

/-- R210, R211, D24: LOGAPPEND with a working store completes with OK: the record with counter WRITE_SEQUENCE and payload DIN
goes to the slot it names, which is slot 0 after one out-of-range answer when WRITE_OFFSET names no slot; the index is the
response, both log registers advance, and every byte outside that slot and every BBM register are unchanged, and TIME, which is
the model's choice (log entry 29). A store that breaks its contract and answers the first write AddressOutOfRange in range makes
it go to slot 0 too; the slot of that first write may then hold any bytes, the model's choice (log entry 28). -/
def Obligations.LogappendWritesOneRecord : Prop :=
  ∀ (s : State) (din : Nat), Ready s → s.als.logValid = true → s.cfg.sizesFit = true →
    Memory.wf s.store.nv = true →
    (storeDraw s = .outOfRange → s.als.writeOffset.toNat < s.cfg.nSlots →
      s.store.answers.nth freeStoreDraw 1 = .ok →
        ∃ t, exec (.logappend din) s = .next t ∧ Responded s t .ok 0 ∧
          t.als = { writeOffset := 1, writeSequence := incSeq s.als.writeSequence, logValid := true } ∧
          AlsFrame s t ∧
          slotBytes s.cfg t.store.nv 0 = s.cfg.encodeRecord s.als.writeSequence din ∧
          (∀ a, s.cfg.recordSize ≤ a →
            (a < s.cfg.slotOffset (appendSlot s) ∨ s.cfg.slotOffset (appendSlot s) + s.cfg.recordSize ≤ a) →
              Memory.read t.store.nv a = Memory.read s.store.nv a) ∧
          Shows s t [] []
            [slotWrite s.cfg s.als.writeOffset.toNat (s.cfg.encodeRecord s.als.writeSequence din),
              slotWrite s.cfg 0 (s.cfg.encodeRecord s.als.writeSequence din)]
            [(.ok, 0)]) ∧
    (storeDraw s = .ok →
      ∃ t, exec (.logappend din) s = .next t ∧ Responded s t .ok (appendSlot s) ∧
        t.als =
          { writeOffset := BitVec.ofNat 32 (appendSlot s + 1)
            writeSequence := incSeq s.als.writeSequence
            logValid := true } ∧
        AlsFrame s t ∧
        slotBytes s.cfg t.store.nv (appendSlot s) = s.cfg.encodeRecord s.als.writeSequence din ∧
        (∀ a, (a < s.cfg.slotOffset (appendSlot s) ∨ s.cfg.slotOffset (appendSlot s) + s.cfg.recordSize ≤ a) →
          Memory.read t.store.nv a = Memory.read s.store.nv a) ∧
        Shows s t [] []
          ((if s.als.writeOffset.toNat < s.cfg.nSlots then [] else
              [slotWrite s.cfg s.als.writeOffset.toNat (s.cfg.encodeRecord s.als.writeSequence din)]) ++
            [slotWrite s.cfg (appendSlot s) (s.cfg.encodeRecord s.als.writeSequence din)])
          [(.ok, appendSlot s)])

/-- R210, R234: a bus fault on the write of LOGAPPEND is fatal: BUS_ERROR, HALT = 1, FAULT = 3, WRITE_SEQUENCE unchanged,
WRITE_OFFSET unchanged or, after the wrap, 0; the bytes of the addressed slot may hold any value, all others are
unchanged. The same on the retry at slot 0 (D24): fatal with WRITE_OFFSET = 0 when it is answered AddressOutOfRange, and when,
after an AddressOutOfRange in range, it meets a bus fault; slot 0 may hold any value, and the slot of a first write so answered
too, the model's choice (log entry 28). The BBM registers are unchanged, and TIME, which is the model's choice (log entry
29). -/
def Obligations.LogappendBusFaultIsFatal : Prop :=
  ∀ (s : State) (din : Nat), Ready s → s.als.logValid = true →
    (storeDraw s = .busError ∨ storeDraw s = .reserved →
      ∃ t, exec (.logappend din) s = .next t ∧ Trapped t .busError ∧ t.ctl.faultCode = 3 ∧
        t.als =
          { s.als with
            writeOffset := if s.als.writeOffset.toNat < s.cfg.nSlots then s.als.writeOffset else 0 } ∧
        AlsFrame s t ∧
        ∀ a, (a < s.cfg.slotOffset (appendSlot s) ∨ s.cfg.slotOffset (appendSlot s) + s.cfg.recordSize ≤ a) →
          Memory.read t.store.nv a = Memory.read s.store.nv a) ∧
    (storeDraw s = .outOfRange → s.cfg.sizesFit = true →
      (s.als.writeOffset.toNat < s.cfg.nSlots →
        s.store.answers.nth freeStoreDraw 1 ∈ [.busError, .reserved, .outOfRange]) →
        ∃ t, exec (.logappend din) s = .next t ∧ Trapped t .busError ∧ t.ctl.faultCode = 3 ∧
          t.als = { s.als with writeOffset := 0 } ∧ AlsFrame s t ∧
          ∀ a, s.cfg.recordSize ≤ a →
            (a < s.cfg.slotOffset (appendSlot s) ∨ s.cfg.slotOffset (appendSlot s) + s.cfg.recordSize ≤ a) →
              Memory.read t.store.nv a = Memory.read s.store.nv a)

/-- R206, R208, R234, D24: a bus fault on any read of LOGINIT, that of slot `k` after `k` slots in a run, and on the read of
LOGLAST is fatal, and so is an AddressOutOfRange that breaks the store's contract on the first read of LOGINIT and on the read
of LOGLAST: BUS_ERROR, HALT = 1, FAULT = 3; WRITE_OFFSET, WRITE_SEQUENCE, NV and the BBM registers are unchanged, and TIME,
which is the model's choice (log entry 29). -/
def Obligations.ReadFailureIsFatal : Prop :=
  ∀ s : State, Ready s →
    (∀ k, s.cfg.sizesFit = true → k < s.cfg.nSlots → StoreWorks k s →
      s.store.answers.nth freeStoreDraw k = .busError ∨ s.store.answers.nth freeStoreDraw k = .reserved ∨
        k = 0 ∧ s.store.answers.nth freeStoreDraw k = .outOfRange →
      (1 ≤ k → slotSeq s.cfg s.store.nv 0 ≠ sentinel) →
      (∀ j, j + 1 < k → slotSeq s.cfg s.store.nv (j + 1) = incSeq (slotSeq s.cfg s.store.nv j)) →
        ∃ t, exec .loginit s = .next t ∧ Trapped t .busError ∧ t.ctl.faultCode = 3 ∧
          t.als = { s.als with logValid := false } ∧ AlsFrame s t ∧ t.store.nv = s.store.nv ∧
          Shows s t [] [] ((List.range (k + 1)).map (slotRead s.cfg)) [(.busError, 0)]) ∧
    (storeDraw s = .busError ∨ storeDraw s = .reserved ∨ storeDraw s = .outOfRange →
      s.als.logValid = true → s.als.writeOffset ≠ 0 →
        ∃ t, exec .loglast s = .next t ∧ Trapped t .busError ∧ t.ctl.faultCode = 3 ∧
          t.als = s.als ∧ AlsFrame s t ∧ t.store.nv = s.store.nv)

/-- R241, U7: a store that never answers leaves the command unfinished: no response, `cmd_ready` 0, the request
outstanding. A word the host drives then has no effect (U19); that the step takes the host's entry away is the model's
deduction (log entry 10), and that NV is unchanged meanwhile is the model's choice (log entry 30). -/
def Obligations.SilentStoreLeavesTheBlockStuck : Prop :=
  ∀ (s : State) (i : Instr), Ready s → storeDraw s = .silent → isBbm i = false → allowedNow s i →
    s.cfg.sizesFit = true → (i = .loglast → s.als.writeOffset ≠ 0 ∧ s.als.writeOffset.toNat ≤ s.cfg.nSlots) →
      ∃ t, exec i s = .next t ∧ t.ctl = { s.ctl with cmdReady := false } ∧ t.store.pending ≠ none ∧
        t.store.nv = s.store.nv ∧
        ∀ cw din rest, step { t with host := .command cw din :: rest } =
          .next (openPort rest { t with host := .command cw din :: rest })

/-- R41, U7: every accepted command gives exactly one response, which is what the response registers then hold, unless it
waits for a store that never answers. -/
def Obligations.OneResponsePerCommand : Prop :=
  ∀ (i : Instr) (s t : State), exec i s = .next t →
    ∃ events, Emits s t events ∧
      (responsesOf events = [(t.ctl.rspStatus, t.ctl.rspData)] ∧ t.ctl.lastStatus = t.ctl.rspStatus ∧
          t.ctl.cmdReady = true ∨
        responsesOf events = [] ∧ t.ctl.cmdReady = false ∧ t.store.pending ≠ none ∧ isBbm i = false)

/-- R209 (e) (source S1): LOGLAST after a LOGAPPEND returns the appended payload, when its counter is not the sentinel. -/
def Obligations.LoglastReturnsTheAppended : Prop :=
  ∀ (s : State) (din : Nat), Ready s → s.als.logValid = true → s.cfg.sizesFit = true →
    Memory.wf s.store.nv = true → StoreWorks 2 s → din < 2 ^ s.cfg.payloadWidth →
    s.als.writeSequence ≠ sentinel →
      ∃ t u, exec (.logappend din) s = .next t ∧ exec .loglast t = .next u ∧ Responded s u .ok din

/-- R211, R213: where the log stands after appending `values` to an erased device, one more LOGAPPEND takes it to where it
stands after `values` and that value; the index it answers is the count modulo N_SLOTS. -/
def Obligations.LogappendExtendsTheHistory : Prop :=
  ∀ (s : State) (din : Nat) (values : List Nat), Ready s → s.cfg.sizesFit = true → Memory.wf s.store.nv = true →
    LogAt s values → storeDraw s = .ok →
      ∃ t, exec (.logappend din) s = .next t ∧ Responded s t .ok (values.length % s.cfg.nSlots) ∧
        LogAt t (values ++ [din])

/-- R207 (g), R213 (source S2, S8): LOGINIT on the store that any number of appends below 2^SEQ_W - 1 left rebuilds the log
registers: WRITE_OFFSET is the count modulo N_SLOTS and WRITE_SEQUENCE the count. -/
def Obligations.LoginitRecoversTheHistory : Prop :=
  ∀ (s : State) (values : List Nat), Ready s → s.cfg.sizesFit = true →
    HoldsHistory s.cfg s.store.nv values → values.length < 2 ^ 32 - 1 → StoreWorks (s.cfg.nSlots + 1) s →
      ∃ t, exec .loginit s = .next t ∧ Responded s t .ok 0 ∧ LogAt t values ∧
        t.als.writeOffset.toNat = values.length % s.cfg.nSlots ∧ t.als.writeSequence.toNat = values.length

/-! ## The whole machine -/

/-- R48 and the widths: every step keeps the invariant. That no request is outstanding after a reset is the model's choice
(log entry 26). -/
def Obligations.EveryStepKeepsTheInvariant : Prop :=
  ∀ s t : State, Inv s → step s = .next t → Inv t

/-- R48: the invariant holds of the reset state. The clauses about the registers the spec leaves open at reset rest on the
model's choice (log entries 2, 5 and 7), and that no request is outstanding there too (log entry 26). -/
def Obligations.ResetMeetsTheInvariant : Prop := Inv State.reset

/-- R22, D30: the time at which a command begins has no effect: the same command begun `d` ticks later makes the same run,
`d` ticks later. -/
def Obligations.StartTimeHasNoEffect : Prop :=
  ∀ (i : Instr) (s t : State) (d : Nat), exec i s = .next t → exec i (s.later d) = .next (t.later d)

/-- R21, R22, R47: what SR, BITACC and T0 hold before a command has no effect on anything but themselves. -/
def Obligations.StaleWorkingRegistersHaveNoEffect : Prop :=
  ∀ (i : Instr) (s t : State) (sr : Byte) (bit : Bool) (t0 : Nat), exec i s = .next t →
    ∃ t', exec i { s with bbm := { s.bbm with sr := sr, bitacc := bit, t0 := t0 } } = .next t' ∧
      t' = { t with bbm := { t.bbm with sr := t'.bbm.sr, bitacc := t'.bbm.bitacc, t0 := t'.bbm.t0 } }

/-- R26, R116, R283: TXN_ADDR and TXN_DIR are not consulted: with other values in them every command does the same, and
BEGIN alone writes them. -/
def Obligations.DirectionIsNotChecked : Prop :=
  ∀ (i : Instr) (s t : State) (addr : DeviceAddress) (dir : Direction), exec i s = .next t →
    ∃ t', exec i { s with bbm := { s.bbm with txnAddr := addr, txnDir := dir } } = .next t' ∧
      t' = { t with bbm := { t.bbm with txnAddr := t'.bbm.txnAddr, txnDir := t'.bbm.txnDir } } ∧
      ((∀ a d, i ≠ .begin a d) → t.bbm.txnAddr = s.bbm.txnAddr ∧ t.bbm.txnDir = s.bbm.txnDir)

/-! ## The accessor -/

/-- R192, R271: XWRITE from an idle block ends idle, both lines released, reporting OK or NO_ACK, the log and the store
untouched and HALT clear; its last step is the closing END, after a NO_ACK too: the stop sequence alone, answered OK. -/
def Obligations.XwriteEndsIdle : Prop :=
  ∀ (s : State) (addr : DeviceAddress) (bytes : List Byte), Ready s → s.ctl.cmdReady = true → s.bbm.phase = .idle →
    ∃ r, pseudoXwrite addr bytes s = .next r ∧ (r.status = .ok ∨ r.status = .noAck) ∧
      r.state.bbm.phase = .idle ∧ r.state.bbm.sclDrv = true ∧ r.state.bbm.sdaDrv = true ∧ r.state.als = s.als ∧
      r.state.store = s.store ∧ r.state.ctl.halt = false ∧ r.state.ctl.cmdReady = true ∧ r.state.host = s.host ∧
      lineWrites r.state.trace.reverse = stopWrites ∧ phasesOf r.state.trace.reverse = [.stop, .idle] ∧
      responsesOf r.state.trace.reverse = [(.ok, 0)]

/-- R191, R193: XWRRD from an idle block ends idle, reporting OK or NO_ACK. OK comes after a write phase that is OK and a BEGIN
for reading that is OK; then `n` RDBYTEs follow, all but the last acknowledged, whose response data are the `n` bytes of the
buffer, in order, and END last. That the reported buffer is empty on NO_ACK is the model's choice (log entry 21): R193 says
that `buf` is then not written. -/
def Obligations.XwrrdFillsItsBuffer : Prop :=
  ∀ (s : State) (addr : DeviceAddress) (bytes : List Byte) (n : Nat), Ready s → s.ctl.cmdReady = true →
    s.bbm.phase = .idle →
      ∃ r, pseudoXwrrd addr bytes n s = .next r ∧ r.state.bbm.phase = .idle ∧
        r.state.bbm.sclDrv = true ∧ r.state.bbm.sdaDrv = true ∧ r.state.als = s.als ∧ r.state.store = s.store ∧
        (r.status = .ok ∧ r.buf.length = n ∧
            (∃ w, ∃ u : Nat → State, pseudoXwrite addr bytes s = .next w ∧ w.status = .ok ∧
              issue (.begin addr .read) w.state = .next (u 0) ∧ (u 0).ctl.rspStatus = .ok ∧
              (∀ k, k < n →
                issue (.rdbyte (decide (k + 1 < n))) (u k) = .next (u (k + 1)) ∧ (u (k + 1)).ctl.rspStatus = .ok ∧
                  r.buf[k]? = some (BitVec.ofNat 8 (u (k + 1)).ctl.rspData)) ∧
              issue .end_ (u n) = .next r.state) ∨
          r.status = .noAck ∧ r.buf = [])
end

