-- ==== Sys2Proof/Laws/State.lean ====
section
/-! SUPPORT. The small lemmas of every update of the state: one per field of the record an update writes into, and one
for each record it leaves alone. All hold by rfl; with them no proof unfolds a record update. -/

namespace Sys2Proof.Machine

section
variable (s : State)


@[simp] theorem now_cfg : (now s).cfg = s.cfg := rfl
@[simp] theorem now_bbm : (now s).bbm = s.bbm := rfl
@[simp] theorem now_als : (now s).als = s.als := rfl
@[simp] theorem now_ctl : (now s).ctl = s.ctl := rfl
@[simp] theorem now_line_ticks : (now s).line.ticks = s.line.ticks + advanceAmount s := rfl
@[simp] theorem now_line_pScl : (now s).line.pScl = s.line.pScl := rfl
@[simp] theorem now_line_pSda : (now s).line.pSda = s.line.pSda := rfl
@[simp] theorem now_line_advances : (now s).line.advances = s.line.advances.tail := rfl
@[simp] theorem now_line_peers : (now s).line.peers = s.line.peers := rfl
@[simp] theorem now_line_gaps : (now s).line.gaps = s.line.gaps := rfl
@[simp] theorem now_store : (now s).store = s.store := rfl
@[simp] theorem now_host : (now s).host = s.host := rfl
@[simp] theorem now_trace : (now s).trace = s.trace := rfl

@[simp] theorem idleGap_cfg : (idleGap s).cfg = s.cfg := rfl
@[simp] theorem idleGap_bbm : (idleGap s).bbm = s.bbm := rfl
@[simp] theorem idleGap_als : (idleGap s).als = s.als := rfl
@[simp] theorem idleGap_ctl : (idleGap s).ctl = s.ctl := rfl
@[simp] theorem idleGap_line_ticks : (idleGap s).line.ticks = s.line.ticks + s.line.gaps.head Config.freeGap := rfl
@[simp] theorem idleGap_line_pScl : (idleGap s).line.pScl = s.line.pScl := rfl
@[simp] theorem idleGap_line_pSda : (idleGap s).line.pSda = s.line.pSda := rfl
@[simp] theorem idleGap_line_advances : (idleGap s).line.advances = s.line.advances := rfl
@[simp] theorem idleGap_line_peers : (idleGap s).line.peers = s.line.peers := rfl
@[simp] theorem idleGap_line_gaps : (idleGap s).line.gaps = s.line.gaps.tail := rfl
@[simp] theorem idleGap_store : (idleGap s).store = s.store := rfl
@[simp] theorem idleGap_host : (idleGap s).host = s.host := rfl
@[simp] theorem idleGap_trace : (idleGap s).trace = s.trace := rfl

@[simp] theorem stamp_cfg : (stamp s).cfg = s.cfg := rfl
@[simp] theorem stamp_bbm_sr : (stamp s).bbm.sr = s.bbm.sr := rfl
@[simp] theorem stamp_bbm_bitacc : (stamp s).bbm.bitacc = s.bbm.bitacc := rfl
@[simp] theorem stamp_bbm_t0 : (stamp s).bbm.t0 = s.time := rfl
@[simp] theorem stamp_bbm_sclDrv : (stamp s).bbm.sclDrv = s.bbm.sclDrv := rfl
@[simp] theorem stamp_bbm_sdaDrv : (stamp s).bbm.sdaDrv = s.bbm.sdaDrv := rfl
@[simp] theorem stamp_bbm_phase : (stamp s).bbm.phase = s.bbm.phase := rfl
@[simp] theorem stamp_bbm_txnAddr : (stamp s).bbm.txnAddr = s.bbm.txnAddr := rfl
@[simp] theorem stamp_bbm_txnDir : (stamp s).bbm.txnDir = s.bbm.txnDir := rfl
@[simp] theorem stamp_bbm_speed : (stamp s).bbm.speed = s.bbm.speed := rfl
@[simp] theorem stamp_als : (stamp s).als = s.als := rfl
@[simp] theorem stamp_ctl : (stamp s).ctl = s.ctl := rfl
@[simp] theorem stamp_line : (stamp s).line = s.line := rfl
@[simp] theorem stamp_store : (stamp s).store = s.store := rfl
@[simp] theorem stamp_host : (stamp s).host = s.host := rfl
@[simp] theorem stamp_trace : (stamp s).trace = s.trace := rfl

@[simp] theorem driveScl_cfg (v : Bool) : (driveScl v s).cfg = s.cfg := rfl
@[simp] theorem driveScl_bbm_sr (v : Bool) : (driveScl v s).bbm.sr = s.bbm.sr := rfl
@[simp] theorem driveScl_bbm_bitacc (v : Bool) : (driveScl v s).bbm.bitacc = s.bbm.bitacc := rfl
@[simp] theorem driveScl_bbm_t0 (v : Bool) : (driveScl v s).bbm.t0 = s.bbm.t0 := rfl
@[simp] theorem driveScl_bbm_sclDrv (v : Bool) : (driveScl v s).bbm.sclDrv = v := rfl
@[simp] theorem driveScl_bbm_sdaDrv (v : Bool) : (driveScl v s).bbm.sdaDrv = s.bbm.sdaDrv := rfl
@[simp] theorem driveScl_bbm_phase (v : Bool) : (driveScl v s).bbm.phase = s.bbm.phase := rfl
@[simp] theorem driveScl_bbm_txnAddr (v : Bool) : (driveScl v s).bbm.txnAddr = s.bbm.txnAddr := rfl
@[simp] theorem driveScl_bbm_txnDir (v : Bool) : (driveScl v s).bbm.txnDir = s.bbm.txnDir := rfl
@[simp] theorem driveScl_bbm_speed (v : Bool) : (driveScl v s).bbm.speed = s.bbm.speed := rfl
@[simp] theorem driveScl_als (v : Bool) : (driveScl v s).als = s.als := rfl
@[simp] theorem driveScl_ctl (v : Bool) : (driveScl v s).ctl = s.ctl := rfl
@[simp] theorem driveScl_line (v : Bool) : (driveScl v s).line = s.line := rfl
@[simp] theorem driveScl_store (v : Bool) : (driveScl v s).store = s.store := rfl
@[simp] theorem driveScl_host (v : Bool) : (driveScl v s).host = s.host := rfl
@[simp] theorem driveScl_trace (v : Bool) : (driveScl v s).trace = .line .scl v s.line.ticks :: s.trace := rfl

@[simp] theorem driveSda_cfg (v : Bool) : (driveSda v s).cfg = s.cfg := rfl
@[simp] theorem driveSda_bbm_sr (v : Bool) : (driveSda v s).bbm.sr = s.bbm.sr := rfl
@[simp] theorem driveSda_bbm_bitacc (v : Bool) : (driveSda v s).bbm.bitacc = s.bbm.bitacc := rfl
@[simp] theorem driveSda_bbm_t0 (v : Bool) : (driveSda v s).bbm.t0 = s.bbm.t0 := rfl
@[simp] theorem driveSda_bbm_sclDrv (v : Bool) : (driveSda v s).bbm.sclDrv = s.bbm.sclDrv := rfl
@[simp] theorem driveSda_bbm_sdaDrv (v : Bool) : (driveSda v s).bbm.sdaDrv = v := rfl
@[simp] theorem driveSda_bbm_phase (v : Bool) : (driveSda v s).bbm.phase = s.bbm.phase := rfl
@[simp] theorem driveSda_bbm_txnAddr (v : Bool) : (driveSda v s).bbm.txnAddr = s.bbm.txnAddr := rfl
@[simp] theorem driveSda_bbm_txnDir (v : Bool) : (driveSda v s).bbm.txnDir = s.bbm.txnDir := rfl
@[simp] theorem driveSda_bbm_speed (v : Bool) : (driveSda v s).bbm.speed = s.bbm.speed := rfl
@[simp] theorem driveSda_als (v : Bool) : (driveSda v s).als = s.als := rfl
@[simp] theorem driveSda_ctl (v : Bool) : (driveSda v s).ctl = s.ctl := rfl
@[simp] theorem driveSda_line (v : Bool) : (driveSda v s).line = s.line := rfl
@[simp] theorem driveSda_store (v : Bool) : (driveSda v s).store = s.store := rfl
@[simp] theorem driveSda_host (v : Bool) : (driveSda v s).host = s.host := rfl
@[simp] theorem driveSda_trace (v : Bool) : (driveSda v s).trace = .line .sda v s.line.ticks :: s.trace := rfl

@[simp] theorem drawPeer_cfg : (drawPeer s).cfg = s.cfg := rfl
@[simp] theorem drawPeer_bbm : (drawPeer s).bbm = s.bbm := rfl
@[simp] theorem drawPeer_als : (drawPeer s).als = s.als := rfl
@[simp] theorem drawPeer_ctl : (drawPeer s).ctl = s.ctl := rfl
@[simp] theorem drawPeer_line_ticks : (drawPeer s).line.ticks = s.line.ticks := rfl
@[simp] theorem drawPeer_line_pScl : (drawPeer s).line.pScl = (s.line.peers.head freePeer).scl := rfl
@[simp] theorem drawPeer_line_pSda : (drawPeer s).line.pSda = (s.line.peers.head freePeer).sda := rfl
@[simp] theorem drawPeer_line_advances : (drawPeer s).line.advances = s.line.advances := rfl
@[simp] theorem drawPeer_line_peers : (drawPeer s).line.peers = s.line.peers.tail := rfl
@[simp] theorem drawPeer_line_gaps : (drawPeer s).line.gaps = s.line.gaps := rfl
@[simp] theorem drawPeer_store : (drawPeer s).store = s.store := rfl
@[simp] theorem drawPeer_host : (drawPeer s).host = s.host := rfl
@[simp] theorem drawPeer_trace : (drawPeer s).trace = s.trace := rfl

@[simp] theorem recordSample_cfg : (recordSample s).cfg = s.cfg := rfl
@[simp] theorem recordSample_bbm : (recordSample s).bbm = s.bbm := rfl
@[simp] theorem recordSample_als : (recordSample s).als = s.als := rfl
@[simp] theorem recordSample_ctl : (recordSample s).ctl = s.ctl := rfl
@[simp] theorem recordSample_line : (recordSample s).line = s.line := rfl
@[simp] theorem recordSample_store : (recordSample s).store = s.store := rfl
@[simp] theorem recordSample_host : (recordSample s).host = s.host := rfl
@[simp] theorem recordSample_trace : (recordSample s).trace = .sample s.line.ticks (sclLevel s) (sdaLevel s) :: s.trace := rfl

@[simp] theorem setBitacc_cfg (v : Bool) : (setBitacc v s).cfg = s.cfg := rfl
@[simp] theorem setBitacc_bbm_sr (v : Bool) : (setBitacc v s).bbm.sr = s.bbm.sr := rfl
@[simp] theorem setBitacc_bbm_bitacc (v : Bool) : (setBitacc v s).bbm.bitacc = v := rfl
@[simp] theorem setBitacc_bbm_t0 (v : Bool) : (setBitacc v s).bbm.t0 = s.bbm.t0 := rfl
@[simp] theorem setBitacc_bbm_sclDrv (v : Bool) : (setBitacc v s).bbm.sclDrv = s.bbm.sclDrv := rfl
@[simp] theorem setBitacc_bbm_sdaDrv (v : Bool) : (setBitacc v s).bbm.sdaDrv = s.bbm.sdaDrv := rfl
@[simp] theorem setBitacc_bbm_phase (v : Bool) : (setBitacc v s).bbm.phase = s.bbm.phase := rfl
@[simp] theorem setBitacc_bbm_txnAddr (v : Bool) : (setBitacc v s).bbm.txnAddr = s.bbm.txnAddr := rfl
@[simp] theorem setBitacc_bbm_txnDir (v : Bool) : (setBitacc v s).bbm.txnDir = s.bbm.txnDir := rfl
@[simp] theorem setBitacc_bbm_speed (v : Bool) : (setBitacc v s).bbm.speed = s.bbm.speed := rfl
@[simp] theorem setBitacc_als (v : Bool) : (setBitacc v s).als = s.als := rfl
@[simp] theorem setBitacc_ctl (v : Bool) : (setBitacc v s).ctl = s.ctl := rfl
@[simp] theorem setBitacc_line (v : Bool) : (setBitacc v s).line = s.line := rfl
@[simp] theorem setBitacc_store (v : Bool) : (setBitacc v s).store = s.store := rfl
@[simp] theorem setBitacc_host (v : Bool) : (setBitacc v s).host = s.host := rfl
@[simp] theorem setBitacc_trace (v : Bool) : (setBitacc v s).trace = s.trace := rfl

@[simp] theorem setSr_cfg (v : Byte) : (setSr v s).cfg = s.cfg := rfl
@[simp] theorem setSr_bbm_sr (v : Byte) : (setSr v s).bbm.sr = v := rfl
@[simp] theorem setSr_bbm_bitacc (v : Byte) : (setSr v s).bbm.bitacc = s.bbm.bitacc := rfl
@[simp] theorem setSr_bbm_t0 (v : Byte) : (setSr v s).bbm.t0 = s.bbm.t0 := rfl
@[simp] theorem setSr_bbm_sclDrv (v : Byte) : (setSr v s).bbm.sclDrv = s.bbm.sclDrv := rfl
@[simp] theorem setSr_bbm_sdaDrv (v : Byte) : (setSr v s).bbm.sdaDrv = s.bbm.sdaDrv := rfl
@[simp] theorem setSr_bbm_phase (v : Byte) : (setSr v s).bbm.phase = s.bbm.phase := rfl
@[simp] theorem setSr_bbm_txnAddr (v : Byte) : (setSr v s).bbm.txnAddr = s.bbm.txnAddr := rfl
@[simp] theorem setSr_bbm_txnDir (v : Byte) : (setSr v s).bbm.txnDir = s.bbm.txnDir := rfl
@[simp] theorem setSr_bbm_speed (v : Byte) : (setSr v s).bbm.speed = s.bbm.speed := rfl
@[simp] theorem setSr_als (v : Byte) : (setSr v s).als = s.als := rfl
@[simp] theorem setSr_ctl (v : Byte) : (setSr v s).ctl = s.ctl := rfl
@[simp] theorem setSr_line (v : Byte) : (setSr v s).line = s.line := rfl
@[simp] theorem setSr_store (v : Byte) : (setSr v s).store = s.store := rfl
@[simp] theorem setSr_host (v : Byte) : (setSr v s).host = s.host := rfl
@[simp] theorem setSr_trace (v : Byte) : (setSr v s).trace = s.trace := rfl

@[simp] theorem setPhase_cfg (p : Phase) : (setPhase p s).cfg = s.cfg := rfl
@[simp] theorem setPhase_bbm_sr (p : Phase) : (setPhase p s).bbm.sr = s.bbm.sr := rfl
@[simp] theorem setPhase_bbm_bitacc (p : Phase) : (setPhase p s).bbm.bitacc = s.bbm.bitacc := rfl
@[simp] theorem setPhase_bbm_t0 (p : Phase) : (setPhase p s).bbm.t0 = s.bbm.t0 := rfl
@[simp] theorem setPhase_bbm_sclDrv (p : Phase) : (setPhase p s).bbm.sclDrv = s.bbm.sclDrv := rfl
@[simp] theorem setPhase_bbm_sdaDrv (p : Phase) : (setPhase p s).bbm.sdaDrv = s.bbm.sdaDrv := rfl
@[simp] theorem setPhase_bbm_phase (p : Phase) : (setPhase p s).bbm.phase = p := rfl
@[simp] theorem setPhase_bbm_txnAddr (p : Phase) : (setPhase p s).bbm.txnAddr = s.bbm.txnAddr := rfl
@[simp] theorem setPhase_bbm_txnDir (p : Phase) : (setPhase p s).bbm.txnDir = s.bbm.txnDir := rfl
@[simp] theorem setPhase_bbm_speed (p : Phase) : (setPhase p s).bbm.speed = s.bbm.speed := rfl
@[simp] theorem setPhase_als (p : Phase) : (setPhase p s).als = s.als := rfl
@[simp] theorem setPhase_ctl (p : Phase) : (setPhase p s).ctl = s.ctl := rfl
@[simp] theorem setPhase_line (p : Phase) : (setPhase p s).line = s.line := rfl
@[simp] theorem setPhase_store (p : Phase) : (setPhase p s).store = s.store := rfl
@[simp] theorem setPhase_host (p : Phase) : (setPhase p s).host = s.host := rfl
@[simp] theorem setPhase_trace (p : Phase) : (setPhase p s).trace = .phase p s.line.ticks :: s.trace := rfl

@[simp] theorem loadFrame_cfg (addr : DeviceAddress) (dir : Direction) : (loadFrame addr dir s).cfg = s.cfg := rfl
@[simp] theorem loadFrame_bbm_sr (addr : DeviceAddress) (dir : Direction) :
    (loadFrame addr dir s).bbm.sr = frameByte addr dir := rfl
@[simp] theorem loadFrame_bbm_bitacc (addr : DeviceAddress) (dir : Direction) :
    (loadFrame addr dir s).bbm.bitacc = s.bbm.bitacc := rfl
@[simp] theorem loadFrame_bbm_t0 (addr : DeviceAddress) (dir : Direction) :
    (loadFrame addr dir s).bbm.t0 = s.bbm.t0 := rfl
@[simp] theorem loadFrame_bbm_sclDrv (addr : DeviceAddress) (dir : Direction) :
    (loadFrame addr dir s).bbm.sclDrv = s.bbm.sclDrv := rfl
@[simp] theorem loadFrame_bbm_sdaDrv (addr : DeviceAddress) (dir : Direction) :
    (loadFrame addr dir s).bbm.sdaDrv = s.bbm.sdaDrv := rfl
@[simp] theorem loadFrame_bbm_phase (addr : DeviceAddress) (dir : Direction) :
    (loadFrame addr dir s).bbm.phase = s.bbm.phase := rfl
@[simp] theorem loadFrame_bbm_txnAddr (addr : DeviceAddress) (dir : Direction) :
    (loadFrame addr dir s).bbm.txnAddr = addr := rfl
@[simp] theorem loadFrame_bbm_txnDir (addr : DeviceAddress) (dir : Direction) :
    (loadFrame addr dir s).bbm.txnDir = dir := rfl
@[simp] theorem loadFrame_bbm_speed (addr : DeviceAddress) (dir : Direction) :
    (loadFrame addr dir s).bbm.speed = s.bbm.speed := rfl
@[simp] theorem loadFrame_als (addr : DeviceAddress) (dir : Direction) : (loadFrame addr dir s).als = s.als := rfl
@[simp] theorem loadFrame_ctl (addr : DeviceAddress) (dir : Direction) : (loadFrame addr dir s).ctl = s.ctl := rfl
@[simp] theorem loadFrame_line (addr : DeviceAddress) (dir : Direction) : (loadFrame addr dir s).line = s.line := rfl
@[simp] theorem loadFrame_store (addr : DeviceAddress) (dir : Direction) : (loadFrame addr dir s).store = s.store := rfl
@[simp] theorem loadFrame_host (addr : DeviceAddress) (dir : Direction) : (loadFrame addr dir s).host = s.host := rfl
@[simp] theorem loadFrame_trace (addr : DeviceAddress) (dir : Direction) :
    (loadFrame addr dir s).trace = .transaction addr dir :: s.trace := rfl

@[simp] theorem respond_cfg (st : Status) (data : Nat) : (respond st data s).cfg = s.cfg := rfl
@[simp] theorem respond_bbm (st : Status) (data : Nat) : (respond st data s).bbm = s.bbm := rfl
@[simp] theorem respond_als (st : Status) (data : Nat) : (respond st data s).als = s.als := rfl
@[simp] theorem respond_ctl_halt (st : Status) (data : Nat) : (respond st data s).ctl.halt = s.ctl.halt := rfl
@[simp] theorem respond_ctl_faultCode (st : Status) (data : Nat) :
    (respond st data s).ctl.faultCode = s.ctl.faultCode := rfl
@[simp] theorem respond_ctl_rspStatus (st : Status) (data : Nat) : (respond st data s).ctl.rspStatus = st := rfl
@[simp] theorem respond_ctl_rspData (st : Status) (data : Nat) : (respond st data s).ctl.rspData = data := rfl
@[simp] theorem respond_ctl_lastStatus (st : Status) (data : Nat) : (respond st data s).ctl.lastStatus = st := rfl
@[simp] theorem respond_ctl_cmdReady (st : Status) (data : Nat) : (respond st data s).ctl.cmdReady = true := rfl
@[simp] theorem respond_line (st : Status) (data : Nat) : (respond st data s).line = s.line := rfl
@[simp] theorem respond_store (st : Status) (data : Nat) : (respond st data s).store = s.store := rfl
@[simp] theorem respond_host (st : Status) (data : Nat) : (respond st data s).host = s.host := rfl
@[simp] theorem respond_trace (st : Status) (data : Nat) : (respond st data s).trace = .response st data :: s.trace := rfl

@[simp] theorem raise_cfg (e : FatalError) : (raise e s).cfg = s.cfg := rfl
@[simp] theorem raise_bbm (e : FatalError) : (raise e s).bbm = s.bbm := rfl
@[simp] theorem raise_als (e : FatalError) : (raise e s).als = s.als := rfl
@[simp] theorem raise_ctl_halt (e : FatalError) : (raise e s).ctl.halt = true := rfl
@[simp] theorem raise_ctl_faultCode (e : FatalError) : (raise e s).ctl.faultCode = e.status.code := rfl
@[simp] theorem raise_ctl_rspStatus (e : FatalError) : (raise e s).ctl.rspStatus = e.status := rfl
@[simp] theorem raise_ctl_rspData (e : FatalError) : (raise e s).ctl.rspData = 0 := rfl
@[simp] theorem raise_ctl_lastStatus (e : FatalError) : (raise e s).ctl.lastStatus = e.status := rfl
@[simp] theorem raise_ctl_cmdReady (e : FatalError) : (raise e s).ctl.cmdReady = true := rfl
@[simp] theorem raise_line (e : FatalError) : (raise e s).line = s.line := rfl
@[simp] theorem raise_store (e : FatalError) : (raise e s).store = s.store := rfl
@[simp] theorem raise_host (e : FatalError) : (raise e s).host = s.host := rfl
@[simp] theorem raise_trace (e : FatalError) : (raise e s).trace = .response e.status 0 :: s.trace := rfl

@[simp] theorem busy_cfg : (busy s).cfg = s.cfg := rfl
@[simp] theorem busy_bbm : (busy s).bbm = s.bbm := rfl
@[simp] theorem busy_als : (busy s).als = s.als := rfl
@[simp] theorem busy_ctl_halt : (busy s).ctl.halt = s.ctl.halt := rfl
@[simp] theorem busy_ctl_faultCode : (busy s).ctl.faultCode = s.ctl.faultCode := rfl
@[simp] theorem busy_ctl_rspStatus : (busy s).ctl.rspStatus = s.ctl.rspStatus := rfl
@[simp] theorem busy_ctl_rspData : (busy s).ctl.rspData = s.ctl.rspData := rfl
@[simp] theorem busy_ctl_lastStatus : (busy s).ctl.lastStatus = s.ctl.lastStatus := rfl
@[simp] theorem busy_ctl_cmdReady : (busy s).ctl.cmdReady = false := rfl
@[simp] theorem busy_line : (busy s).line = s.line := rfl
@[simp] theorem busy_store : (busy s).store = s.store := rfl
@[simp] theorem busy_host : (busy s).host = s.host := rfl
@[simp] theorem busy_trace : (busy s).trace = s.trace := rfl

@[simp] theorem sendRequest_cfg (r : StoreRequest) : (sendRequest r s).cfg = s.cfg := rfl
@[simp] theorem sendRequest_bbm (r : StoreRequest) : (sendRequest r s).bbm = s.bbm := rfl
@[simp] theorem sendRequest_als (r : StoreRequest) : (sendRequest r s).als = s.als := rfl
@[simp] theorem sendRequest_ctl (r : StoreRequest) : (sendRequest r s).ctl = s.ctl := rfl
@[simp] theorem sendRequest_line (r : StoreRequest) : (sendRequest r s).line = s.line := rfl
@[simp] theorem sendRequest_store_nv (r : StoreRequest) : (sendRequest r s).store.nv = s.store.nv := rfl
@[simp] theorem sendRequest_store_pending (r : StoreRequest) : (sendRequest r s).store.pending = some r := rfl
@[simp] theorem sendRequest_store_answers (r : StoreRequest) : (sendRequest r s).store.answers = s.store.answers := rfl
@[simp] theorem sendRequest_store_debris (r : StoreRequest) : (sendRequest r s).store.debris = s.store.debris := rfl
@[simp] theorem sendRequest_host (r : StoreRequest) : (sendRequest r s).host = s.host := rfl
@[simp] theorem sendRequest_trace (r : StoreRequest) : (sendRequest r s).trace = .request r :: s.trace := rfl

@[simp] theorem takeAnswer_cfg (a : StoreAnswer) : (takeAnswer a s).cfg = s.cfg := rfl
@[simp] theorem takeAnswer_bbm (a : StoreAnswer) : (takeAnswer a s).bbm = s.bbm := rfl
@[simp] theorem takeAnswer_als (a : StoreAnswer) : (takeAnswer a s).als = s.als := rfl
@[simp] theorem takeAnswer_ctl (a : StoreAnswer) : (takeAnswer a s).ctl = s.ctl := rfl
@[simp] theorem takeAnswer_line (a : StoreAnswer) : (takeAnswer a s).line = s.line := rfl
@[simp] theorem takeAnswer_store_nv (a : StoreAnswer) : (takeAnswer a s).store.nv = s.store.nv := rfl
@[simp] theorem takeAnswer_store_pending (a : StoreAnswer) : (takeAnswer a s).store.pending = none := rfl
@[simp] theorem takeAnswer_store_answers (a : StoreAnswer) : (takeAnswer a s).store.answers = s.store.answers := rfl
@[simp] theorem takeAnswer_store_debris (a : StoreAnswer) : (takeAnswer a s).store.debris = s.store.debris := rfl
@[simp] theorem takeAnswer_host (a : StoreAnswer) : (takeAnswer a s).host = s.host := rfl
@[simp] theorem takeAnswer_trace (a : StoreAnswer) : (takeAnswer a s).trace = .answer a :: s.trace := rfl

@[simp] theorem nextStoreDraw_cfg : (nextStoreDraw s).cfg = s.cfg := rfl
@[simp] theorem nextStoreDraw_bbm : (nextStoreDraw s).bbm = s.bbm := rfl
@[simp] theorem nextStoreDraw_als : (nextStoreDraw s).als = s.als := rfl
@[simp] theorem nextStoreDraw_ctl : (nextStoreDraw s).ctl = s.ctl := rfl
@[simp] theorem nextStoreDraw_line : (nextStoreDraw s).line = s.line := rfl
@[simp] theorem nextStoreDraw_store_nv : (nextStoreDraw s).store.nv = s.store.nv := rfl
@[simp] theorem nextStoreDraw_store_pending : (nextStoreDraw s).store.pending = s.store.pending := rfl
@[simp] theorem nextStoreDraw_store_answers : (nextStoreDraw s).store.answers = s.store.answers.tail := rfl
@[simp] theorem nextStoreDraw_store_debris : (nextStoreDraw s).store.debris = s.store.debris := rfl
@[simp] theorem nextStoreDraw_host : (nextStoreDraw s).host = s.host := rfl
@[simp] theorem nextStoreDraw_trace : (nextStoreDraw s).trace = s.trace := rfl

@[simp] theorem scramble_cfg (off n : Nat) : (scramble off n s).cfg = s.cfg := rfl
@[simp] theorem scramble_bbm (off n : Nat) : (scramble off n s).bbm = s.bbm := rfl
@[simp] theorem scramble_als (off n : Nat) : (scramble off n s).als = s.als := rfl
@[simp] theorem scramble_ctl (off n : Nat) : (scramble off n s).ctl = s.ctl := rfl
@[simp] theorem scramble_line (off n : Nat) : (scramble off n s).line = s.line := rfl
@[simp] theorem scramble_store_nv (off n : Nat) :
    (scramble off n s).store.nv = Memory.writeBytes s.store.nv off (s.store.debris.take Config.freeByte n) := rfl
@[simp] theorem scramble_store_pending (off n : Nat) : (scramble off n s).store.pending = s.store.pending := rfl
@[simp] theorem scramble_store_answers (off n : Nat) : (scramble off n s).store.answers = s.store.answers := rfl
@[simp] theorem scramble_store_debris (off n : Nat) : (scramble off n s).store.debris = s.store.debris.drop n := rfl
@[simp] theorem scramble_host (off n : Nat) : (scramble off n s).host = s.host := rfl
@[simp] theorem scramble_trace (off n : Nat) : (scramble off n s).trace = s.trace := rfl

@[simp] theorem storeBytes_cfg (off : Nat) (bytes : List Byte) : (storeBytes off bytes s).cfg = s.cfg := rfl
@[simp] theorem storeBytes_bbm (off : Nat) (bytes : List Byte) : (storeBytes off bytes s).bbm = s.bbm := rfl
@[simp] theorem storeBytes_als (off : Nat) (bytes : List Byte) : (storeBytes off bytes s).als = s.als := rfl
@[simp] theorem storeBytes_ctl (off : Nat) (bytes : List Byte) : (storeBytes off bytes s).ctl = s.ctl := rfl
@[simp] theorem storeBytes_line (off : Nat) (bytes : List Byte) : (storeBytes off bytes s).line = s.line := rfl
@[simp] theorem storeBytes_store_nv (off : Nat) (bytes : List Byte) :
    (storeBytes off bytes s).store.nv = Memory.writeBytes s.store.nv off bytes := rfl
@[simp] theorem storeBytes_store_pending (off : Nat) (bytes : List Byte) :
    (storeBytes off bytes s).store.pending = s.store.pending := rfl
@[simp] theorem storeBytes_store_answers (off : Nat) (bytes : List Byte) :
    (storeBytes off bytes s).store.answers = s.store.answers := rfl
@[simp] theorem storeBytes_store_debris (off : Nat) (bytes : List Byte) :
    (storeBytes off bytes s).store.debris = s.store.debris := rfl
@[simp] theorem storeBytes_host (off : Nat) (bytes : List Byte) : (storeBytes off bytes s).host = s.host := rfl
@[simp] theorem storeBytes_trace (off : Nat) (bytes : List Byte) : (storeBytes off bytes s).trace = s.trace := rfl

@[simp] theorem setLogValid_cfg (v : Bool) : (setLogValid v s).cfg = s.cfg := rfl
@[simp] theorem setLogValid_bbm (v : Bool) : (setLogValid v s).bbm = s.bbm := rfl
@[simp] theorem setLogValid_als_writeOffset (v : Bool) : (setLogValid v s).als.writeOffset = s.als.writeOffset := rfl
@[simp] theorem setLogValid_als_writeSequence (v : Bool) :
    (setLogValid v s).als.writeSequence = s.als.writeSequence := rfl
@[simp] theorem setLogValid_als_logValid (v : Bool) : (setLogValid v s).als.logValid = v := rfl
@[simp] theorem setLogValid_ctl (v : Bool) : (setLogValid v s).ctl = s.ctl := rfl
@[simp] theorem setLogValid_line (v : Bool) : (setLogValid v s).line = s.line := rfl
@[simp] theorem setLogValid_store (v : Bool) : (setLogValid v s).store = s.store := rfl
@[simp] theorem setLogValid_host (v : Bool) : (setLogValid v s).host = s.host := rfl
@[simp] theorem setLogValid_trace (v : Bool) :
    (setLogValid v s).trace = .logValid v :: s.trace := rfl

@[simp] theorem setWriteOffset_cfg (i : IndexWord) : (setWriteOffset i s).cfg = s.cfg := rfl
@[simp] theorem setWriteOffset_bbm (i : IndexWord) : (setWriteOffset i s).bbm = s.bbm := rfl
@[simp] theorem setWriteOffset_als_writeOffset (i : IndexWord) : (setWriteOffset i s).als.writeOffset = i := rfl
@[simp] theorem setWriteOffset_als_writeSequence (i : IndexWord) :
    (setWriteOffset i s).als.writeSequence = s.als.writeSequence := rfl
@[simp] theorem setWriteOffset_als_logValid (i : IndexWord) : (setWriteOffset i s).als.logValid = s.als.logValid := rfl
@[simp] theorem setWriteOffset_ctl (i : IndexWord) : (setWriteOffset i s).ctl = s.ctl := rfl
@[simp] theorem setWriteOffset_line (i : IndexWord) : (setWriteOffset i s).line = s.line := rfl
@[simp] theorem setWriteOffset_store (i : IndexWord) : (setWriteOffset i s).store = s.store := rfl
@[simp] theorem setWriteOffset_host (i : IndexWord) : (setWriteOffset i s).host = s.host := rfl
@[simp] theorem setWriteOffset_trace (i : IndexWord) :
    (setWriteOffset i s).trace = .writeOffset i :: s.trace := rfl

@[simp] theorem setWriteSequence_cfg (n : SeqWord) : (setWriteSequence n s).cfg = s.cfg := rfl
@[simp] theorem setWriteSequence_bbm (n : SeqWord) : (setWriteSequence n s).bbm = s.bbm := rfl
@[simp] theorem setWriteSequence_als_writeOffset (n : SeqWord) :
    (setWriteSequence n s).als.writeOffset = s.als.writeOffset := rfl
@[simp] theorem setWriteSequence_als_writeSequence (n : SeqWord) : (setWriteSequence n s).als.writeSequence = n := rfl
@[simp] theorem setWriteSequence_als_logValid (n : SeqWord) :
    (setWriteSequence n s).als.logValid = s.als.logValid := rfl
@[simp] theorem setWriteSequence_ctl (n : SeqWord) : (setWriteSequence n s).ctl = s.ctl := rfl
@[simp] theorem setWriteSequence_line (n : SeqWord) : (setWriteSequence n s).line = s.line := rfl
@[simp] theorem setWriteSequence_store (n : SeqWord) : (setWriteSequence n s).store = s.store := rfl
@[simp] theorem setWriteSequence_host (n : SeqWord) : (setWriteSequence n s).host = s.host := rfl
@[simp] theorem setWriteSequence_trace (n : SeqWord) :
    (setWriteSequence n s).trace = .writeSequence n :: s.trace := rfl

@[simp] theorem refuse_eq (st : Status) : refuse st s = respond st 0 s := rfl
@[simp] theorem unit_eq : s.unit = s.cfg.unit s.bbm.speed := rfl
@[simp] theorem stretch_eq : s.stretch = s.cfg.stretch s.bbm.speed := rfl
@[simp] theorem bitWindow_eq : s.bitWindow = s.cfg.bitWindow s.bbm.speed := rfl

end

end Sys2Proof.Machine
end

