-- ==== Sys2Proof/Laws/Memory.lean ====
section
/-! SUPPORT. The laws of the store's byte space: read after write, the canonical form is kept, and the record layout
reads back what it wrote. -/

namespace Sys2Proof.Machine

theorem Memory.wf_iff (m : Memory) :
    Memory.wf m = true ↔
      List.Pairwise (fun p q : Host.Cell => p.1 < q.1) m ∧ ∀ c ∈ m, c.2 ≠ erasedByte := by
  simp [Memory.wf]

theorem Memory.within_iff (n : Nat) (m : Memory) :
    Memory.within n m = true ↔ ∀ c ∈ m, c.1 < n := by
  simp [Memory.within]

theorem Memory.read_of_all_above (m : Memory) (a : Nat) (h : ∀ c ∈ m, a < c.1) :
    Memory.read m a = erasedByte := by
  induction m with
  | nil => rfl
  | cons c m ih =>
    obtain ⟨k, v⟩ := c
    have hk : a < k := h (k, v) (by simp)
    simp only [Memory.read, if_neg (Nat.ne_of_gt hk)]
    exact ih fun c hc => h c (by simp [hc])

/-- A cell of the memory after a write is the written one or was there before. -/
theorem Memory.mem_write (m : Memory) (a : Nat) (b : Byte) (c : Host.Cell) (h : c ∈ Memory.write m a b) :
    c = (a, b) ∧ b ≠ erasedByte ∨ c ∈ m := by
  induction m with
  | nil =>
    by_cases hb : b = erasedByte <;> simp_all [Memory.write]
  | cons d m ih =>
    obtain ⟨k, v⟩ := d
    simp only [Memory.write] at h
    split at h
    · split at h
      · exact .inr h
      · next hb => simp only [List.mem_cons] at h ⊢; tauto
    · split at h
      · split at h
        · exact .inr (by simp [h])
        · next hb => simp only [List.mem_cons] at h ⊢; tauto
      · simp only [List.mem_cons] at h ⊢
        rcases h with h | h
        · tauto
        · rcases ih h with h | h <;> tauto

theorem Memory.write_wf (m : Memory) (a : Nat) (b : Byte) (h : Memory.wf m = true) :
    Memory.wf (Memory.write m a b) = true := by
  rw [Memory.wf_iff] at *
  obtain ⟨hp, he⟩ := h
  refine ⟨?_, fun c hc => ?_⟩
  · clear he
    induction m with
    | nil => by_cases hb : b = erasedByte <;> simp [Memory.write, hb]
    | cons d m ih =>
      obtain ⟨k, v⟩ := d
      obtain ⟨hk, hp'⟩ := List.pairwise_cons.1 hp
      simp only [Memory.write]
      split
      · next hlt =>
        split
        · exact hp
        · refine List.pairwise_cons.2 ⟨fun c hc => ?_, hp⟩
          rcases List.mem_cons.1 hc with rfl | hc
          · exact hlt
          · exact Nat.lt_trans hlt (hk c hc)
      · next hlt =>
        split
        · next heq =>
          subst heq
          split
          · exact hp'
          · exact List.pairwise_cons.2 ⟨hk, hp'⟩
        · next hne =>
          refine List.pairwise_cons.2 ⟨fun c hc => ?_, ih hp'⟩
          rcases Memory.mem_write m a b c hc with ⟨rfl, -⟩ | hc
          · show k < a; omega
          · exact hk c hc
  · rcases Memory.mem_write m a b c hc with ⟨rfl, hb⟩ | hc
    · exact hb
    · exact he c hc

theorem Memory.write_within (n : Nat) (m : Memory) (a : Nat) (b : Byte) (h : Memory.within n m = true) (ha : a < n) :
    Memory.within n (Memory.write m a b) = true := by
  rw [Memory.within_iff] at *
  intro c hc
  rcases Memory.mem_write m a b c hc with ⟨rfl, -⟩ | hc
  · exact ha
  · exact h c hc

theorem Memory.read_write_same (m : Memory) (a : Nat) (b : Byte) (h : Memory.wf m = true) :
    Memory.read (Memory.write m a b) a = b := by
  rw [Memory.wf_iff] at h
  replace h := h.1
  induction m with
  | nil =>
    by_cases hb : b = erasedByte <;> simp [Memory.write, Memory.read, hb]
  | cons d m ih =>
    obtain ⟨k, v⟩ := d
    obtain ⟨hk, hp⟩ := List.pairwise_cons.1 h
    simp only [Memory.write]
    split
    · next hlt =>
      split
      · next hb =>
        subst hb
        refine Memory.read_of_all_above _ _ fun c hc => ?_
        rcases List.mem_cons.1 hc with rfl | hc
        · exact hlt
        · exact Nat.lt_trans hlt (hk c hc)
      · simp [Memory.read]
    · split
      · next heq =>
        subst heq
        split
        · next hb => subst hb; exact Memory.read_of_all_above _ _ hk
        · simp [Memory.read]
      · next hne => simp only [Memory.read, if_neg (Ne.symm hne)]; exact ih hp

theorem Memory.read_write_other (m : Memory) (a a' : Nat) (b : Byte) (h : a' ≠ a) :
    Memory.read (Memory.write m a b) a' = Memory.read m a' := by
  induction m with
  | nil =>
    by_cases hb : b = erasedByte <;> simp [Memory.write, Memory.read, hb, h.symm]
  | cons d m ih =>
    obtain ⟨k, v⟩ := d
    simp only [Memory.write]
    split
    · split <;> simp [Memory.read, h.symm]
    · split
      · next heq => subst heq; split <;> simp [Memory.read, h.symm]
      · simp only [Memory.read, ih]

theorem Memory.writeBytes_wf (bs : List Byte) (m : Memory) (a : Nat) (h : Memory.wf m = true) :
    Memory.wf (Memory.writeBytes m a bs) = true := by
  induction bs generalizing m a with
  | nil => exact h
  | cons b bs ih => exact ih _ _ (Memory.write_wf m a b h)

theorem Memory.writeBytes_within (n : Nat) (bs : List Byte) (m : Memory) (a : Nat)
    (h : Memory.within n m = true) (ha : a + bs.length ≤ n) :
    Memory.within n (Memory.writeBytes m a bs) = true := by
  induction bs generalizing m a with
  | nil => exact h
  | cons b bs ih =>
    simp only [List.length_cons] at ha
    exact ih _ _ (Memory.write_within n m a b h (by omega)) (by omega)

/-- A write leaves every byte outside the written range alone. -/
theorem Memory.read_writeBytes_other (bs : List Byte) (m : Memory) (a a' : Nat)
    (h : a' < a ∨ a + bs.length ≤ a') :
    Memory.read (Memory.writeBytes m a bs) a' = Memory.read m a' := by
  induction bs generalizing m a with
  | nil => rfl
  | cons b bs ih =>
    simp only [List.length_cons] at h
    rw [Memory.writeBytes, ih _ _ (by omega), Memory.read_write_other _ _ _ _ (by omega)]

@[simp] theorem Memory.readBytes_length (m : Memory) (a n : Nat) : (Memory.readBytes m a n).length = n := by
  induction n generalizing a with
  | zero => rfl
  | succ n ih => simp [Memory.readBytes, ih]

/-- Bytes read depend on the bytes at their addresses alone. -/
theorem Memory.readBytes_congr (m m' : Memory) (a n : Nat)
    (h : ∀ k, k < n → Memory.read m (a + k) = Memory.read m' (a + k)) :
    Memory.readBytes m a n = Memory.readBytes m' a n := by
  induction n generalizing a with
  | zero => rfl
  | succ n ih =>
    simp only [Memory.readBytes]
    rw [show Memory.read m a = Memory.read m' a from h 0 (by omega),
      ih (a + 1) fun k hk => by have := h (k + 1) (by omega); rwa [show a + 1 + k = a + (k + 1) by omega]]

/-- Read after write: the written range reads back the written bytes. -/
theorem Memory.readBytes_writeBytes_same (bs : List Byte) (m : Memory) (a : Nat) (h : Memory.wf m = true) :
    Memory.readBytes (Memory.writeBytes m a bs) a bs.length = bs := by
  induction bs generalizing m a with
  | nil => rfl
  | cons b bs ih =>
    simp only [List.length_cons, Memory.readBytes, Memory.writeBytes]
    rw [ih _ _ (Memory.write_wf m a b h), Memory.read_writeBytes_other _ _ _ _ (by omega),
      Memory.read_write_same m a b h]

/-- A range that the write does not meet reads as before. -/
theorem Memory.readBytes_writeBytes_other (bs : List Byte) (m : Memory) (a a' n : Nat)
    (h : a' + n ≤ a ∨ a + bs.length ≤ a') :
    Memory.readBytes (Memory.writeBytes m a bs) a' n = Memory.readBytes m a' n :=
  Memory.readBytes_congr _ _ _ _ fun k hk => Memory.read_writeBytes_other _ _ _ _ (by omega)

/-! Records (R66, R67). -/

@[simp] theorem leBytes_length (n v : Nat) : (leBytes n v).length = n := by
  induction n generalizing v with
  | zero => rfl
  | succ n ih => simp [leBytes, ih]

theorem leNat_leBytes (n v : Nat) : leNat (leBytes n v) = v % 256 ^ n := by
  induction n generalizing v with
  | zero => simp [leBytes, leNat, Nat.mod_one]
  | succ n ih =>
    have h : v % (256 * 256 ^ n) = v % 256 + 256 * (v / 256 % 256 ^ n) := Nat.mod_mul
    simp only [leBytes, leNat, ih, BitVec.toNat_ofNat, Nat.pow_succ']
    rw [h]

theorem leNat_lt (bs : List Byte) : leNat bs < 256 ^ bs.length := by
  induction bs with
  | nil => simp [leNat]
  | cons b bs ih =>
    have hb : b.toNat < 256 := b.isLt
    simp only [leNat, List.length_cons, Nat.pow_succ']
    omega

@[simp] theorem encodeRecord_length (c : Config) (seq : SeqWord) (p : Nat) :
    (c.encodeRecord seq p).length = c.recordSize := by
  simp [Config.encodeRecord, Config.recordSize]

@[simp] theorem decodeSeq_encodeRecord (c : Config) (seq : SeqWord) (p : Nat) :
    decodeSeq (c.encodeRecord seq p) = seq := by
  have h : (leBytes seqBytes seq.toNat ++ leBytes c.payloadBytes p).take seqBytes = leBytes seqBytes seq.toNat := by
    rw [List.take_append_of_le_length (by simp), List.take_of_length_le (by simp)]
  apply BitVec.eq_of_toNat_eq
  have hs : seq.toNat < 2 ^ 32 := seq.isLt
  rw [decodeSeq, Config.encodeRecord, h, leNat_leBytes, BitVec.toNat_ofNat]
  simp only [seqBytes]
  omega

@[simp] theorem decodePayload_encodeRecord (c : Config) (seq : SeqWord) (p : Nat) :
    decodePayload (c.encodeRecord seq p) = p % 2 ^ c.payloadWidth := by
  have h : (leBytes seqBytes seq.toNat ++ leBytes c.payloadBytes p).drop seqBytes = leBytes c.payloadBytes p := by
    rw [List.drop_append_of_le_length (by simp), List.drop_of_length_le (by simp), List.nil_append]
  simp only [decodePayload, Config.encodeRecord, h, leNat_leBytes, Config.payloadWidth, Nat.pow_mul]

theorem decodePayload_lt (c : Config) (bs : List Byte) (h : bs.length = c.recordSize) :
    decodePayload bs < 2 ^ c.payloadWidth := by
  have := leNat_lt (bs.drop seqBytes)
  simpa [decodePayload, h, Config.recordSize, Config.payloadWidth, Nat.pow_mul] using this

end Sys2Proof.Machine
end

