-- ==== Sys2Proof/Laws/Lines.lean ====
section
/-! SUPPORT. What the line operations can do, said once: `LineOnly` is the frame of every one of them (they write the two
latches, T0, BITACC, the lines' environment and the trace, and nothing else), the simp lemmas give the fields that no
time decides, and the `_spec` lemmas the times. -/

namespace Sys2Proof.Machine

/-- Nothing but the latches, T0, BITACC, TIME, the peer's levels, the draws of both and the trace has changed, and TIME
has not gone back. -/
structure LineOnly (s s' : State) : Prop where
  cfg : s'.cfg = s.cfg
  als : s'.als = s.als
  ctl : s'.ctl = s.ctl
  store : s'.store = s.store
  host : s'.host = s.host
  sr : s'.bbm.sr = s.bbm.sr
  phase : s'.bbm.phase = s.bbm.phase
  txnAddr : s'.bbm.txnAddr = s.bbm.txnAddr
  txnDir : s'.bbm.txnDir = s.bbm.txnDir
  speed : s'.bbm.speed = s.bbm.speed
  gaps : s'.line.gaps = s.line.gaps
  ticks_le : s.line.ticks ≤ s'.line.ticks

theorem LineOnly.rfl {s : State} : LineOnly s s := by constructor <;> first | exact Eq.refl _ | exact Nat.le_refl _

theorem LineOnly.trans {a b c : State} (h : LineOnly a b) (h' : LineOnly b c) : LineOnly a c where
  cfg := h'.cfg.trans h.cfg
  als := h'.als.trans h.als
  ctl := h'.ctl.trans h.ctl
  store := h'.store.trans h.store
  host := h'.host.trans h.host
  sr := h'.sr.trans h.sr
  phase := h'.phase.trans h.phase
  txnAddr := h'.txnAddr.trans h.txnAddr
  txnDir := h'.txnDir.trans h.txnDir
  speed := h'.speed.trans h.speed
  gaps := h'.gaps.trans h.gaps
  ticks_le := Nat.le_trans h.ticks_le h'.ticks_le

/-- Nothing but TIME and its draws has changed. -/
structure ClockOnly (s s' : State) : Prop where
  cfg : s'.cfg = s.cfg
  bbm : s'.bbm = s.bbm
  als : s'.als = s.als
  ctl : s'.ctl = s.ctl
  store : s'.store = s.store
  host : s'.host = s.host
  trace : s'.trace = s.trace
  pScl : s'.line.pScl = s.line.pScl
  pSda : s'.line.pSda = s.line.pSda
  peers : s'.line.peers = s.line.peers
  gaps : s'.line.gaps = s.line.gaps
  ticks_le : s.line.ticks ≤ s'.line.ticks

theorem ClockOnly.rfl {s : State} : ClockOnly s s := by constructor <;> first | exact Eq.refl _ | exact Nat.le_refl _

theorem ClockOnly.trans {a b c : State} (h : ClockOnly a b) (h' : ClockOnly b c) : ClockOnly a c where
  cfg := h'.cfg.trans h.cfg
  bbm := h'.bbm.trans h.bbm
  als := h'.als.trans h.als
  ctl := h'.ctl.trans h.ctl
  store := h'.store.trans h.store
  host := h'.host.trans h.host
  trace := h'.trace.trans h.trace
  pScl := h'.pScl.trans h.pScl
  pSda := h'.pSda.trans h.pSda
  peers := h'.peers.trans h.peers
  gaps := h'.gaps.trans h.gaps
  ticks_le := Nat.le_trans h.ticks_le h'.ticks_le

/-! Time (R13, R133, R136). -/

theorem advanceAmount_pos (s : State) : 1 ≤ advanceAmount s := by
  unfold advanceAmount; split <;> omega

theorem advanceAmount_le (s : State) (h : 1 ≤ s.cfg.dtMax) : advanceAmount s ≤ s.cfg.dtMax := by
  unfold advanceAmount; split <;> omega

theorem time_lt (s : State) : s.time < 2 ^ s.cfg.tw := Nat.mod_lt _ (Nat.two_pow_pos _)

/-- Elapsed time is the true time between two reads, modulo the period (R136). -/
theorem elapsed_add (tw a d : Nat) : elapsed tw ((a + d) % 2 ^ tw) (a % 2 ^ tw) = d % 2 ^ tw := by
  have hm : 0 < 2 ^ tw := Nat.two_pow_pos tw
  have ha : a % 2 ^ tw < 2 ^ tw := Nat.mod_lt _ hm
  simp only [elapsed]
  generalize 2 ^ tw = m at *
  have h1 : ((a + d) % m + (m - a % m % m)) % m = (a + d + (m - a % m)) % m := by
    rw [Nat.mod_mod, Nat.mod_add_mod]
  have h2 : a + d + (m - a % m) = d + m * (a / m + 1) := by
    have := Nat.div_add_mod a m
    rw [Nat.mul_add, Nat.mul_one]
    omega
  rw [h1, h2, Nat.add_mul_mod_self_left]

/-- The time since a stamp taken at tick `a`, when less than a period has passed. -/
theorem sinceStamp_eq (s : State) (a : Nat) (h0 : s.bbm.t0 = a % 2 ^ s.cfg.tw) (ha : a ≤ s.line.ticks)
    (hlt : s.line.ticks - a < 2 ^ s.cfg.tw) : sinceStamp s = s.line.ticks - a := by
  have h := elapsed_add s.cfg.tw a (s.line.ticks - a)
  rw [Nat.add_sub_cancel' ha, Nat.mod_eq_of_lt hlt] at h
  rw [sinceStamp, h0, State.time, h]

theorem now_clockOnly (s : State) : ClockOnly s (now s) := by
  constructor <;> first | exact Eq.refl _ | exact Nat.le_add_right _ _

theorem waitPoll_clockOnly (fuel limit : Nat) (s : State) : ClockOnly s (waitPoll fuel limit s) := by
  induction fuel generalizing s with
  | zero => exact ClockOnly.rfl
  | succ fuel ih =>
    unfold waitPoll
    split
    · exact now_clockOnly s
    · exact (now_clockOnly s).trans (ih _)

/-- A poll of `Wait` that began at tick `a` ends at the first read at or after `limit` ticks (R13). -/
theorem waitPoll_spec (fuel limit a : Nat) (s : State) (hdt : 1 ≤ s.cfg.dtMax)
    (hw : limit + s.cfg.dtMax ≤ 2 ^ s.cfg.tw) (h0 : s.bbm.t0 = a % 2 ^ s.cfg.tw) (ha : a ≤ s.line.ticks)
    (hlt : s.line.ticks < a + limit) (hf : a + limit ≤ s.line.ticks + fuel) :
    a + limit ≤ (waitPoll fuel limit s).line.ticks ∧
      (waitPoll fuel limit s).line.ticks < a + limit + s.cfg.dtMax := by
  induction fuel generalizing s with
  | zero => omega
  | succ fuel ih =>
    have hp := advanceAmount_pos s
    have hq := advanceAmount_le s hdt
    have he : sinceStamp (now s) = s.line.ticks + advanceAmount s - a :=
      sinceStamp_eq (now s) a h0 (by simp only [now_line_ticks]; omega) (by simp only [now_line_ticks, now_cfg]; omega)
    unfold waitPoll
    split
    · simp only [now_line_ticks]; omega
    · exact ih (now s) hdt hw h0 (by simp only [now_line_ticks]; omega) (by simp only [now_line_ticks]; omega)
        (by simp only [now_line_ticks]; omega)

section
variable (s : State)

@[simp] theorem wait_cfg (n : Nat) : (wait n s).cfg = s.cfg := (waitPoll_clockOnly _ _ _).cfg
@[simp] theorem wait_als (n : Nat) : (wait n s).als = s.als := (waitPoll_clockOnly _ _ _).als
@[simp] theorem wait_ctl (n : Nat) : (wait n s).ctl = s.ctl := (waitPoll_clockOnly _ _ _).ctl
@[simp] theorem wait_store (n : Nat) : (wait n s).store = s.store := (waitPoll_clockOnly _ _ _).store
@[simp] theorem wait_host (n : Nat) : (wait n s).host = s.host := (waitPoll_clockOnly _ _ _).host
@[simp] theorem wait_trace (n : Nat) : (wait n s).trace = s.trace := (waitPoll_clockOnly _ _ _).trace
@[simp] theorem wait_bbm_sr (n : Nat) : (wait n s).bbm.sr = s.bbm.sr := by
  rw [wait, (waitPoll_clockOnly _ _ _).bbm]; rfl
@[simp] theorem wait_bbm_bitacc (n : Nat) : (wait n s).bbm.bitacc = s.bbm.bitacc := by
  rw [wait, (waitPoll_clockOnly _ _ _).bbm]; rfl
@[simp] theorem wait_bbm_sclDrv (n : Nat) : (wait n s).bbm.sclDrv = s.bbm.sclDrv := by
  rw [wait, (waitPoll_clockOnly _ _ _).bbm]; rfl
@[simp] theorem wait_bbm_sdaDrv (n : Nat) : (wait n s).bbm.sdaDrv = s.bbm.sdaDrv := by
  rw [wait, (waitPoll_clockOnly _ _ _).bbm]; rfl
@[simp] theorem wait_bbm_phase (n : Nat) : (wait n s).bbm.phase = s.bbm.phase := by
  rw [wait, (waitPoll_clockOnly _ _ _).bbm]; rfl
@[simp] theorem wait_bbm_txnAddr (n : Nat) : (wait n s).bbm.txnAddr = s.bbm.txnAddr := by
  rw [wait, (waitPoll_clockOnly _ _ _).bbm]; rfl
@[simp] theorem wait_bbm_txnDir (n : Nat) : (wait n s).bbm.txnDir = s.bbm.txnDir := by
  rw [wait, (waitPoll_clockOnly _ _ _).bbm]; rfl
@[simp] theorem wait_bbm_speed (n : Nat) : (wait n s).bbm.speed = s.bbm.speed := by
  rw [wait, (waitPoll_clockOnly _ _ _).bbm]; rfl
@[simp] theorem wait_line_pScl (n : Nat) : (wait n s).line.pScl = s.line.pScl := (waitPoll_clockOnly _ _ _).pScl
@[simp] theorem wait_line_pSda (n : Nat) : (wait n s).line.pSda = s.line.pSda := (waitPoll_clockOnly _ _ _).pSda
@[simp] theorem wait_line_peers (n : Nat) : (wait n s).line.peers = s.line.peers := (waitPoll_clockOnly _ _ _).peers
@[simp] theorem wait_line_gaps (n : Nat) : (wait n s).line.gaps = s.line.gaps := (waitPoll_clockOnly _ _ _).gaps

theorem wait_t0 (n : Nat) : (wait n s).bbm.t0 = (now s).time := by
  rw [wait, (waitPoll_clockOnly _ _ _).bbm]; rfl

theorem wait_t0_lt (n : Nat) : (wait n s).bbm.t0 < 2 ^ s.cfg.tw := by rw [wait_t0]; exact time_lt (now s)

theorem wait_ticks_le (n : Nat) : s.line.ticks ≤ (wait n s).line.ticks :=
  Nat.le_trans (Nat.le_add_right _ _) (waitPoll_clockOnly _ _ (stamp (now s))).ticks_le

theorem wait_lineOnly (n : Nat) : LineOnly s (wait n s) := by
  constructor <;> first | exact wait_ticks_le s n | simp

/-- `Wait(n)` lasts at least `n` units and less than DT_MAX more, after the advance of its first read (R13, R285). -/
theorem wait_spec (n : Nat) (hn : 1 ≤ n * s.unit) (hdt : 1 ≤ s.cfg.dtMax)
    (hw : n * s.unit + s.cfg.dtMax ≤ 2 ^ s.cfg.tw) :
    s.line.ticks + n * s.unit < (wait n s).line.ticks ∧
      (wait n s).line.ticks < s.line.ticks + n * s.unit + 2 * s.cfg.dtMax := by
  have hp := advanceAmount_pos s
  have hq := advanceAmount_le s hdt
  have h := waitPoll_spec (n * s.unit) (n * s.unit) (now s).line.ticks (stamp (now s)) hdt hw rfl (Nat.le_refl _)
    (by simp only [stamp_line, now_line_ticks]; omega) (by simp only [stamp_line, now_line_ticks]; omega)
  simp only [now_line_ticks, stamp_cfg, now_cfg] at h
  rw [wait]
  omega

end

/-- What R8 says of the waits of a block with a legal configuration. -/
theorem configOk_waits (c : Config) (sp : Speed) (h : c.ok sp = true) :
    1 ≤ c.unit sp ∧ 1 ≤ c.dtMax ∧ 2 * c.unit sp + c.dtMax ≤ 2 ^ c.tw := by
  simp only [Config.ok, Bool.and_eq_true, decide_eq_true_eq] at h
  refine ⟨?_, by tauto, by tauto⟩
  cases sp <;> simp only [Config.unit] <;> tauto

/-- What R8 says of the bit window of a block with a legal configuration. -/
theorem configOk_windows (c : Config) (sp : Speed) (h : c.ok sp = true) :
    1 ≤ c.stretch sp ∧ c.stretch sp ≤ c.bitWindow sp ∧ c.bitWindow sp + c.dtMax ≤ 2 ^ c.tw := by
  simp only [Config.ok, Config.windowsOk, Bool.and_eq_true, decide_eq_true_eq] at h
  cases sp <;> tauto

/-- What R8 says of the store of a block with a legal configuration. -/
theorem configOk_store (c : Config) (sp : Speed) (h : c.ok sp = true) :
    1 ≤ c.payloadBytes ∧ 1 ≤ c.pageSize ∧ c.recordSize ≤ c.capacity ∧ c.capacity % c.pageSize = 0 ∧
      (c.nSlots + 1) * c.recordSize < 2 ^ 32 := by
  simp only [Config.ok, Bool.and_eq_true, decide_eq_true_eq] at h
  tauto

section
variable (s : State)

/-- `Wait(1)` and `Wait(2)` in a block with a legal configuration (R13, R285). -/
theorem wait_spec_ok (n : Nat) (h : s.cfg.ok s.bbm.speed = true) (h1 : 1 ≤ n) (h2 : n ≤ 2) :
    s.line.ticks + n * s.unit < (wait n s).line.ticks ∧
      (wait n s).line.ticks < s.line.ticks + n * s.unit + 2 * s.cfg.dtMax := by
  obtain ⟨hu, hd, hw⟩ := configOk_waits s.cfg _ h
  have hle : n * s.unit ≤ 2 * s.unit := Nat.mul_le_mul_right _ h2
  have hge : 1 * s.unit ≤ n * s.unit := Nat.mul_le_mul_right _ h1
  simp only [unit_eq] at *
  exact wait_spec s n (by simp only [unit_eq]; omega) hd (by simp only [unit_eq]; omega)

/-! Bit writes and the start and stop conditions (R137 to R139). -/

@[simp] theorem writeBit_cfg (v : Bool) : (writeBit v s).cfg = s.cfg := by simp [writeBit]
@[simp] theorem writeBit_als (v : Bool) : (writeBit v s).als = s.als := by simp [writeBit]
@[simp] theorem writeBit_ctl (v : Bool) : (writeBit v s).ctl = s.ctl := by simp [writeBit]
@[simp] theorem writeBit_store (v : Bool) : (writeBit v s).store = s.store := by simp [writeBit]
@[simp] theorem writeBit_host (v : Bool) : (writeBit v s).host = s.host := by simp [writeBit]
@[simp] theorem writeBit_bbm_sr (v : Bool) : (writeBit v s).bbm.sr = s.bbm.sr := by simp [writeBit]
@[simp] theorem writeBit_bbm_phase (v : Bool) : (writeBit v s).bbm.phase = s.bbm.phase := by simp [writeBit]
@[simp] theorem writeBit_bbm_txnAddr (v : Bool) : (writeBit v s).bbm.txnAddr = s.bbm.txnAddr := by simp [writeBit]
@[simp] theorem writeBit_bbm_txnDir (v : Bool) : (writeBit v s).bbm.txnDir = s.bbm.txnDir := by simp [writeBit]
@[simp] theorem writeBit_bbm_speed (v : Bool) : (writeBit v s).bbm.speed = s.bbm.speed := by simp [writeBit]
@[simp] theorem writeBit_line_gaps (v : Bool) : (writeBit v s).line.gaps = s.line.gaps := by simp [writeBit]
@[simp] theorem writeBit_bbm_sclDrv (v : Bool) : (writeBit v s).bbm.sclDrv = false := by simp [writeBit]
@[simp] theorem writeBit_bbm_sdaDrv (v : Bool) : (writeBit v s).bbm.sdaDrv = v := by simp [writeBit]
@[simp] theorem writeBit_bbm_bitacc (v : Bool) : (writeBit v s).bbm.bitacc = s.bbm.bitacc := by simp [writeBit]
@[simp] theorem writeBit_line_pScl (v : Bool) : (writeBit v s).line.pScl = s.line.pScl := by simp [writeBit]
@[simp] theorem writeBit_line_pSda (v : Bool) : (writeBit v s).line.pSda = s.line.pSda := by simp [writeBit]
@[simp] theorem writeBit_line_peers (v : Bool) : (writeBit v s).line.peers = s.line.peers := by simp [writeBit]

theorem writeBit_t0_lt (v : Bool) : (writeBit v s).bbm.t0 < 2 ^ s.cfg.tw := by
  have h := wait_t0_lt (driveScl false (wait 2 (driveScl true (wait 1 (driveSda v s))))) 1
  simpa [writeBit] using h

@[simp] theorem startCond_cfg : (startCond s).cfg = s.cfg := by simp [startCond]
@[simp] theorem startCond_als : (startCond s).als = s.als := by simp [startCond]
@[simp] theorem startCond_ctl : (startCond s).ctl = s.ctl := by simp [startCond]
@[simp] theorem startCond_store : (startCond s).store = s.store := by simp [startCond]
@[simp] theorem startCond_host : (startCond s).host = s.host := by simp [startCond]
@[simp] theorem startCond_bbm_sr : (startCond s).bbm.sr = s.bbm.sr := by simp [startCond]
@[simp] theorem startCond_bbm_phase : (startCond s).bbm.phase = s.bbm.phase := by simp [startCond]
@[simp] theorem startCond_bbm_txnAddr : (startCond s).bbm.txnAddr = s.bbm.txnAddr := by simp [startCond]
@[simp] theorem startCond_bbm_txnDir : (startCond s).bbm.txnDir = s.bbm.txnDir := by simp [startCond]
@[simp] theorem startCond_bbm_speed : (startCond s).bbm.speed = s.bbm.speed := by simp [startCond]
@[simp] theorem startCond_line_gaps : (startCond s).line.gaps = s.line.gaps := by simp [startCond]
@[simp] theorem startCond_bbm_sclDrv : (startCond s).bbm.sclDrv = false := by simp [startCond]
@[simp] theorem startCond_bbm_sdaDrv : (startCond s).bbm.sdaDrv = false := by simp [startCond]
@[simp] theorem startCond_bbm_bitacc : (startCond s).bbm.bitacc = s.bbm.bitacc := by simp [startCond]
@[simp] theorem startCond_line_pScl : (startCond s).line.pScl = s.line.pScl := by simp [startCond]
@[simp] theorem startCond_line_pSda : (startCond s).line.pSda = s.line.pSda := by simp [startCond]
@[simp] theorem startCond_line_peers : (startCond s).line.peers = s.line.peers := by simp [startCond]

theorem startCond_t0_lt : (startCond s).bbm.t0 < 2 ^ s.cfg.tw := by
  have h := wait_t0_lt (driveScl false (wait 1 (driveSda false s))) 1
  simpa [startCond] using h

@[simp] theorem stopCond_cfg : (stopCond s).cfg = s.cfg := by simp [stopCond]
@[simp] theorem stopCond_als : (stopCond s).als = s.als := by simp [stopCond]
@[simp] theorem stopCond_ctl : (stopCond s).ctl = s.ctl := by simp [stopCond]
@[simp] theorem stopCond_store : (stopCond s).store = s.store := by simp [stopCond]
@[simp] theorem stopCond_host : (stopCond s).host = s.host := by simp [stopCond]
@[simp] theorem stopCond_bbm_sr : (stopCond s).bbm.sr = s.bbm.sr := by simp [stopCond]
@[simp] theorem stopCond_bbm_phase : (stopCond s).bbm.phase = s.bbm.phase := by simp [stopCond]
@[simp] theorem stopCond_bbm_txnAddr : (stopCond s).bbm.txnAddr = s.bbm.txnAddr := by simp [stopCond]
@[simp] theorem stopCond_bbm_txnDir : (stopCond s).bbm.txnDir = s.bbm.txnDir := by simp [stopCond]
@[simp] theorem stopCond_bbm_speed : (stopCond s).bbm.speed = s.bbm.speed := by simp [stopCond]
@[simp] theorem stopCond_line_gaps : (stopCond s).line.gaps = s.line.gaps := by simp [stopCond]
@[simp] theorem stopCond_bbm_sclDrv : (stopCond s).bbm.sclDrv = true := by simp [stopCond]
@[simp] theorem stopCond_bbm_sdaDrv : (stopCond s).bbm.sdaDrv = true := by simp [stopCond]
@[simp] theorem stopCond_bbm_bitacc : (stopCond s).bbm.bitacc = s.bbm.bitacc := by simp [stopCond]
@[simp] theorem stopCond_line_pScl : (stopCond s).line.pScl = s.line.pScl := by simp [stopCond]
@[simp] theorem stopCond_line_pSda : (stopCond s).line.pSda = s.line.pSda := by simp [stopCond]
@[simp] theorem stopCond_line_peers : (stopCond s).line.peers = s.line.peers := by simp [stopCond]

theorem stopCond_t0_lt : (stopCond s).bbm.t0 < 2 ^ s.cfg.tw := by
  have h := wait_t0_lt (driveSda true (wait 1 (driveScl true s))) 1
  simpa [stopCond] using h

/-- The line writes of `WriteBit` (R139). -/
theorem writeBit_trace (v : Bool) :
    (writeBit v s).trace =
      .line .scl false (wait 2 (driveScl true (wait 1 (driveSda v s)))).line.ticks ::
        .line .scl true (wait 1 (driveSda v s)).line.ticks :: .line .sda v s.line.ticks :: s.trace := by
  simp [writeBit]

/-- The line writes of `StartCond` (R137). -/
theorem startCond_trace :
    (startCond s).trace =
      .line .scl false (wait 1 (driveSda false s)).line.ticks :: .line .sda false s.line.ticks :: s.trace := by
  simp [startCond]

/-- The line writes of `StopCond` (R138). -/
theorem stopCond_trace :
    (stopCond s).trace =
      .line .sda true (wait 1 (driveScl true s)).line.ticks :: .line .scl true s.line.ticks :: s.trace := by
  simp [stopCond]

/-- `WriteBit` lasts more than four units (R139, R285). -/
theorem writeBit_spec (v : Bool) (h : s.cfg.ok s.bbm.speed = true) :
    s.line.ticks + 4 * s.unit < (writeBit v s).line.ticks ∧
      (writeBit v s).line.ticks < s.line.ticks + 4 * s.unit + 6 * s.cfg.dtMax := by
  have h1 := wait_spec_ok (driveSda v s) 1 h (by omega) (by omega)
  have h2 := wait_spec_ok (driveScl true (wait 1 (driveSda v s))) 2 (by simpa using h) (by omega) (by omega)
  have h3 := wait_spec_ok (driveScl false (wait 2 (driveScl true (wait 1 (driveSda v s))))) 1 (by simpa using h)
    (by omega) (by omega)
  simp only [unit_eq, driveSda_cfg, driveScl_cfg, wait_cfg, driveSda_bbm_speed, driveScl_bbm_speed, wait_bbm_speed,
    driveSda_line, driveScl_line] at h1 h2 h3
  simp only [writeBit, unit_eq]
  omega

/-- `StartCond` lasts more than two units (R285). -/
theorem startCond_spec (h : s.cfg.ok s.bbm.speed = true) :
    s.line.ticks + 2 * s.unit < (startCond s).line.ticks ∧
      (startCond s).line.ticks < s.line.ticks + 2 * s.unit + 4 * s.cfg.dtMax := by
  have h1 := wait_spec_ok (driveSda false s) 1 h (by omega) (by omega)
  have h2 := wait_spec_ok (driveScl false (wait 1 (driveSda false s))) 1 (by simpa using h) (by omega) (by omega)
  simp only [unit_eq, driveSda_cfg, driveScl_cfg, wait_cfg, driveSda_bbm_speed, driveScl_bbm_speed, wait_bbm_speed,
    driveSda_line, driveScl_line] at h1 h2
  simp only [startCond, unit_eq]
  omega

/-- `StopCond` lasts more than two units (R285). -/
theorem stopCond_spec (h : s.cfg.ok s.bbm.speed = true) :
    s.line.ticks + 2 * s.unit < (stopCond s).line.ticks ∧
      (stopCond s).line.ticks < s.line.ticks + 2 * s.unit + 4 * s.cfg.dtMax := by
  have h1 := wait_spec_ok (driveScl true s) 1 h (by omega) (by omega)
  have h2 := wait_spec_ok (driveSda true (wait 1 (driveScl true s))) 1 (by simpa using h) (by omega) (by omega)
  simp only [unit_eq, driveSda_cfg, driveScl_cfg, wait_cfg, driveSda_bbm_speed, driveScl_bbm_speed, wait_bbm_speed,
    driveSda_line, driveScl_line] at h1 h2
  simp only [stopCond, unit_eq]
  omega

theorem writeBit_ticks_le (v : Bool) : s.line.ticks ≤ (writeBit v s).line.ticks :=
  Nat.le_trans (Nat.le_trans (wait_ticks_le (driveSda v s) 1) (wait_ticks_le (driveScl true (wait 1 (driveSda v s))) 2))
    (wait_ticks_le (driveScl false (wait 2 (driveScl true (wait 1 (driveSda v s))))) 1)

theorem writeBit_lineOnly (v : Bool) : LineOnly s (writeBit v s) := by
  constructor <;> first | exact writeBit_ticks_le s v | simp

theorem startCond_lineOnly : LineOnly s (startCond s) := by
  constructor <;>
    first
    | exact Nat.le_trans (wait_ticks_le (driveSda false s) 1) (wait_ticks_le (driveScl false (wait 1 (driveSda false s))) 1)
    | simp

theorem stopCond_lineOnly : LineOnly s (stopCond s) := by
  constructor <;>
    first
    | exact Nat.le_trans (wait_ticks_le (driveScl true s) 1) (wait_ticks_le (driveSda true (wait 1 (driveScl true s))) 1)
    | simp

/-! Samples and bit reads (R132, R140 to R144). -/

theorem sample_lineOnly : LineOnly s (sample s) := by
  constructor <;> first | exact Eq.refl _ | exact Nat.le_add_right _ _

@[simp] theorem sample_ticks : (sample s).line.ticks = s.line.ticks + advanceAmount s := rfl
@[simp] theorem sample_cfg : (sample s).cfg = s.cfg := rfl
@[simp] theorem sample_bbm : (sample s).bbm = s.bbm := rfl

theorem readPoll_lineOnly (fuel : Nat) : LineOnly s (readPoll fuel s) := by
  induction fuel generalizing s with
  | zero => exact LineOnly.rfl
  | succ fuel ih =>
    unfold readPoll
    have hs := sample_lineOnly s
    split
    · exact hs
    · split
      · refine hs.trans (LineOnly.trans ?_ (ih _))
        split
        · exact LineOnly.rfl
        · constructor <;> first | exact Eq.refl _ | exact Nat.le_refl _
      · split
        · exact hs
        · exact hs.trans (ih _)

@[simp] theorem readPoll_t0 (fuel : Nat) : (readPoll fuel s).bbm.t0 = s.bbm.t0 := by
  induction fuel generalizing s with
  | zero => rfl
  | succ fuel ih =>
    unfold readPoll
    split
    · rfl
    · split
      · rw [ih]; split <;> rfl
      · split
        · rfl
        · rw [ih]; rfl

@[simp] theorem readBit_sclDrv : (readBit s).bbm.sclDrv = false := rfl
@[simp] theorem readBit_sdaDrv : (readBit s).bbm.sdaDrv = false := rfl

theorem readBitOpen_lineOnly : LineOnly s (readBitOpen s) := by
  constructor <;>
    first
    | exact Nat.le_trans (wait_ticks_le (driveSda true (driveScl false s)) 1) (Nat.le_add_right _ _)
    | simp [readBitOpen]

theorem readBit_lineOnly : LineOnly s (readBit s) := by
  have h := (readBitOpen_lineOnly s).trans (readPoll_lineOnly (readBitOpen s) s.bitWindow)
  exact ⟨h.cfg, h.als, h.ctl, h.store, h.host, h.sr, h.phase, h.txnAddr, h.txnDir, h.speed, h.gaps, h.ticks_le⟩

@[simp] theorem readBit_cfg : (readBit s).cfg = s.cfg := (readBit_lineOnly s).cfg
@[simp] theorem readBit_als : (readBit s).als = s.als := (readBit_lineOnly s).als
@[simp] theorem readBit_ctl : (readBit s).ctl = s.ctl := (readBit_lineOnly s).ctl
@[simp] theorem readBit_store : (readBit s).store = s.store := (readBit_lineOnly s).store
@[simp] theorem readBit_host : (readBit s).host = s.host := (readBit_lineOnly s).host
@[simp] theorem readBit_bbm_sr : (readBit s).bbm.sr = s.bbm.sr := (readBit_lineOnly s).sr
@[simp] theorem readBit_bbm_phase : (readBit s).bbm.phase = s.bbm.phase := (readBit_lineOnly s).phase
@[simp] theorem readBit_bbm_txnAddr : (readBit s).bbm.txnAddr = s.bbm.txnAddr := (readBit_lineOnly s).txnAddr
@[simp] theorem readBit_bbm_txnDir : (readBit s).bbm.txnDir = s.bbm.txnDir := (readBit_lineOnly s).txnDir
@[simp] theorem readBit_bbm_speed : (readBit s).bbm.speed = s.bbm.speed := (readBit_lineOnly s).speed
@[simp] theorem readBit_line_gaps : (readBit s).line.gaps = s.line.gaps := (readBit_lineOnly s).gaps

theorem readBitOpen_t0 : (readBitOpen s).bbm.t0 = (readBitOpen s).line.ticks % 2 ^ s.cfg.tw := by
  simp [readBitOpen, State.time]

theorem readBit_t0_lt : (readBit s).bbm.t0 < 2 ^ s.cfg.tw := by
  show (readPoll s.bitWindow (readBitOpen s)).bbm.t0 < _
  rw [readPoll_t0, readBitOpen_t0]
  exact Nat.mod_lt _ (Nat.two_pow_pos _)

theorem writeBits_lineOnly (is : List Nat) : LineOnly s (writeBits is s) := by
  induction is generalizing s with
  | nil => exact LineOnly.rfl
  | cons i is ih => exact (writeBit_lineOnly s _).trans (ih _)

@[simp] theorem writeBits_cfg (is : List Nat) : (writeBits is s).cfg = s.cfg := (writeBits_lineOnly s is).cfg
@[simp] theorem writeBits_als (is : List Nat) : (writeBits is s).als = s.als := (writeBits_lineOnly s is).als
@[simp] theorem writeBits_ctl (is : List Nat) : (writeBits is s).ctl = s.ctl := (writeBits_lineOnly s is).ctl
@[simp] theorem writeBits_store (is : List Nat) : (writeBits is s).store = s.store := (writeBits_lineOnly s is).store
@[simp] theorem writeBits_host (is : List Nat) : (writeBits is s).host = s.host := (writeBits_lineOnly s is).host
@[simp] theorem writeBits_bbm_sr (is : List Nat) : (writeBits is s).bbm.sr = s.bbm.sr := (writeBits_lineOnly s is).sr
@[simp] theorem writeBits_bbm_phase (is : List Nat) : (writeBits is s).bbm.phase = s.bbm.phase := (writeBits_lineOnly s is).phase
@[simp] theorem writeBits_bbm_txnAddr (is : List Nat) : (writeBits is s).bbm.txnAddr = s.bbm.txnAddr := (writeBits_lineOnly s is).txnAddr
@[simp] theorem writeBits_bbm_txnDir (is : List Nat) : (writeBits is s).bbm.txnDir = s.bbm.txnDir := (writeBits_lineOnly s is).txnDir
@[simp] theorem writeBits_bbm_speed (is : List Nat) : (writeBits is s).bbm.speed = s.bbm.speed := (writeBits_lineOnly s is).speed
@[simp] theorem writeBits_line_gaps (is : List Nat) : (writeBits is s).line.gaps = s.line.gaps := (writeBits_lineOnly s is).gaps

end

end Sys2Proof.Machine
end

