-- ==== Sys2Proof/Laws/Poll.lean ====
section
/-! SUPPORT. What a bit read can do, said once (R140 to R144): its samples, where its poll ends, the bit, the draws it uses
and the time it takes. -/

namespace Sys2Proof.Machine

theorem Draws.take_succ {α : Type} (free : Nat → α) (n : Nat) (d : Draws α) :
    d.take free (n + 1) = d.head free :: d.tail.take free n := rfl

theorem Draws.drop_succ {α : Type} (n : Nat) (d : Draws α) : d.drop (n + 1) = d.tail.drop n := rfl

@[simp] theorem Draws.take_length {α : Type} (free : Nat → α) (n : Nat) (d : Draws α) : (d.take free n).length = n := by
  induction n generalizing d with
  | zero => rfl
  | succ n ih => simp [Draws.take_succ, ih]

/-- The values taken are the ones `nth` numbers. -/
theorem Draws.take_eq {α : Type} (free : Nat → α) (n : Nat) (d : Draws α) :
    d.take free n = (List.range n).map (d.nth free) := by
  induction n generalizing d with
  | zero => rfl
  | succ n ih =>
    rw [Draws.take_succ, ih, List.range_succ_eq_map, List.map_cons, List.map_map]
    rfl

theorem Draws.nth_drop {α : Type} (free : Nat → α) (n k : Nat) (d : Draws α) :
    (d.drop n).nth free k = d.nth free (n + k) := by
  induction n generalizing d with
  | zero => simp [Draws.drop]
  | succ n ih => rw [Draws.drop_succ, ih, Nat.add_right_comm]; rfl

/-- The sample a state stands at after `Sample()`. -/
def sampleOf (s : State) : Sample := { ticks := s.line.ticks, scl := sclLevel s, sda := sdaLevel s }

theorem sample_trace (s : State) : (sample s).trace = (sampleOf (sample s)).event :: s.trace := rfl

theorem sample_peers (s : State) : (sample s).line.peers = s.line.peers.tail := rfl

/-- Elapsed time is the ticks since the stamp, within one turn of TIME (R13, R136). -/
theorem Sample.since_eq (c : Config) (a t0 : Nat) (x : Sample) (h0 : t0 = a % 2 ^ c.tw) (ha : a ≤ x.ticks)
    (hlt : x.ticks < a + 2 ^ c.tw) : x.since c t0 = x.ticks - a := by
  have h := elapsed_add c.tw a (x.ticks - a)
  rw [Nat.add_sub_cancel' ha, Nat.mod_eq_of_lt (show x.ticks - a < 2 ^ c.tw by omega)] at h
  rw [Sample.since, h0, h]

theorem sampleOf_since (s : State) (t0 : Nat) : (sampleOf s).since s.cfg t0 = elapsed s.cfg.tw s.time t0 := rfl

/-- With both latches released the wires show what the peer draws (R131). -/
theorem sampleOf_sample (s : State) (hc : s.bbm.sclDrv = true) (hd : s.bbm.sdaDrv = true) :
    sampleOf (sample s) =
      { ticks := s.line.ticks + advanceAmount s
        scl := (s.line.peers.head freePeer).scl
        sda := (s.line.peers.head freePeer).sda } := by
  have h1 : sclLevel (sample s) = (s.bbm.sclDrv && (s.line.peers.head freePeer).scl) := rfl
  have h2 : sdaLevel (sample s) = (s.bbm.sdaDrv && (s.line.peers.head freePeer).sda) := rfl
  simp [sampleOf, h1, h2, hc, hd]

/-- What one poll of `ReadBit` did: the samples after which it went on, the one that ended it, and the rest. -/
structure Polled (a : Nat) (s s' : State) (polls : List Sample) (last : Sample) : Prop where
  trace : s'.trace = last.event :: ((polls.map Sample.event).reverse ++ s.trace)
  polls_go_on : ∀ x ∈ polls, x.goesOn s.cfg s.bbm.speed s.bbm.t0 = true
  last_ends : last.goesOn s.cfg s.bbm.speed s.bbm.t0 = false
  bit : s'.bbm.bitacc = (s.bbm.bitacc && bitOf s.cfg s.bbm.speed s.bbm.t0 polls)
  ticks : s'.line.ticks = last.ticks
  after : s.line.ticks < last.ticks
  polls_before : ∀ x ∈ polls, s.line.ticks < x.ticks ∧ x.ticks < a + s.cfg.bitWindow s.bbm.speed
  last_follows : (last.ticks ≤ s.line.ticks + s.cfg.dtMax) ∨ ∃ x ∈ polls, last.ticks ≤ x.ticks + s.cfg.dtMax
  before : last.ticks < a + s.cfg.bitWindow s.bbm.speed + s.cfg.dtMax
  draws : s.bbm.sclDrv = true → s.bbm.sdaDrv = true →
    (polls ++ [last]).map (fun x => (x.scl, x.sda)) =
      (s.line.peers.take freePeer (polls.length + 1)).map (fun p => (p.scl, p.sda))
  peers : s'.line.peers = s.line.peers.drop (polls.length + 1)
  length : polls.length + 1 ≤ a + s.cfg.bitWindow s.bbm.speed - s.line.ticks
  steps : ∀ k x, (polls ++ [last])[k]? = some x →
    s.line.ticks ≤ x.ticks ∧ x.ticks ≤ s.line.ticks + (k + 1) * s.cfg.dtMax

/-- The poll of `ReadBit`, begun at tick `a` (R140 to R143). -/
theorem readPoll_spec (fuel a : Nat) (s : State) (hdt : 1 ≤ s.cfg.dtMax)
    (hw : s.cfg.bitWindow s.bbm.speed + s.cfg.dtMax ≤ 2 ^ s.cfg.tw) (h0 : s.bbm.t0 = a % 2 ^ s.cfg.tw)
    (ha : a ≤ s.line.ticks) (hlt : s.line.ticks < a + s.cfg.bitWindow s.bbm.speed)
    (hf : a + s.cfg.bitWindow s.bbm.speed ≤ s.line.ticks + fuel) :
    ∃ polls last, Polled a s (readPoll fuel s) polls last := by
  induction fuel generalizing s with
  | zero => omega
  | succ fuel ih =>
    have hp := advanceAmount_pos s
    have hq := advanceAmount_le s hdt
    have hsince : sinceStamp (sample s) = s.line.ticks + advanceAmount s - a :=
      sinceStamp_eq (sample s) a h0 (by simp only [sample_ticks]; omega)
        (by simp only [sample_ticks, sample_cfg]; omega)
    have hx : (sampleOf (sample s)).since s.cfg s.bbm.t0 = sinceStamp (sample s) := rfl
    have hdraw : s.bbm.sclDrv = true → s.bbm.sdaDrv = true →
        ((sampleOf (sample s)).scl, (sampleOf (sample s)).sda) =
          ((s.line.peers.head freePeer).scl, (s.line.peers.head freePeer).sda) := by
      intro hc hd; rw [sampleOf_sample s hc hd]
    by_cases hgo : (sampleOf (sample s)).goesOn s.cfg s.bbm.speed s.bbm.t0 = true
    · -- the poll goes on from the next state
      have hgo' := hgo
      simp only [Sample.goesOn, hx, Bool.and_eq_true, Bool.or_eq_true, decide_eq_true_eq] at hgo'
      obtain ⟨hbit, hor⟩ := hgo'
      obtain ⟨s1, hs1, hs1c, hs1b, hs1t, hs1l⟩ :
          ∃ s1, readPoll (fuel + 1) s = readPoll fuel s1 ∧ s1.cfg = s.cfg ∧
            s1.bbm = { s.bbm with bitacc := s.bbm.bitacc && bitOf s.cfg s.bbm.speed s.bbm.t0 [sampleOf (sample s)] } ∧
            s1.trace = (sampleOf (sample s)).event :: s.trace ∧ s1.line = (sample s).line := by
        have hnb : ¬ s.bitWindow ≤ sinceStamp (sample s) := by simp only [bitWindow_eq]; omega
        by_cases hscl : sclLevel (sample s) = true
        · refine ⟨if sdaLevel (sample s) then sample s else setBitacc false (sample s), ?_, ?_, ?_, ?_, ?_⟩
          · rw [readPoll, if_neg hnb, if_pos hscl]
          · split <;> rfl
          · have hact : (sampleOf (sample s)).active s.cfg s.bbm.speed s.bbm.t0 = true := by
              simp only [Sample.active, hx, Bool.and_eq_true, decide_eq_true_eq]
              exact ⟨hbit, hscl⟩
            have hsda : (sampleOf (sample s)).sda = sdaLevel (sample s) := rfl
            by_cases hd : sdaLevel (sample s) = true
            · simp [hd, bitOf, hact, hsda]
            · simp [hd, bitOf, hact, hsda, setBitacc]
          · split <;> rfl
          · split <;> rfl
        · refine ⟨sample s, ?_, rfl, ?_, rfl, rfl⟩
          · have hns : ¬ s.stretch ≤ sinceStamp (sample s) := by
              rcases hor with h | h
              · exact absurd h hscl
              · simp only [stretch_eq]; omega
            rw [readPoll, if_neg hnb, if_neg hscl, if_neg hns]
          · have hact : (sampleOf (sample s)).active s.cfg s.bbm.speed s.bbm.t0 = false := by
              have : (sampleOf (sample s)).scl = sclLevel (sample s) := rfl
              simp [Sample.active, this, hscl]
            simp [bitOf, hact]
      have htk : s1.line.ticks = s.line.ticks + advanceAmount s := by rw [hs1l]; rfl
      have hspd : s1.bbm.speed = s.bbm.speed := by rw [hs1b]
      have ht0 : s1.bbm.t0 = s.bbm.t0 := by rw [hs1b]
      obtain ⟨polls, last, hP⟩ := ih s1 (by rw [hs1c]; exact hdt) (by rw [hs1c, hspd]; exact hw)
        (by rw [ht0, hs1c]; exact h0) (by omega) (by rw [hs1c, hspd]; omega) (by rw [hs1c, hspd]; omega)
      obtain ⟨ptr, pgo, plast, pbit, ptk, paf, pbf, pfo, pbe, pdr, ppe, plen, pst⟩ := hP
      simp only [hs1c, hspd, ht0] at pgo plast pbit pbf pfo pbe plen pst
      have hstk : (sampleOf (sample s)).ticks = s.line.ticks + advanceAmount s := rfl
      refine ⟨sampleOf (sample s) :: polls, last, ?_, ?_, plast, ?_, ?_, ?_, ?_, ?_, pbe, ?_, ?_, ?_, ?_⟩
      · rw [hs1, ptr, hs1t]; simp
      · intro x hxm
        rcases List.mem_cons.1 hxm with rfl | hxm
        · exact hgo
        · exact pgo x hxm
      · rw [hs1, pbit, hs1b]; simp [bitOf, Bool.and_assoc]
      · rw [hs1, ptk]
      · omega
      · intro x hxm
        rcases List.mem_cons.1 hxm with rfl | hxm
        · omega
        · have := pbf x hxm
          omega
      · rcases pfo with h | ⟨x, hxm, h⟩
        · exact .inr ⟨_, List.mem_cons_self, by omega⟩
        · exact .inr ⟨x, List.mem_cons_of_mem _ hxm, h⟩
      · intro hc hd
        have h1 := pdr (by rw [hs1b]; exact hc) (by rw [hs1b]; exact hd)
        rw [hs1l, sample_peers] at h1
        simp only [List.length_cons, List.cons_append, List.map_cons]
        rw [Draws.take_succ, List.map_cons, ← h1, hdraw hc hd]
      · rw [hs1, ppe, hs1l, sample_peers]; rfl
      · simp only [List.length_cons]; omega
      · intro k x hx
        cases k with
        | zero =>
          have he : sampleOf (sample s) = x := by simpa using hx
          rw [← he]
          show s.line.ticks ≤ s.line.ticks + advanceAmount s ∧ s.line.ticks + advanceAmount s ≤ _
          omega
        | succ k =>
          have h1 := pst k x (by simpa using hx)
          have h2 : (k + 1 + 1) * s.cfg.dtMax = (k + 1) * s.cfg.dtMax + s.cfg.dtMax := by ring
          omega
    · -- this sample ends the poll
      have hend : readPoll (fuel + 1) s = sample s := by
        rw [readPoll]
        by_cases hb : s.bitWindow ≤ sinceStamp (sample s)
        · rw [if_pos hb]
        · have hscl : ¬ sclLevel (sample s) = true := by
            intro h
            apply hgo
            simp only [Sample.goesOn, hx, Bool.and_eq_true, Bool.or_eq_true, decide_eq_true_eq]
            exact ⟨by simp only [bitWindow_eq] at hb; omega, .inl h⟩
          have hst : s.stretch ≤ sinceStamp (sample s) := by
            by_contra h
            apply hgo
            simp only [Sample.goesOn, hx, Bool.and_eq_true, Bool.or_eq_true, decide_eq_true_eq]
            exact ⟨by simp only [bitWindow_eq] at hb; omega, .inr (by simp only [stretch_eq] at h; omega)⟩
          rw [if_neg hb, if_neg hscl, if_pos hst]
      refine ⟨[], sampleOf (sample s), ?_⟩
      rw [hend]
      refine ⟨by simp [sample_trace], by simp, by simpa using hgo, by simp [bitOf], rfl, ?_, by simp, .inl ?_, ?_, ?_, rfl, ?_, ?_⟩
      · show s.line.ticks < s.line.ticks + advanceAmount s; omega
      · show s.line.ticks + advanceAmount s ≤ _; omega
      · show s.line.ticks + advanceAmount s < _; omega
      · intro hc hd
        simpa [Draws.take] using hdraw hc hd
      · simp only [List.length_nil]; omega
      · intro k x hx
        cases k with
        | zero =>
          have he : sampleOf (sample s) = x := by simpa using hx
          rw [← he]
          show s.line.ticks ≤ s.line.ticks + advanceAmount s ∧ s.line.ticks + advanceAmount s ≤ _
          omega
        | succ k => simp at hx

/-- What one `ReadBit` did. -/
structure ReadsBit (s : State) (clk : Nat) (polls : List Sample) (last : Sample) : Prop where
  trace : (readBit s).trace =
    .line .sda false last.ticks :: .line .scl false last.ticks :: last.event ::
      ((polls.map Sample.event).reverse ++
        .line .scl true clk :: .line .sda true s.line.ticks :: .line .scl false s.line.ticks :: s.trace)
  polls_go_on : ∀ x ∈ polls, x.goesOn s.cfg s.bbm.speed (readBit s).bbm.t0 = true
  last_ends : last.goesOn s.cfg s.bbm.speed (readBit s).bbm.t0 = false
  bit : (readBit s).bbm.bitacc = bitOf s.cfg s.bbm.speed (readBit s).bbm.t0 polls
  ticks : (readBit s).line.ticks = last.ticks
  clk_eq : clk = (wait 1 (driveSda true (driveScl false s))).line.ticks
  clk_after : s.line.ticks + s.unit < clk
  clk_before : clk < s.line.ticks + s.unit + 2 * s.cfg.dtMax
  last_after : clk + 1 < last.ticks
  last_before : last.ticks < clk + s.bitWindow + 2 * s.cfg.dtMax
  stamped : ∃ a, clk < a ∧ (readBit s).bbm.t0 = a % 2 ^ s.cfg.tw ∧ a < last.ticks ∧
    last.ticks < a + s.bitWindow + s.cfg.dtMax ∧ (∀ x ∈ polls, a < x.ticks ∧ x.ticks < a + s.bitWindow) ∧
    (last.ticks ≤ a + s.cfg.dtMax ∨ ∃ x ∈ polls, last.ticks ≤ x.ticks + s.cfg.dtMax)
  since : sinceStamp (readBit s) < s.bitWindow + s.cfg.dtMax
  draws : (polls ++ [last]).map (fun x => (x.scl, x.sda)) =
    (s.line.peers.take freePeer (polls.length + 1)).map (fun p => (p.scl, p.sda))
  peers : (readBit s).line.peers = s.line.peers.drop (polls.length + 1)
  length : polls.length + 1 ≤ s.bitWindow
  since_le : ∀ k x, (polls ++ [last])[k]? = some x → x.since s.cfg (readBit s).bbm.t0 ≤ (k + 1) * s.cfg.dtMax

/-- What `ReadBit` does in a block with a legal configuration (R140 to R145). -/
theorem readBit_spec (s : State) (h : s.cfg.ok s.bbm.speed = true) :
    ∃ clk polls last, ReadsBit s clk polls last := by
  obtain ⟨hu, hdt, hw⟩ := configOk_waits _ _ h
  obtain ⟨h1, h2, h3⟩ := configOk_windows _ _ h
  have hwait := wait_spec_ok (driveSda true (driveScl false s)) 1 h (by omega) (by omega)
  have hcfg : (readBitOpen s).cfg = s.cfg := (readBitOpen_lineOnly s).cfg
  have hspeed : (readBitOpen s).bbm.speed = s.bbm.speed := (readBitOpen_lineOnly s).speed
  obtain ⟨s0, hs0⟩ : ∃ s0, s0 = driveScl true (wait 1 (driveSda true (driveScl false s))) := ⟨_, rfl⟩
  have hticks : (readBitOpen s).line.ticks = s0.line.ticks + advanceAmount s0 := by rw [hs0]; rfl
  have hs0t : s0.line.ticks = (wait 1 (driveSda true (driveScl false s))).line.ticks := by rw [hs0]; rfl
  have hs0c : s0.cfg = s.cfg := by rw [hs0]; simp
  have hp := advanceAmount_pos s0
  have hq := advanceAmount_le s0 (by rw [hs0c]; exact hdt)
  rw [hs0c] at hq
  simp only [unit_eq, driveSda_cfg, driveScl_cfg, driveSda_bbm_speed, driveScl_bbm_speed, driveSda_line,
    driveScl_line] at hwait
  have hspec := readPoll_spec s.bitWindow (readBitOpen s).line.ticks (readBitOpen s) (by rw [hcfg]; exact hdt)
    (by rw [hcfg, hspeed]; exact h3) (by rw [readBitOpen_t0, hcfg]) (Nat.le_refl _) (by rw [hcfg, hspeed]; omega)
    (by rw [hcfg, hspeed, bitWindow_eq])
  obtain ⟨polls, last, hP⟩ := hspec
  have hbit : (readBitOpen s).bbm.bitacc = true := rfl
  have hpeers : (readBitOpen s).line.peers = s.line.peers := by simp [readBitOpen]
  have hdrv : (readBitOpen s).bbm.sclDrv = true ∧ (readBitOpen s).bbm.sdaDrv = true := by simp [readBitOpen]
  have htr : (readBitOpen s).trace =
      .line .scl true s0.line.ticks :: .line .sda true s.line.ticks :: .line .scl false s.line.ticks :: s.trace := by
    rw [hs0t]; simp [readBitOpen]
  have ht0 : (readBit s).bbm.t0 = (readBitOpen s).bbm.t0 := by
    show (readPoll s.bitWindow (readBitOpen s)).bbm.t0 = _
    rw [readPoll_t0]
  have hrt : (readBit s).line.ticks = last.ticks := by
    show (readPoll s.bitWindow (readBitOpen s)).line.ticks = _
    exact hP.ticks
  have hwidth := hP.before
  have hafter := hP.after
  have hlen := hP.length
  rw [hcfg, hspeed] at hwidth hlen
  refine ⟨s0.line.ticks, polls, last, ?_, ?_, ?_, ?_, hrt, hs0t, ?_, ?_, ?_, ?_, ?_, ?_, ?_, ?_, ?_, ?_⟩
  · show TraceEvent.line .sda false (readPoll s.bitWindow (readBitOpen s)).line.ticks ::
      .line .scl false (readPoll s.bitWindow (readBitOpen s)).line.ticks ::
        (readPoll s.bitWindow (readBitOpen s)).trace = _
    rw [hP.ticks, hP.trace, htr]
  · rw [ht0]; intro x hx; have := hP.polls_go_on x hx; rwa [hcfg, hspeed] at this
  · rw [ht0]; have := hP.last_ends; rwa [hcfg, hspeed] at this
  · rw [ht0]; have := hP.bit; rw [hbit, hcfg, hspeed, Bool.true_and] at this; exact this
  · simp only [unit_eq]; omega
  · simp only [unit_eq]; omega
  · omega
  · simp only [bitWindow_eq]; omega
  · refine ⟨(readBitOpen s).line.ticks, by omega, by rw [ht0, readBitOpen_t0], hafter,
      by simp only [bitWindow_eq]; omega, fun x hx => ?_, ?_⟩
    · have := hP.polls_before x hx
      rwa [hcfg, hspeed] at this
    · have := hP.last_follows
      rwa [hcfg] at this
  · have hs : sinceStamp (readBit s) = (readBit s).line.ticks - (readBitOpen s).line.ticks := by
      apply sinceStamp_eq
      · rw [ht0, readBitOpen_t0, readBit_cfg]
      · omega
      · rw [readBit_cfg]; omega
    rw [hs]; simp only [bitWindow_eq]; omega
  · rw [hP.draws hdrv.1 hdrv.2, hpeers]
  · show (readPoll s.bitWindow (readBitOpen s)).line.peers = _
    rw [hP.peers, hpeers]
  · simp only [bitWindow_eq]; omega
  · intro k x hx
    obtain ⟨hle, hge⟩ := hP.steps k x hx
    rw [hcfg] at hge
    obtain ⟨d, hd⟩ := Nat.exists_eq_add_of_le hle
    rw [Sample.since, ht0, readBitOpen_t0, hd, elapsed_add]
    exact Nat.le_trans (Nat.mod_le _ _) (by omega)

/-! What the peer's behaviour makes of the bit (R141 to R143). -/

theorem ReadsBit.levels {s : State} {clk : Nat} {polls : List Sample} {last : Sample} (h : ReadsBit s clk polls last)
    (x : Sample) (hx : x ∈ polls) :
    ∃ k, k < s.bitWindow ∧ x.scl = (s.line.peers.nth freePeer k).scl ∧ x.sda = (s.line.peers.nth freePeer k).sda := by
  have hm : (x.scl, x.sda) ∈ (polls ++ [last]).map (fun x => (x.scl, x.sda)) :=
    List.mem_map.2 ⟨x, by simp [hx], rfl⟩
  rw [h.draws, Draws.take_eq, List.map_map] at hm
  obtain ⟨k, hk, he⟩ := List.mem_map.1 hm
  have hlen := h.length
  refine ⟨k, by have := List.mem_range.1 hk; omega, ?_⟩
  simp only [Function.comp_apply, Prod.mk.injEq] at he
  exact ⟨he.1.symm, he.2.symm⟩

/-- On an idle bus the bit is the idle-line default 1 (R143). -/
theorem readBit_idle (s : State) (h : s.cfg.ok s.bbm.speed = true) (hp : PeerIdle s.bitWindow s) :
    (readBit s).bbm.bitacc = true := by
  obtain ⟨clk, polls, last, hR⟩ := readBit_spec s h
  rw [hR.bit, bitOf, List.all_eq_true]
  intro x hx
  obtain ⟨k, hk, -, hd⟩ := hR.levels x hx
  simp [hd, hp k hk]

/-- A peer that stretches throughout yields the idle-line default 1 (R142, R143). -/
theorem readBit_stretched (s : State) (h : s.cfg.ok s.bbm.speed = true) (hp : PeerStretches s.bitWindow s) :
    (readBit s).bbm.bitacc = true := by
  obtain ⟨clk, polls, last, hR⟩ := readBit_spec s h
  rw [hR.bit, bitOf, List.all_eq_true]
  intro x hx
  obtain ⟨k, hk, hc, -⟩ := hR.levels x hx
  simp [Sample.active, hc, hp k hk]

/-- A peer that holds data low throughout gives the bit 0, when the first sample falls inside the bit window. -/
theorem readBit_pulled (s : State) (h : s.cfg.ok s.bbm.speed = true) (hd : s.cfg.dtMax < s.bitWindow)
    (hp : PeerPullsData s.bitWindow s) : (readBit s).bbm.bitacc = false := by
  obtain ⟨clk, polls, last, hR⟩ := readBit_spec s h
  have hdraw := hR.draws
  have hfirst := hR.since_le 0
  have hends := hR.last_ends
  have hpos : 0 < s.bitWindow := by omega
  rw [Draws.take_eq, List.map_map, List.range_succ_eq_map, List.map_cons] at hdraw
  simp only [Function.comp_apply, hp 0 hpos] at hdraw
  cases polls with
  | nil =>
    simp only [List.nil_append, List.map_cons, List.map_nil, List.cons.injEq, Prod.mk.injEq, List.getElem?_cons_zero,
      Option.some.injEq, forall_eq', Nat.zero_add, Nat.one_mul] at hdraw hfirst
    obtain ⟨⟨hc, -⟩, -⟩ := hdraw
    have : last.since s.cfg (readBit s).bbm.t0 < s.cfg.bitWindow s.bbm.speed := by
      simp only [bitWindow_eq] at hd; omega
    simp [Sample.goesOn, hc, this] at hends
  | cons x polls =>
    simp only [List.cons_append, List.map_cons, List.cons.injEq, Prod.mk.injEq, List.getElem?_cons_zero,
      Option.some.injEq, forall_eq', Nat.zero_add, Nat.one_mul] at hdraw hfirst
    obtain ⟨⟨hc, hsd⟩, -⟩ := hdraw
    have hlt : x.since s.cfg (readBit s).bbm.t0 < s.cfg.bitWindow s.bbm.speed := by
      simp only [bitWindow_eq] at hd; omega
    rw [hR.bit]
    simp [bitOf, Sample.active, hc, hsd, hlt]

end Sys2Proof.Machine
end

