-- ==== Sys2Proof/Laws/Bus.lean ====
section
/-! SUPPORT. What the sequences of unit BBM show on the lines and the status port, and the frame of each (R137 to R140,
R161 to R167). -/

namespace Sys2Proof.Machine

theorem Shows.of_trace_eq {s s' : State} (h : s'.trace = s.trace) : Shows s s' [] [] [] [] :=
  ⟨[], by simp [Emits, h], rfl, rfl, rfl, rfl⟩

theorem Shows.of_event {s s' : State} (e : TraceEvent) (h : s'.trace = e :: s.trace) :
    Shows s s' (lineWrites [e]) (phasesOf [e]) (requestsOf [e]) (responsesOf [e]) :=
  ⟨[e], by simp [Emits, h], rfl, rfl, rfl, rfl⟩

theorem Shows.trans {a b c : State} {l l' : List (Line × Bool)} {p p' : List Phase} {q q' : List StoreRequest}
    {r r' : List (Status × Nat)} (h : Shows a b l p q r) (h' : Shows b c l' p' q' r') :
    Shows a c (l ++ l') (p ++ p') (q ++ q') (r ++ r') := by
  obtain ⟨e, he, rfl, rfl, rfl, rfl⟩ := h
  obtain ⟨e', he', rfl, rfl, rfl, rfl⟩ := h'
  unfold Emits at he he'
  exact ⟨e ++ e', by rw [Emits, he', he]; simp, by simp [lineWrites], by simp [phasesOf], by simp [requestsOf],
    by simp [responsesOf]⟩

/-- The same step between states whose traces agree. -/
theorem Shows.congr {a b a' b' : State} {l : List (Line × Bool)} {p : List Phase} {q : List StoreRequest}
    {r : List (Status × Nat)} (h : Shows a b l p q r) (ha : a'.trace = a.trace) (hb : b'.trace = b.trace) :
    Shows a' b' l p q r := by
  obtain ⟨e, he, h⟩ := h
  exact ⟨e, by rw [Emits, ha, hb]; exact he, h⟩

theorem loadFrame_shows (addr : DeviceAddress) (dir : Direction) (s : State) :
    Shows s (loadFrame addr dir s) [] [] [] [] := Shows.of_event (.transaction addr dir) rfl

theorem setLogValid_shows (v : Bool) (s : State) : Shows s (setLogValid v s) [] [] [] [] :=
  Shows.of_event (.logValid v) rfl

theorem setWriteOffset_shows (i : IndexWord) (s : State) : Shows s (setWriteOffset i s) [] [] [] [] :=
  Shows.of_event (.writeOffset i) rfl

theorem setWriteSequence_shows (n : SeqWord) (s : State) : Shows s (setWriteSequence n s) [] [] [] [] :=
  Shows.of_event (.writeSequence n) rfl

theorem setPhase_shows (p : Phase) (s : State) : Shows s (setPhase p s) [] [p] [] [] :=
  Shows.of_event (.phase p s.line.ticks) rfl

theorem respond_shows (st : Status) (d : Nat) (s : State) : Shows s (respond st d s) [] [] [] [(st, d)] :=
  Shows.of_event (.response st d) rfl

theorem raise_shows (e : FatalError) (s : State) : Shows s (raise e s) [] [] [] [(e.status, 0)] :=
  Shows.of_event (.response e.status 0) rfl

theorem writeBit_shows (v : Bool) (s : State) : Shows s (writeBit v s) (writtenBit v) [] [] [] :=
  ⟨[.line .sda v s.line.ticks, .line .scl true _, .line .scl false _], by rw [Emits, writeBit_trace]; rfl,
    rfl, rfl, rfl, rfl⟩

theorem startCond_shows (s : State) : Shows s (startCond s) startWrites [] [] [] :=
  ⟨[.line .sda false s.line.ticks, .line .scl false _], by rw [Emits, startCond_trace]; rfl, rfl, rfl, rfl, rfl⟩

theorem stopCond_shows (s : State) : Shows s (stopCond s) stopWrites [] [] [] :=
  ⟨[.line .scl true s.line.ticks, .line .sda true _], by rw [Emits, stopCond_trace]; rfl, rfl, rfl, rfl, rfl⟩

theorem sample_shows (s : State) : Shows s (sample s) [] [] [] [] :=
  Shows.of_event (sampleOf (sample s)).event rfl

theorem readPoll_shows (fuel : Nat) (s : State) : Shows s (readPoll fuel s) [] [] [] [] := by
  induction fuel generalizing s with
  | zero => exact Shows.of_trace_eq rfl
  | succ fuel ih =>
    unfold readPoll
    split
    · exact sample_shows s
    · split
      · refine Shows.trans (sample_shows s) (Shows.congr (ih _) ?_ rfl)
        split <;> rfl
      · split
        · exact sample_shows s
        · exact (sample_shows s).trans (ih _)

theorem readBit_shows (s : State) : Shows s (readBit s) readBitWrites [] [] [] := by
  have h1 : Shows s (readBitOpen s) [(.scl, false), (.sda, true), (.scl, true)] [] [] [] :=
    ⟨[.line .scl false s.line.ticks, .line .sda true s.line.ticks, .line .scl true _],
      by simp [Emits, readBitOpen]; rfl, rfl, rfl, rfl, rfl⟩
  have h2 := readPoll_shows s.bitWindow (readBitOpen s)
  have h3 : Shows (readPoll s.bitWindow (readBitOpen s)) (readBit s) [(.scl, false), (.sda, false)] [] [] [] :=
    ⟨[.line .scl false _, .line .sda false _], rfl, rfl, rfl, rfl, rfl⟩
  exact (h1.trans h2).trans h3

theorem writeBits_shows (is : List Nat) (s : State) :
    Shows s (writeBits is s) (is.flatMap fun i => writtenBit (s.bbm.sr.getLsbD i)) [] [] [] := by
  induction is generalizing s with
  | nil => exact Shows.of_trace_eq rfl
  | cons i is ih =>
    have h := (writeBit_shows (s.bbm.sr.getLsbD i) s).trans (ih (writeBit (s.bbm.sr.getLsbD i) s))
    simpa [writeBits] using h

/-- The frame of shifting bits in: as every line operation's, but SR is written. -/
structure ShiftsIn (s s' : State) : Prop where
  cfg : s'.cfg = s.cfg
  als : s'.als = s.als
  ctl : s'.ctl = s.ctl
  store : s'.store = s.store
  host : s'.host = s.host
  phase : s'.bbm.phase = s.bbm.phase
  txnAddr : s'.bbm.txnAddr = s.bbm.txnAddr
  txnDir : s'.bbm.txnDir = s.bbm.txnDir
  speed : s'.bbm.speed = s.bbm.speed
  gaps : s'.line.gaps = s.line.gaps
  ticks_le : s.line.ticks ≤ s'.line.ticks

theorem ShiftsIn.trans {a b c : State} (h : ShiftsIn a b) (h' : ShiftsIn b c) : ShiftsIn a c :=
  ⟨h'.cfg.trans h.cfg, h'.als.trans h.als, h'.ctl.trans h.ctl, h'.store.trans h.store, h'.host.trans h.host,
    h'.phase.trans h.phase, h'.txnAddr.trans h.txnAddr, h'.txnDir.trans h.txnDir, h'.speed.trans h.speed,
    h'.gaps.trans h.gaps, Nat.le_trans h.ticks_le h'.ticks_le⟩

theorem LineOnly.shiftsIn {s s' : State} (h : LineOnly s s') : ShiftsIn s s' :=
  ⟨h.cfg, h.als, h.ctl, h.store, h.host, h.phase, h.txnAddr, h.txnDir, h.speed, h.gaps, h.ticks_le⟩

theorem readBits_shiftsIn (is : List Nat) (s : State) : ShiftsIn s (readBits is s) := by
  induction is generalizing s with
  | nil => exact LineOnly.rfl.shiftsIn
  | cons i is ih =>
    have h := (readBit_lineOnly s).shiftsIn
    have h1 : ShiftsIn s (setSr (setBit (readBit s).bbm.sr i (readBit s).bbm.bitacc) (readBit s)) :=
      ⟨h.cfg, h.als, h.ctl, h.store, h.host, h.phase, h.txnAddr, h.txnDir, h.speed, h.gaps, h.ticks_le⟩
    exact h1.trans (ih _)

theorem readBits_shows (is : List Nat) (s : State) :
    Shows s (readBits is s) (is.flatMap fun _ => readBitWrites) [] [] [] := by
  induction is generalizing s with
  | nil => exact Shows.of_trace_eq rfl
  | cons i is ih =>
    have h := (readBit_shows s).trans
      ((ih (setSr (setBit (readBit s).bbm.sr i (readBit s).bbm.bitacc) (readBit s))).congr rfl rfl)
    simpa [readBits] using h

/-- The lines after shifting bits in: as the last `ReadBit` left them (R144). -/
theorem readBits_lines (i : Nat) (is : List Nat) (s : State) :
    (readBits (i :: is) s).bbm.sclDrv = false ∧ (readBits (i :: is) s).bbm.sdaDrv = false := by
  induction is generalizing i s with
  | nil => exact ⟨rfl, rfl⟩
  | cons j is ih => exact ih j _

theorem readBits_t0_lt (i : Nat) (is : List Nat) (s : State) :
    (readBits (i :: is) s).bbm.t0 < 2 ^ s.cfg.tw := by
  induction is generalizing i s with
  | nil => exact readBit_t0_lt s
  | cons j is ih =>
    have h := ih j (setSr (setBit (readBit s).bbm.sr i (readBit s).bbm.bitacc) (readBit s))
    rwa [setSr_cfg, readBit_cfg] at h

/-! The stop sequence (R161, R163, R167). -/

section
variable (s : State)

@[simp] theorem closeTransaction_cfg : (closeTransaction s).cfg = s.cfg := by simp [closeTransaction]
@[simp] theorem closeTransaction_als : (closeTransaction s).als = s.als := by simp [closeTransaction]
@[simp] theorem closeTransaction_ctl : (closeTransaction s).ctl = s.ctl := by simp [closeTransaction]
@[simp] theorem closeTransaction_store : (closeTransaction s).store = s.store := by simp [closeTransaction]
@[simp] theorem closeTransaction_host : (closeTransaction s).host = s.host := by simp [closeTransaction]
@[simp] theorem closeTransaction_sr : (closeTransaction s).bbm.sr = s.bbm.sr := by simp [closeTransaction]
@[simp] theorem closeTransaction_bitacc : (closeTransaction s).bbm.bitacc = s.bbm.bitacc := by simp [closeTransaction]
@[simp] theorem closeTransaction_sclDrv : (closeTransaction s).bbm.sclDrv = true := by simp [closeTransaction]
@[simp] theorem closeTransaction_sdaDrv : (closeTransaction s).bbm.sdaDrv = true := by simp [closeTransaction]
@[simp] theorem closeTransaction_phase : (closeTransaction s).bbm.phase = .idle := rfl
@[simp] theorem closeTransaction_txnAddr : (closeTransaction s).bbm.txnAddr = s.bbm.txnAddr := by
  simp [closeTransaction]
@[simp] theorem closeTransaction_txnDir : (closeTransaction s).bbm.txnDir = s.bbm.txnDir := by simp [closeTransaction]
@[simp] theorem closeTransaction_speed : (closeTransaction s).bbm.speed = s.bbm.speed := by simp [closeTransaction]
@[simp] theorem closeTransaction_pScl : (closeTransaction s).line.pScl = s.line.pScl := by simp [closeTransaction]
@[simp] theorem closeTransaction_pSda : (closeTransaction s).line.pSda = s.line.pSda := by simp [closeTransaction]
@[simp] theorem closeTransaction_peers : (closeTransaction s).line.peers = s.line.peers := by simp [closeTransaction]
@[simp] theorem closeTransaction_gaps : (closeTransaction s).line.gaps = s.line.gaps := by simp [closeTransaction]

theorem closeTransaction_t0_lt : (closeTransaction s).bbm.t0 < 2 ^ s.cfg.tw := by
  simpa [closeTransaction] using stopCond_t0_lt (setPhase .stop s)

theorem closeTransaction_shows : Shows s (closeTransaction s) stopWrites [.stop, .idle] [] [] :=
  ((setPhase_shows .stop s).trans (stopCond_shows (setPhase .stop s))).trans (setPhase_shows .idle _)

/-- The stop sequence lasts more than two units (R285). -/
theorem closeTransaction_spec (h : s.cfg.ok s.bbm.speed = true) :
    s.line.ticks + 2 * s.unit < (closeTransaction s).line.ticks ∧
      (closeTransaction s).line.ticks < s.line.ticks + 2 * s.unit + 4 * s.cfg.dtMax := by
  have h1 := stopCond_spec (setPhase .stop s) h
  simpa [closeTransaction] using h1

/-! The frames of BEGIN and WRBYTE up to their acknowledgment (R161, R163). -/

theorem addressFrame_bbm (addr : DeviceAddress) (dir : Direction) :
    (addressFrame addr dir s).bbm.sclDrv = false ∧ (addressFrame addr dir s).bbm.sdaDrv = false ∧
      (addressFrame addr dir s).bbm.txnAddr = addr ∧ (addressFrame addr dir s).bbm.txnDir = dir ∧
      (addressFrame addr dir s).bbm.sr = frameByte addr dir ∧ (addressFrame addr dir s).bbm.speed = s.bbm.speed ∧
      (addressFrame addr dir s).bbm.phase = .ackWait := by
  simp [addressFrame]

@[simp] theorem addressFrame_cfg (addr : DeviceAddress) (dir : Direction) : (addressFrame addr dir s).cfg = s.cfg := by
  simp [addressFrame]
@[simp] theorem addressFrame_als (addr : DeviceAddress) (dir : Direction) : (addressFrame addr dir s).als = s.als := by
  simp [addressFrame]
@[simp] theorem addressFrame_ctl (addr : DeviceAddress) (dir : Direction) : (addressFrame addr dir s).ctl = s.ctl := by
  simp [addressFrame]
@[simp] theorem addressFrame_store (addr : DeviceAddress) (dir : Direction) :
    (addressFrame addr dir s).store = s.store := by simp [addressFrame]
@[simp] theorem addressFrame_host (addr : DeviceAddress) (dir : Direction) :
    (addressFrame addr dir s).host = s.host := by simp [addressFrame]
@[simp] theorem addressFrame_gaps (addr : DeviceAddress) (dir : Direction) :
    (addressFrame addr dir s).line.gaps = s.line.gaps := by simp [addressFrame]

theorem addressFrame_t0_lt (addr : DeviceAddress) (dir : Direction) :
    (addressFrame addr dir s).bbm.t0 < 2 ^ s.cfg.tw := by
  simp only [addressFrame]
  refine Nat.lt_of_lt_of_eq (readBit_t0_lt _) ?_
  simp

/-- What BEGIN shows up to its acknowledgment: start, the seven address bits and the direction bit, most significant
first, and one bit read (R118, R119). -/
theorem addressFrame_shows (addr : DeviceAddress) (dir : Direction) :
    Shows s (addressFrame addr dir s) (startWrites ++ writtenByte (frameByte addr dir) ++ readBitWrites)
      [.start, .addressing, .rwBit, .ackWait] [] [] := by
  have h1 := (loadFrame_shows addr dir s).trans
    (setPhase_shows .start (loadFrame addr dir s))
  have h2 := h1.trans (startCond_shows _)
  have h3 := h2.trans (setPhase_shows .addressing _)
  have h4 := h3.trans (writeBits_shows [7, 6, 5, 4, 3, 2, 1] _)
  have h5 := h4.trans (setPhase_shows .rwBit _)
  have h6 := h5.trans (writeBits_shows [0] _)
  have h7 := h6.trans (setPhase_shows .ackWait _)
  have h8 := h7.trans (readBit_shows _)
  simpa [addressFrame, writtenByte] using h8

@[simp] theorem byteFrame_cfg (b : Byte) : (byteFrame b s).cfg = s.cfg := by simp [byteFrame]
@[simp] theorem byteFrame_als (b : Byte) : (byteFrame b s).als = s.als := by simp [byteFrame]
@[simp] theorem byteFrame_ctl (b : Byte) : (byteFrame b s).ctl = s.ctl := by simp [byteFrame]
@[simp] theorem byteFrame_store (b : Byte) : (byteFrame b s).store = s.store := by simp [byteFrame]
@[simp] theorem byteFrame_host (b : Byte) : (byteFrame b s).host = s.host := by simp [byteFrame]
@[simp] theorem byteFrame_gaps (b : Byte) : (byteFrame b s).line.gaps = s.line.gaps := by simp [byteFrame]

theorem byteFrame_bbm (b : Byte) :
    (byteFrame b s).bbm.sclDrv = false ∧ (byteFrame b s).bbm.sdaDrv = false ∧ (byteFrame b s).bbm.sr = b ∧
      (byteFrame b s).bbm.txnAddr = s.bbm.txnAddr ∧ (byteFrame b s).bbm.txnDir = s.bbm.txnDir ∧
      (byteFrame b s).bbm.speed = s.bbm.speed ∧ (byteFrame b s).bbm.phase = s.bbm.phase := by
  simp [byteFrame]

theorem byteFrame_t0_lt (b : Byte) : (byteFrame b s).bbm.t0 < 2 ^ s.cfg.tw := by
  simp only [byteFrame]
  refine Nat.lt_of_lt_of_eq (readBit_t0_lt _) ?_
  simp

/-- What WRBYTE shows up to its acknowledgment: eight bits, most significant first, and one bit read (R120). -/
theorem byteFrame_shows (b : Byte) :
    Shows s (byteFrame b s) (writtenByte b ++ readBitWrites) [] [] [] := by
  have h1 := (Shows.of_trace_eq (setSr_trace s b)).trans (writeBits_shows [7, 6, 5, 4, 3, 2, 1, 0] (setSr b s))
  have h2 := h1.trans (readBit_shows _)
  simpa [byteFrame, writtenByte] using h2

end

end Sys2Proof.Machine
end

