-- ==== Sys2Proof/Laws/Store.lean ====
section
/-! SUPPORT. What a store request can do, said once (R60 to R64), and what the ALS commands built from requests leave
alone. -/

namespace Sys2Proof.Machine

/-- Nothing but the store and the trace has changed. -/
structure StoreOnly (s s' : State) : Prop where
  cfg : s'.cfg = s.cfg
  bbm : s'.bbm = s.bbm
  als : s'.als = s.als
  ctl : s'.ctl = s.ctl
  line : s'.line = s.line
  host : s'.host = s.host

/-- The answer each draw of the store gives (R45, R110). -/
theorem storeAnswer_eq {s : State} {d : StoreDraw} :
    storeDraw s = d →
      storeAnswer s =
        match d with
        | .ok => some .ok
        | .busError => some .busError
        | .reserved => some .busError
        | .outOfRange => some .outOfRange
        | .silent => none := by
  intro h; rw [storeAnswer, h]; cases d <;> rfl

theorem memRead_storeOnly (off n : Nat) (s : State) : StoreOnly s (memRead off n s).2 := by
  unfold memRead
  split
  · constructor <;> rfl
  · split <;> constructor <;> rfl

/-- A read changes nothing in NV (R61). -/
theorem memRead_nv (off n : Nat) (s : State) : (memRead off n s).2.store.nv = s.store.nv := by
  unfold memRead
  split
  · rfl
  · split <;> rfl

theorem memRead_outOfRange (off n : Nat) (s : State) (h : s.cfg.capacity < off + n) :
    memRead off n s =
      (.outOfRange, takeAnswer .outOfRange (sendRequest { write := false, off := off, len := n, wdata := [] } s)) := by
  unfold memRead; rw [if_pos h]

theorem memRead_works (off n : Nat) (s : State) (h : off + n ≤ s.cfg.capacity) (hd : storeDraw s = .ok) :
    memRead off n s =
      (.ok (Memory.readBytes s.store.nv off n),
        takeAnswer .ok (nextStoreDraw (sendRequest { write := false, off := off, len := n, wdata := [] } s))) := by
  unfold memRead; rw [if_neg (by omega), storeAnswer_eq hd]

theorem memRead_busError (off n : Nat) (s : State) (h : off + n ≤ s.cfg.capacity)
    (hd : storeDraw s = .busError ∨ storeDraw s = .reserved) :
    memRead off n s =
      (.busError,
        takeAnswer .busError (nextStoreDraw (sendRequest { write := false, off := off, len := n, wdata := [] } s))) := by
  unfold memRead
  rcases hd with hd | hd <;> rw [if_neg (by omega), storeAnswer_eq hd]

/-- A read answered Ok is in range and gives the bytes of NV (R61, R62). -/
theorem memRead_ok (off n : Nat) (s : State) (bytes : List Byte) (h : (memRead off n s).1 = .ok bytes) :
    off + n ≤ s.cfg.capacity ∧ bytes = Memory.readBytes s.store.nv off n := by
  unfold memRead at h
  split at h
  · cases h
  · next hr =>
    split at h <;> cases h
    exact ⟨by omega, rfl⟩

/-- A read that is answered leaves no request outstanding; one that is not leaves itself (R39, U7). -/
theorem memRead_pending (off n : Nat) (s : State) :
    (memRead off n s).2.store.pending =
      if (memRead off n s).1 = .silent then some { write := false, off := off, len := n, wdata := [] } else none := by
  unfold memRead
  split
  · rfl
  · split <;> rfl

theorem memWrite_storeOnly (off : Nat) (bytes : List Byte) (s : State) : StoreOnly s (memWrite off bytes s).2 := by
  unfold memWrite
  simp only
  split
  · constructor <;> rfl
  · split
    · constructor <;> rfl
    · split <;> constructor <;> rfl

theorem memWrite_outOfRange (off : Nat) (bytes : List Byte) (s : State) (h : s.cfg.capacity < off + bytes.length) :
    memWrite off bytes s =
      (.outOfRange,
        takeAnswer .outOfRange
          (sendRequest { write := true, off := off, len := bytes.length, wdata := bytes } s)) := by
  unfold memWrite; simp only [if_pos h]

theorem memWrite_works (off : Nat) (bytes : List Byte) (s : State) (h : off + bytes.length ≤ s.cfg.capacity)
    (hp : crossesPage s.cfg.pageSize off bytes.length = false) (hd : storeDraw s = .ok) :
    memWrite off bytes s =
      (.ok [],
        takeAnswer .ok
          (storeBytes off bytes
            (nextStoreDraw (sendRequest { write := true, off := off, len := bytes.length, wdata := bytes } s)))) := by
  unfold memWrite; simp [Nat.not_lt.2 h, hp, storeAnswer_eq hd]

/-- What a write does to NV: the written bytes when it is answered Ok, any bytes in the same range when it is in range and
fails, and nothing when it is past the capacity or not answered (R63, R210, D29). -/
theorem memWrite_nv (off : Nat) (bytes : List Byte) (s : State) :
    ((memWrite off bytes s).2.store.nv = s.store.nv ∧
        (s.cfg.capacity < off + bytes.length ∧ (memWrite off bytes s).1 = .outOfRange ∨
          (memWrite off bytes s).1 = .silent)) ∨
      (off + bytes.length ≤ s.cfg.capacity ∧ (memWrite off bytes s).1 = .ok [] ∧
        (memWrite off bytes s).2.store.nv = Memory.writeBytes s.store.nv off bytes) ∨
      (off + bytes.length ≤ s.cfg.capacity ∧
        ((memWrite off bytes s).1 = .busError ∨ (memWrite off bytes s).1 = .outOfRange) ∧
        (memWrite off bytes s).2.store.nv =
          Memory.writeBytes s.store.nv off (s.store.debris.take Config.freeByte bytes.length)) := by
  unfold memWrite
  simp only
  split
  · next hr => exact .inl ⟨rfl, .inl ⟨hr, rfl⟩⟩
  · next hr =>
    have hr' : off + bytes.length ≤ s.cfg.capacity := by omega
    split
    · exact .inr (.inr ⟨hr', .inl rfl, rfl⟩)
    · split
      · exact .inr (.inl ⟨hr', rfl, rfl⟩)
      · exact .inr (.inr ⟨hr', .inl rfl, rfl⟩)
      · exact .inr (.inr ⟨hr', .inr rfl, rfl⟩)
      · exact .inl ⟨rfl, .inr rfl⟩

/-- A write that is answered leaves no request outstanding; one that is not leaves itself (R39, U7). -/
theorem memWrite_pending (off : Nat) (bytes : List Byte) (s : State) :
    (memWrite off bytes s).2.store.pending =
      if (memWrite off bytes s).1 = .silent then
        some { write := true, off := off, len := bytes.length, wdata := bytes }
      else none := by
  unfold memWrite
  simp only
  split
  · rfl
  · split
    · rfl
    · split <;> rfl

/-- A write leaves every byte outside its range alone (R63, D29). -/
theorem memWrite_read_other (off : Nat) (bytes : List Byte) (s : State) (a : Nat)
    (h : a < off ∨ off + bytes.length ≤ a) :
    Memory.read (memWrite off bytes s).2.store.nv a = Memory.read s.store.nv a := by
  rcases memWrite_nv off bytes s with ⟨he, -⟩ | ⟨-, -, he⟩ | ⟨-, -, he⟩ <;> rw [he]
  · exact Memory.read_writeBytes_other _ _ _ _ h
  · exact Memory.read_writeBytes_other _ _ _ _ (by simpa using h)

theorem memWrite_wf (off : Nat) (bytes : List Byte) (s : State) (h : Memory.wf s.store.nv = true) :
    Memory.wf (memWrite off bytes s).2.store.nv = true := by
  rcases memWrite_nv off bytes s with ⟨he, -⟩ | ⟨-, -, he⟩ | ⟨-, -, he⟩ <;> rw [he]
  · exact h
  · exact Memory.writeBytes_wf _ _ _ h
  · exact Memory.writeBytes_wf _ _ _ h

theorem memWrite_within (off : Nat) (bytes : List Byte) (s : State)
    (h : Memory.within s.cfg.capacity s.store.nv = true) :
    Memory.within s.cfg.capacity (memWrite off bytes s).2.store.nv = true := by
  rcases memWrite_nv off bytes s with ⟨he, -⟩ | ⟨hr, -, he⟩ | ⟨hr, -, he⟩ <;> rw [he]
  · exact h
  · exact Memory.writeBytes_within _ _ _ _ h hr
  · exact Memory.writeBytes_within _ _ _ _ h (by simpa using hr)

/-! Slots (R62, R74, R203). -/

theorem recordSize_pos (c : Config) : 0 < c.recordSize := by simp [Config.recordSize, seqBytes]

/-- A slot is in range exactly when its index is below N_SLOTS (R62). -/
theorem slot_in_range (c : Config) (i : Nat) : c.slotOffset i + c.recordSize ≤ c.capacity ↔ i < c.nSlots := by
  have h : c.slotOffset i + c.recordSize = (i + 1) * c.recordSize := by simp [Config.slotOffset, Nat.add_mul]
  rw [h, Config.nSlots, ← Nat.le_div_iff_mul_le (recordSize_pos c)]
  omega

/-- A slot lies inside one page when the sizes fit (R65). -/
theorem slot_in_page (c : Config) (i : Nat) (h : c.sizesFit = true) :
    crossesPage c.pageSize (c.slotOffset i) c.recordSize = false := by
  have hr := recordSize_pos c
  have hd : c.recordSize ∣ c.pageSize := Nat.dvd_of_mod_eq_zero (by simpa [Config.sizesFit] using h)
  obtain ⟨k, hk⟩ := hd
  simp only [crossesPage, Config.slotOffset, decide_eq_false_iff_not, not_not, hk]
  rw [← Nat.div_div_eq_div_mul, ← Nat.div_div_eq_div_mul, Nat.mul_div_cancel _ hr]
  congr 1
  have : i * c.recordSize + c.recordSize - 1 = c.recordSize - 1 + c.recordSize * i := by
    rw [Nat.mul_comm i]; omega
  rw [this, Nat.add_mul_div_left _ _ hr, Nat.div_eq_of_lt (by omega), Nat.zero_add]

/-- Two different slots do not meet. -/
theorem slot_disjoint (c : Config) (i j : Nat) (h : i ≠ j) :
    c.slotOffset i + c.recordSize ≤ c.slotOffset j ∨ c.slotOffset j + c.recordSize ≤ c.slotOffset i := by
  simp only [Config.slotOffset]
  rcases Nat.lt_or_gt_of_ne h with h | h
  · left
    calc i * c.recordSize + c.recordSize = (i + 1) * c.recordSize := by rw [Nat.add_mul, Nat.one_mul]
      _ ≤ j * c.recordSize := Nat.mul_le_mul_right _ h
  · right
    calc j * c.recordSize + c.recordSize = (j + 1) * c.recordSize := by rw [Nat.add_mul, Nat.one_mul]
      _ ≤ i * c.recordSize := Nat.mul_le_mul_right _ h

/-! What the ALS commands leave alone. -/

/-! No ALS command touches a line (R236). -/

theorem AlsFrame.rfl {s : State} : AlsFrame s s := ⟨Eq.refl _, Eq.refl _, Eq.refl _, Eq.refl _⟩

theorem AlsFrame.trans {a b c : State} (h : AlsFrame a b) (h' : AlsFrame b c) : AlsFrame a c :=
  ⟨h'.cfg.trans h.cfg, h'.bbm.trans h.bbm, h'.line.trans h.line, h'.host.trans h.host⟩

theorem StoreOnly.alsFrame {s s' : State} (h : StoreOnly s s') : AlsFrame s s' := ⟨h.cfg, h.bbm, h.line, h.host⟩

theorem respond_alsFrame (st : Status) (d : Nat) (s : State) : AlsFrame s (respond st d s) := ⟨rfl, rfl, rfl, rfl⟩

theorem raise_alsFrame (e : FatalError) (s : State) : AlsFrame s (raise e s) := ⟨rfl, rfl, rfl, rfl⟩

theorem finishScan_alsFrame (i : IndexWord) (n : SeqWord) (s : State) : AlsFrame s (finishScan i n s) :=
  ⟨rfl, rfl, rfl, rfl⟩

theorem readSlot_alsFrame (i : Nat) (s : State) : AlsFrame s (readSlot i s).2 := (memRead_storeOnly _ _ s).alsFrame

theorem writeSlot_alsFrame (i : Nat) (record : List Byte) (s : State) : AlsFrame s (writeSlot i record s).2 :=
  (memWrite_storeOnly _ _ s).alsFrame

theorem readSlot_nv (i : Nat) (s : State) : (readSlot i s).2.store.nv = s.store.nv := memRead_nv _ _ s

/-- The scan touches no line, and reads NV only (R206). -/
theorem scanFrom_frame (fuel i : Nat) (prev : SeqWord) (s : State) :
    AlsFrame s (scanFrom fuel i prev s) ∧ (scanFrom fuel i prev s).store.nv = s.store.nv := by
  induction fuel generalizing i prev s with
  | zero => exact ⟨AlsFrame.rfl, rfl⟩
  | succ fuel ih =>
    have hl := readSlot_alsFrame i s
    have hn := readSlot_nv i s
    unfold scanFrom
    split
    · next s1 h => rw [h] at hl hn; exact ⟨hl, hn⟩
    · next s1 h => rw [h] at hl hn; exact ⟨hl.trans (raise_alsFrame _ _), hn⟩
    · next s1 h => rw [h] at hl hn; exact ⟨hl.trans (finishScan_alsFrame _ _ _), hn⟩
    · next bytes s1 h =>
      rw [h] at hl hn
      split
      · exact ⟨hl.trans (ih _ _ s1).1, (ih _ _ s1).2.trans hn⟩
      · exact ⟨hl.trans (finishScan_alsFrame _ _ _), hn⟩

theorem loginitBody_frame (s : State) :
    AlsFrame s (loginitBody s) ∧ (loginitBody s).store.nv = s.store.nv := by
  have hclear : AlsFrame s (setLogValid false s) := ⟨rfl, rfl, rfl, rfl⟩
  unfold loginitBody
  split
  · refine ⟨hclear.trans ?_, ?_⟩ <;>
    · have hl := readSlot_alsFrame 0 (setLogValid false s)
      have hn := readSlot_nv 0 (setLogValid false s)
      unfold scanStore
      split
      · next s1 h => rw [h] at hl hn; first | exact hl | exact hn
      · next s1 h => rw [h] at hl hn; first | exact hl.trans (raise_alsFrame _ _) | exact hn
      · next s1 h => rw [h] at hl hn; first | exact hl.trans (raise_alsFrame _ _) | exact hn
      · next bytes s1 h =>
        rw [h] at hl hn
        split
        · first | exact hl.trans (finishScan_alsFrame _ _ _) | exact hn
        · first
          | exact hl.trans (scanFrom_frame _ _ _ s1).1
          | exact (scanFrom_frame _ _ _ s1).2.trans hn
  · exact ⟨hclear.trans (raise_alsFrame _ _), rfl⟩

theorem loglastBody_frame (s : State) :
    AlsFrame s (loglastBody s) ∧ (loglastBody s).store.nv = s.store.nv ∧ (loglastBody s).als = s.als := by
  have hl := readSlot_alsFrame (s.als.writeOffset.toNat - 1) s
  have hn := readSlot_nv (s.als.writeOffset.toNat - 1) s
  have ha : (readSlot (s.als.writeOffset.toNat - 1) s).2.als = s.als := (memRead_storeOnly _ _ s).als
  unfold loglastBody
  split
  · exact ⟨respond_alsFrame _ _ _, rfl, rfl⟩
  · split
    · next s1 h => rw [h] at hl hn ha; exact ⟨hl, hn, ha⟩
    · next s1 h => rw [h] at hl hn ha; exact ⟨hl.trans (raise_alsFrame _ _), hn, ha⟩
    · next s1 h => rw [h] at hl hn ha; exact ⟨hl.trans (raise_alsFrame _ _), hn, ha⟩
    · next bytes s1 h =>
      rw [h] at hl hn ha
      split <;> exact ⟨hl.trans (respond_alsFrame _ _ _), hn, ha⟩

theorem finishAppend_alsFrame (s : State) : AlsFrame s (finishAppend s) := ⟨rfl, rfl, rfl, rfl⟩

theorem retryAppend_alsFrame (record : List Byte) (s : State) : AlsFrame s (retryAppend record s) := by
  have h0 : AlsFrame s (setWriteOffset 0 s) := ⟨rfl, rfl, rfl, rfl⟩
  have hl := h0.trans (writeSlot_alsFrame 0 record (setWriteOffset 0 s))
  unfold retryAppend
  split
  · next s1 h => rw [h] at hl; exact hl
  · next s1 h => rw [h] at hl; exact hl.trans (raise_alsFrame _ _)
  · next s1 h => rw [h] at hl; exact hl.trans (raise_alsFrame _ _)
  · next bytes s1 h => rw [h] at hl; exact hl.trans (finishAppend_alsFrame _)

theorem logappendBody_alsFrame (din : Nat) (s : State) : AlsFrame s (logappendBody din s) := by
  have hl := writeSlot_alsFrame s.als.writeOffset.toNat (s.cfg.encodeRecord s.als.writeSequence din) s
  unfold logappendBody
  simp only
  split
  · next s1 h => rw [h] at hl; exact hl
  · next s1 h => rw [h] at hl; exact hl.trans (raise_alsFrame _ _)
  · next s1 h => rw [h] at hl; exact hl.trans (retryAppend_alsFrame _ _)
  · next bytes s1 h => rw [h] at hl; exact hl.trans (finishAppend_alsFrame _)

/-! Acceptance (R112) and reset (R47). -/

/-- Everything `accept` can do. -/
theorem accept_cases (allowed : Bool) (body : State → State) (s : State) :
    (s.cfg.ok s.bbm.speed = false ∧ accept allowed body s = .refused .illegalConfiguration) ∨
      (s.cfg.ok s.bbm.speed = true ∧
        (s.ctl.halt = true ∧ accept allowed body s = .next (refuse .halted s) ∨
          s.ctl.halt = false ∧ allowed = true ∧ accept allowed body s = .next (body (busy s)) ∨
          s.ctl.halt = false ∧ allowed = false ∧ accept allowed body s = .next (refuse .illegal s))) := by
  unfold accept
  cases hc : s.cfg.ok s.bbm.speed <;> cases hh : s.ctl.halt <;> cases ha : allowed <;> simp

/-- In a ready state an allowed command runs (R112 check 4). -/
theorem accept_ready (body : State → State) (s : State) (h : Ready s) : accept true body s = .next (body (busy s)) := by
  simp [accept, h.config_ok, h.not_halted]

theorem settle_storeOnly (a : StoreAnswer) (r : StoreRequest) (s : State) : StoreOnly s (settle a r s) := by
  unfold settle
  split
  · split <;> constructor <;> rfl
  · constructor <;> rfl

theorem settle_trace (a : StoreAnswer) (r : StoreRequest) (s : State) : (settle a r s).trace = s.trace := by
  unfold settle
  split
  · split <;> rfl
  · rfl

/-- Everything a settled request can have done to NV (R61, R63, R210): nothing, or a write of as many bytes as it says
inside the device. -/
theorem settle_cases (a : StoreAnswer) (r : StoreRequest) (s : State) (hl : r.wdata.length = r.len ∨ r.write = false) :
    (settle a r s).store.nv = s.store.nv ∨
      r.write = true ∧ r.off + r.len ≤ s.cfg.capacity ∧
        ∃ bytes, bytes.length = r.len ∧ (settle a r s).store.nv = Memory.writeBytes s.store.nv r.off bytes := by
  unfold settle
  split
  · next h =>
    simp only [Bool.and_eq_true, decide_eq_true_eq] at h
    refine .inr ⟨h.1, h.2, ?_⟩
    cases a
    · exact ⟨r.wdata, hl.resolve_right (by simp [h.1]), rfl⟩
    · exact ⟨s.store.debris.take Config.freeByte r.len, by simp, rfl⟩
    · exact ⟨s.store.debris.take Config.freeByte r.len, by simp, rfl⟩
  · exact .inl rfl

/-- A write does to NV what settling its request does (R63): the two definitions agree, so that a command cut after all of
its events leaves the store the command left. -/
theorem memWrite_settles (off : Nat) (bytes : List Byte) (s : State) (a : StoreAnswer)
    (h : (memWrite off bytes s).2.trace =
      .answer a :: .request { write := true, off := off, len := bytes.length, wdata := bytes } :: s.trace) :
    (memWrite off bytes s).2.store.nv =
        (settle a { write := true, off := off, len := bytes.length, wdata := bytes } s).store.nv ∧
      (memWrite off bytes s).2.store.debris =
        (settle a { write := true, off := off, len := bytes.length, wdata := bytes } s).store.debris := by
  unfold memWrite at h ⊢
  simp only at h ⊢
  split at h
  · next hr =>
    simp only [settle, if_pos hr, Bool.true_and, decide_eq_true_eq, if_neg (Nat.not_le.2 hr)]
    exact ⟨rfl, rfl⟩
  · next hr =>
    simp only [settle, if_neg hr, Bool.true_and, decide_eq_true_eq, if_pos (Nat.not_lt.1 hr)]
    split at h
    · next hp =>
      rw [if_pos hp]
      cases h; exact ⟨rfl, rfl⟩
    · next hp =>
      rw [if_neg hp]
      split at h
      · cases h; exact ⟨rfl, rfl⟩
      · cases h; exact ⟨rfl, rfl⟩
      · cases h; exact ⟨rfl, rfl⟩
      · cases h

theorem dropRequest_frame (s : State) : StoreOnly s (dropRequest s) := by
  unfold dropRequest
  split
  · constructor <;> rfl
  · exact settle_storeOnly _ _ _

theorem dropRequest_trace (s : State) : (dropRequest s).trace = s.trace := by
  unfold dropRequest
  split
  · rfl
  · exact settle_trace _ _ _

/-- The request in flight at a reset can change the bytes it writes and no other (R261, U5). -/
theorem dropRequest_cases (s : State) :
    (dropRequest s).store.nv = s.store.nv ∨
      ∃ r bytes, s.store.pending = some r ∧ r.write = true ∧ r.off + r.len ≤ s.cfg.capacity ∧ bytes.length = r.len ∧
        (dropRequest s).store.nv = Memory.writeBytes s.store.nv r.off bytes := by
  unfold dropRequest
  split
  · exact .inl rfl
  · next r hr =>
    unfold settle
    split
    · next h =>
      simp only [Bool.and_eq_true, decide_eq_true_eq] at h
      exact .inr ⟨r, _, hr, h.1, h.2, by simp, rfl⟩
    · exact .inl rfl

/-- Reset leaves NV's canonical form (R47, R261). -/
theorem dropRequest_nv (s : State) (h : Memory.wf s.store.nv = true)
    (h' : Memory.within s.cfg.capacity s.store.nv = true) :
    Memory.wf (dropRequest s).store.nv = true ∧ Memory.within s.cfg.capacity (dropRequest s).store.nv = true := by
  rcases dropRequest_cases s with he | ⟨r, bytes, -, -, hr, hl, he⟩ <;> rw [he]
  · exact ⟨h, h'⟩
  · exact ⟨Memory.writeBytes_wf _ _ _ h, Memory.writeBytes_within _ _ _ _ h' (by omega)⟩

/-- Reset with no request outstanding keeps the store as it is (R47). -/
theorem dropRequest_none (s : State) (h : s.store.pending = none) : dropRequest s = s := by
  unfold dropRequest; rw [h]

end Sys2Proof.Machine
end

