-- ==== Sys2Proof/Laws/Log.lean ====
section
/-! SUPPORT. Everything a slot request and an ALS command can do, said once (R60 to R65, R203, R206 to R211): the ways they
can end, each with the state it leaves. -/

namespace Sys2Proof.Machine

/-- The state after a request that the store answered `a`, its draw used. -/
def answered (a : StoreAnswer) (r : StoreRequest) (s : State) : State := takeAnswer a (nextStoreDraw (sendRequest r s))

/-- The state after a request beyond the capacity, which uses no draw (R62). -/
def beyond (r : StoreRequest) (s : State) : State := takeAnswer .outOfRange (sendRequest r s)

/-- The state after a request that is never answered (U7). -/
def unanswered (r : StoreRequest) (s : State) : State := nextStoreDraw (sendRequest r s)

/-- Everything a read of a slot can do (R61, R62). -/
theorem readSlot_cases (i : Nat) (s : State) :
    (s.cfg.nSlots ≤ i ∧ readSlot i s = (.outOfRange, beyond (slotRead s.cfg i) s)) ∨
      i < s.cfg.nSlots ∧
        (storeDraw s = .ok ∧ readSlot i s = (.ok (slotBytes s.cfg s.store.nv i), answered .ok (slotRead s.cfg i) s) ∨
          (storeDraw s = .busError ∨ storeDraw s = .reserved) ∧
            readSlot i s = (.busError, answered .busError (slotRead s.cfg i) s) ∨
          storeDraw s = .outOfRange ∧ readSlot i s = (.outOfRange, answered .outOfRange (slotRead s.cfg i) s) ∨
          storeDraw s = .silent ∧ readSlot i s = (.silent, unanswered (slotRead s.cfg i) s)) := by
  by_cases h : i < s.cfg.nSlots
  · right
    have hr := (slot_in_range s.cfg i).2 h
    refine ⟨h, ?_⟩
    simp only [readSlot, memRead, if_neg (Nat.not_lt.2 hr)]
    cases hd : storeDraw s <;> simp [storeAnswer_eq hd, answered, unanswered, slotRead, slotBytes]
  · left
    have hr : s.cfg.capacity < s.cfg.slotOffset i + s.cfg.recordSize := by
      have := mt (slot_in_range s.cfg i).1 h; omega
    exact ⟨by omega, memRead_outOfRange _ _ s hr⟩

/-- Everything a write of a record to a slot can do (R62, R63, R65, R210). -/
theorem writeSlot_cases (i : Nat) (record : List Byte) (s : State) (hl : record.length = s.cfg.recordSize) :
    (s.cfg.nSlots ≤ i ∧ writeSlot i record s = (.outOfRange, beyond (slotWrite s.cfg i record) s)) ∨
      i < s.cfg.nSlots ∧
        (s.cfg.sizesFit = false ∧
            writeSlot i record s =
              (.busError,
                takeAnswer .busError
                  (scramble (s.cfg.slotOffset i) s.cfg.recordSize (sendRequest (slotWrite s.cfg i record) s))) ∨
          storeDraw s = .ok ∧
            writeSlot i record s =
              (.ok [], storeBytes (s.cfg.slotOffset i) record (answered .ok (slotWrite s.cfg i record) s)) ∨
          (storeDraw s = .busError ∨ storeDraw s = .reserved) ∧
            writeSlot i record s =
              (.busError,
                scramble (s.cfg.slotOffset i) s.cfg.recordSize (answered .busError (slotWrite s.cfg i record) s)) ∨
          storeDraw s = .outOfRange ∧
            writeSlot i record s =
              (.outOfRange,
                scramble (s.cfg.slotOffset i) s.cfg.recordSize (answered .outOfRange (slotWrite s.cfg i record) s)) ∨
          storeDraw s = .silent ∧ writeSlot i record s = (.silent, unanswered (slotWrite s.cfg i record) s)) := by
  by_cases h : i < s.cfg.nSlots
  · right
    have hr := (slot_in_range s.cfg i).2 h
    refine ⟨h, ?_⟩
    by_cases hp : crossesPage s.cfg.pageSize (s.cfg.slotOffset i) record.length = true
    · left
      constructor
      · by_contra hs
        rw [hl, slot_in_page s.cfg i (by simpa using hs)] at hp
        cases hp
      · rw [hl] at hp
        simp only [writeSlot, memWrite, hl]
        rw [if_neg (Nat.not_lt.2 hr), if_pos hp, slotWrite, hl]
    · right
      rw [hl] at hp
      simp only [writeSlot, memWrite, hl]
      rw [if_neg (Nat.not_lt.2 hr), if_neg hp, slotWrite, hl]
      cases hd : storeDraw s <;> rw [storeAnswer_eq hd]
      · exact .inl ⟨rfl, rfl⟩
      · exact .inr (.inl ⟨.inl rfl, rfl⟩)
      · exact .inr (.inl ⟨.inr rfl, rfl⟩)
      · exact .inr (.inr (.inl ⟨rfl, rfl⟩))
      · exact .inr (.inr (.inr ⟨rfl, rfl⟩))
  · left
    have hr : s.cfg.capacity < s.cfg.slotOffset i + s.cfg.recordSize := by
      have := mt (slot_in_range s.cfg i).1 h; omega
    refine ⟨by omega, ?_⟩
    simp only [writeSlot, memWrite, hl, slotWrite]
    rw [if_pos hr]
    rfl

/-- What a read of a slot leaves alone and shows, whatever the store answers. -/
structure SlotWasRead (i : Nat) (s s1 : State) : Prop where
  only : StoreOnly s s1
  nv : s1.store.nv = s.store.nv
  shows : Shows s s1 [] [] [slotRead s.cfg i] []

theorem beyond_wasRead (i : Nat) (s : State) : SlotWasRead i s (beyond (slotRead s.cfg i) s) :=
  ⟨by constructor <;> rfl, rfl, [.request (slotRead s.cfg i), .answer .outOfRange], rfl, rfl, rfl, rfl, rfl⟩

theorem answered_wasRead (a : StoreAnswer) (i : Nat) (s : State) :
    SlotWasRead i s (answered a (slotRead s.cfg i) s) :=
  ⟨by constructor <;> rfl, rfl, [.request (slotRead s.cfg i), .answer a], rfl, rfl, rfl, rfl, rfl⟩

theorem unanswered_wasRead (i : Nat) (s : State) : SlotWasRead i s (unanswered (slotRead s.cfg i) s) :=
  ⟨by constructor <;> rfl, rfl, [.request (slotRead s.cfg i)], rfl, rfl, rfl, rfl, rfl⟩

/-- What the reads of a scan leave alone and show: slots `i`, `i + 1`, …, `n` of them. -/
structure Scanned (i n : Nat) (s s1 : State) : Prop where
  only : StoreOnly s s1
  nv : s1.store.nv = s.store.nv
  shows : Shows s s1 [] [] ((List.range n).map fun k => slotRead s.cfg (i + k)) []

theorem SlotWasRead.scanned {i : Nat} {s s1 : State} (h : SlotWasRead i s s1) : Scanned i 1 s s1 :=
  ⟨h.only, h.nv, h.shows⟩

theorem SlotWasRead.trans {i n : Nat} {s s1 s2 : State} (h : SlotWasRead i s s1) (h' : Scanned (i + 1) n s1 s2) :
    Scanned i (n + 1) s s2 where
  only := ⟨h'.only.cfg.trans h.only.cfg, h'.only.bbm.trans h.only.bbm, h'.only.als.trans h.only.als,
    h'.only.ctl.trans h.only.ctl, h'.only.line.trans h.only.line, h'.only.host.trans h.only.host⟩
  nv := h'.nv.trans h.nv
  shows := by
    have hs := h.shows.trans h'.shows
    rw [h.only.cfg] at hs
    rw [List.range_succ_eq_map, List.map_cons, List.map_map]
    simpa [Function.comp_def, Nat.add_assoc, Nat.add_comm 1] using hs

/-- The end of a scan shows its response, and its register writes on the status port alone (R206). -/
theorem finishScan_shows (i : IndexWord) (n : SeqWord) (s : State) : Shows s (finishScan i n s) [] [] [] [(.ok, 0)] :=
  (((setWriteOffset_shows i s).trans (setWriteSequence_shows n _)).trans (setLogValid_shows true _)).trans
    (respond_shows .ok 0 _)

/-- The end of an append shows its response, and its register writes on the status port alone (R210). -/
theorem finishAppend_shows (s : State) :
    Shows s (finishAppend s) [] [] [] [(.ok, s.als.writeOffset.toNat)] :=
  ((setWriteSequence_shows _ s).trans (setWriteOffset_shows _ _)).trans (respond_shows .ok _ _)

/-- How the reads of LOGINIT end: the break is found, the store fails, or it never answers. -/
def ScanEnds (result s1 : State) : Prop :=
  (∃ offset seq, result = finishScan offset seq s1 ∧ offset.toNat ≤ s1.cfg.nSlots ∧ s1.store.pending = none) ∨
    (result = raise .busError s1 ∧ s1.store.pending = none) ∨ (result = s1 ∧ s1.store.pending ≠ none)

/-- Everything the loop of LOGINIT can do from slot `i` on, when its bound reaches the end of the device (R206 step 3,
R207 (a)). -/
theorem scanFrom_cases (fuel i : Nat) (prev : SeqWord) (s : State) (hf : s.cfg.nSlots < fuel + i)
    (hi : i ≤ s.cfg.nSlots) :
    ∃ n s1, n ≤ s.cfg.nSlots + 1 - i ∧ Scanned i n s s1 ∧ ScanEnds (scanFrom fuel i prev s) s1 := by
  induction fuel generalizing i prev s with
  | zero => omega
  | succ fuel ih =>
    rcases readSlot_cases i s with ⟨-, hr⟩ | ⟨hlt, h⟩
    · refine ⟨1, beyond (slotRead s.cfg i) s, by omega, (beyond_wasRead i s).scanned, .inl ⟨0, incSeq prev, ?_, ?_, rfl⟩⟩
      · rw [scanFrom, hr]
      · simp
    · rcases h with ⟨-, hr⟩ | ⟨-, hr⟩ | ⟨-, hr⟩ | ⟨-, hr⟩
      · by_cases hd : decodeSeq (slotBytes s.cfg s.store.nv i) = incSeq prev
        · obtain ⟨n, s1, hn, hs, he⟩ :=
            ih (i + 1) (decodeSeq (slotBytes s.cfg s.store.nv i)) (answered .ok (slotRead s.cfg i) s)
              (show s.cfg.nSlots < _ by omega) (show i + 1 ≤ s.cfg.nSlots by omega)
          refine ⟨n + 1, s1, ?_, (answered_wasRead .ok i s).trans hs, ?_⟩
          · have : n ≤ s.cfg.nSlots + 1 - (i + 1) := hn
            omega
          · rw [scanFrom, hr]
            simpa only [if_pos hd] using he
        · refine ⟨1, _, by omega, (answered_wasRead .ok i s).scanned,
            .inl ⟨BitVec.ofNat 32 i, incSeq prev, ?_, ?_, rfl⟩⟩
          · rw [scanFrom, hr]; simp only [if_neg hd]
          · rw [BitVec.toNat_ofNat]
            exact Nat.le_trans (Nat.mod_le _ _) hi
      · exact ⟨1, _, by omega, (answered_wasRead .busError i s).scanned, .inr (.inl ⟨by rw [scanFrom, hr], rfl⟩)⟩
      · exact ⟨1, _, by omega, (answered_wasRead .outOfRange i s).scanned,
          .inl ⟨0, incSeq prev, by rw [scanFrom, hr], by simp, rfl⟩⟩
      · exact ⟨1, _, by omega, (unanswered_wasRead i s).scanned, .inr (.inr ⟨by rw [scanFrom, hr], by simp [unanswered, nextStoreDraw, sendRequest]⟩)⟩

/-- Everything LOGINIT can do once it is accepted (R206, R207 (a)). -/
theorem loginitBody_cases (s : State) (h1 : 1 ≤ s.cfg.nSlots) :
    (s.cfg.sizesFit = false ∧ loginitBody s = raise .invariantViolation (setLogValid false s)) ∨
      s.cfg.sizesFit = true ∧
        ∃ n s1, n ≤ s.cfg.nSlots + 1 ∧ Scanned 0 n (setLogValid false s) s1 ∧ ScanEnds (loginitBody s) s1 := by
  by_cases hf : s.cfg.sizesFit = true
  · refine .inr ⟨hf, ?_⟩
    rw [loginitBody, if_pos hf]
    obtain ⟨u, hu⟩ : ∃ u, u = setLogValid false s := ⟨_, rfl⟩
    rw [← hu]
    have hc : s.cfg = u.cfg := by rw [hu]; rfl
    rw [hc] at h1 ⊢
    rcases readSlot_cases 0 u with ⟨hle, -⟩ | ⟨-, h⟩
    · omega
    · rcases h with ⟨-, hr⟩ | ⟨-, hr⟩ | ⟨-, hr⟩ | ⟨-, hr⟩
      · by_cases hd : decodeSeq (slotBytes u.cfg u.store.nv 0) = sentinel
        · refine ⟨1, _, by omega, (answered_wasRead .ok 0 u).scanned, .inl ⟨0, 0, ?_, by simp, rfl⟩⟩
          rw [scanStore, hr]; simp only [if_pos hd]
        · obtain ⟨n, s1, hn, hs, he⟩ :=
            scanFrom_cases u.cfg.nSlots 1 (decodeSeq (slotBytes u.cfg u.store.nv 0))
              (answered .ok (slotRead u.cfg 0) u) (show u.cfg.nSlots < _ by omega) h1
          refine ⟨n + 1, s1, ?_, (answered_wasRead .ok 0 u).trans hs, ?_⟩
          · have : n ≤ u.cfg.nSlots + 1 - 1 := hn
            omega
          · rw [scanStore, hr]
            simpa only [if_neg hd] using he
      · exact ⟨1, _, by omega, (answered_wasRead .busError 0 u).scanned, .inr (.inl ⟨by rw [scanStore, hr], rfl⟩)⟩
      · exact ⟨1, _, by omega, (answered_wasRead .outOfRange 0 u).scanned,
          .inr (.inl ⟨by rw [scanStore, hr], rfl⟩)⟩
      · exact ⟨1, _, by omega, (unanswered_wasRead 0 u).scanned,
          .inr (.inr ⟨by rw [scanStore, hr], by simp [unanswered, nextStoreDraw, sendRequest]⟩)⟩
  · exact .inl ⟨by simpa using hf, by rw [loginitBody, if_neg hf]⟩

/-- A legal configuration has a slot (R8). -/
theorem configOk_nSlots (c : Config) (sp : Speed) (h : c.ok sp = true) : 1 ≤ c.nSlots := by
  have hs := configOk_store c sp h
  exact (slot_in_range c 0).1 (by simpa [Config.slotOffset] using hs.2.2.1)

/-- Every record index and every count of slots fits OFF_W bits (R8). -/
theorem configOk_nSlots_lt (c : Config) (sp : Speed) (h : c.ok sp = true) : c.nSlots + 1 < 2 ^ 32 := by
  have hs := (configOk_store c sp h).2.2.2.2
  exact Nat.lt_of_le_of_lt (Nat.le_mul_of_pos_right _ (recordSize_pos c)) hs

/-- What the writes of LOGAPPEND leave alone, and what they may do to WRITE_OFFSET and NV (R210, R211). -/
structure Appending (s s1 : State) : Prop where
  cfg : s1.cfg = s.cfg
  bbm : s1.bbm = s.bbm
  ctl : s1.ctl = s.ctl
  line : s1.line = s.line
  host : s1.host = s.host
  valid : s1.als.logValid = s.als.logValid
  sequence : s1.als.writeSequence = s.als.writeSequence
  offset : s1.als.writeOffset = s.als.writeOffset ∨ s1.als.writeOffset = 0
  wf : Memory.wf s.store.nv = true → Memory.wf s1.store.nv = true
  within : Memory.within s.cfg.capacity s.store.nv = true → Memory.within s.cfg.capacity s1.store.nv = true
  shows : ∃ requests, Shows s s1 [] [] requests []

theorem Appending.trans {a b c : State} (h : Appending a b) (h' : Appending b c) : Appending a c where
  cfg := h'.cfg.trans h.cfg
  bbm := h'.bbm.trans h.bbm
  ctl := h'.ctl.trans h.ctl
  line := h'.line.trans h.line
  host := h'.host.trans h.host
  valid := h'.valid.trans h.valid
  sequence := h'.sequence.trans h.sequence
  offset := by
    rcases h'.offset with h1 | h1
    · rw [h1]; exact h.offset
    · exact .inr h1
  wf := fun hw => h'.wf (h.wf hw)
  within := fun hw => by have := h'.within (by rw [h.cfg]; exact h.within hw); rwa [h.cfg] at this
  shows := by
    obtain ⟨q, hq⟩ := h.shows
    obtain ⟨q', hq'⟩ := h'.shows
    exact ⟨q ++ q', hq.trans hq'⟩

theorem memWrite_shows (off : Nat) (bytes : List Byte) (s : State) :
    Shows s (memWrite off bytes s).2 [] []
      [{ write := true, off := off, len := bytes.length, wdata := bytes }] [] := by
  have hs : ∀ a, Shows s (takeAnswer a (sendRequest { write := true, off := off, len := bytes.length, wdata := bytes } s))
      [] [] [{ write := true, off := off, len := bytes.length, wdata := bytes }] [] := fun a =>
    ⟨[.request { write := true, off := off, len := bytes.length, wdata := bytes }, .answer a], rfl, rfl, rfl, rfl, rfl⟩
  have hn : Shows s (nextStoreDraw (sendRequest { write := true, off := off, len := bytes.length, wdata := bytes } s))
      [] [] [{ write := true, off := off, len := bytes.length, wdata := bytes }] [] :=
    ⟨[.request { write := true, off := off, len := bytes.length, wdata := bytes }], rfl, rfl, rfl, rfl, rfl⟩
  unfold memWrite
  simp only
  split
  · exact hs _
  · split
    · exact hs .busError
    · split
      · exact hs .ok
      · exact hs .busError
      · exact hs .outOfRange
      · exact hn

theorem writeSlot_appending (i : Nat) (record : List Byte) (s : State) : Appending s (writeSlot i record s).2 := by
  have h := memWrite_storeOnly (s.cfg.slotOffset i) record s
  exact ⟨h.cfg, h.bbm, h.ctl, h.line, h.host, congrArg Als.logValid h.als, congrArg Als.writeSequence h.als,
    .inl (congrArg Als.writeOffset h.als), memWrite_wf _ _ s, memWrite_within _ _ s, _, memWrite_shows _ _ s⟩

/-- How the writes of LOGAPPEND end: the record is written, the store fails, or it never answers. -/
def AppendEnds (result s1 : State) : Prop :=
  (result = finishAppend s1 ∧ s1.als.writeOffset.toNat < s1.cfg.nSlots ∧ s1.store.pending = none) ∨
    (result = raise .busError s1 ∧ s1.store.pending = none) ∨ (result = s1 ∧ s1.store.pending ≠ none)

theorem retryAppend_cases (record : List Byte) (s : State) (hl : record.length = s.cfg.recordSize)
    (h1 : 1 ≤ s.cfg.nSlots) :
    ∃ s1, Appending s s1 ∧ AppendEnds (retryAppend record s) s1 := by
  have h0 : Appending s (setWriteOffset 0 s) :=
    ⟨rfl, rfl, rfl, rfl, rfl, rfl, rfl, .inr rfl, id, id, [], setWriteOffset_shows 0 s⟩
  have ha := h0.trans (writeSlot_appending 0 record (setWriteOffset 0 s))
  have hp : (writeSlot 0 record (setWriteOffset 0 s)).2.store.pending = _ := memWrite_pending _ _ _
  rcases writeSlot_cases 0 record (setWriteOffset 0 s) hl with ⟨hle, -⟩ | ⟨-, h⟩
  · have : s.cfg.nSlots ≤ 0 := hle
    omega
  · rcases h with ⟨-, hr⟩ | ⟨-, hr⟩ | ⟨-, hr⟩ | ⟨-, hr⟩ | ⟨-, hr⟩ <;> rw [hr] at ha
    · exact ⟨_, ha, .inr (.inl ⟨by rw [retryAppend, hr], rfl⟩)⟩
    · exact ⟨_, ha, .inl ⟨by rw [retryAppend, hr], h1, rfl⟩⟩
    · exact ⟨_, ha, .inr (.inl ⟨by rw [retryAppend, hr], rfl⟩)⟩
    · exact ⟨_, ha, .inr (.inl ⟨by rw [retryAppend, hr], rfl⟩)⟩
    · exact ⟨_, ha, .inr (.inr ⟨by rw [retryAppend, hr], by simp [unanswered, nextStoreDraw, sendRequest]⟩)⟩

/-- Everything LOGAPPEND can do once it is accepted (R210, R211). -/
theorem logappendBody_cases (din : Nat) (s : State) (h1 : 1 ≤ s.cfg.nSlots) :
    ∃ s1, Appending s s1 ∧ AppendEnds (logappendBody din s) s1 := by
  obtain ⟨record, hrec⟩ : ∃ r, r = s.cfg.encodeRecord s.als.writeSequence din := ⟨_, rfl⟩
  have hl : record.length = s.cfg.recordSize := by rw [hrec]; simp
  have ha := writeSlot_appending s.als.writeOffset.toNat record s
  have retry : ∀ u, Appending s u → logappendBody din s = retryAppend record u →
      ∃ s1, Appending s s1 ∧ AppendEnds (logappendBody din s) s1 := by
    intro u hu he
    obtain ⟨s1, hs, hc⟩ := retryAppend_cases record u (by rw [hu.cfg]; exact hl) (by rw [hu.cfg]; exact h1)
    exact ⟨s1, hu.trans hs, by rw [he]; exact hc⟩
  rcases writeSlot_cases s.als.writeOffset.toNat record s hl with ⟨-, hr⟩ | ⟨hlt, h⟩
  · rw [hr] at ha
    exact retry _ ha (by rw [logappendBody, ← hrec]; simp only [hr])
  · rcases h with ⟨-, hr⟩ | ⟨-, hr⟩ | ⟨-, hr⟩ | ⟨-, hr⟩ | ⟨-, hr⟩ <;> rw [hr] at ha
    · exact ⟨_, ha, .inr (.inl ⟨by rw [logappendBody, ← hrec]; simp only [hr], rfl⟩)⟩
    · exact ⟨_, ha, .inl ⟨by rw [logappendBody, ← hrec]; simp only [hr], hlt, rfl⟩⟩
    · exact ⟨_, ha, .inr (.inl ⟨by rw [logappendBody, ← hrec]; simp only [hr], rfl⟩)⟩
    · exact retry _ ha (by rw [logappendBody, ← hrec]; simp only [hr])
    · exact ⟨_, ha, .inr (.inr ⟨by rw [logappendBody, ← hrec]; simp only [hr],
        by simp [unanswered, nextStoreDraw, sendRequest]⟩)⟩

/-- Everything LOGLAST can do once it is accepted (R208): ZERO without a request, a payload or ZERO after one read, a
fatal error, or nothing more. -/
theorem loglastBody_cases (s : State) :
    (s.als.writeOffset = 0 ∧ loglastBody s = respond .ok 0 s) ∨
      s.als.writeOffset ≠ 0 ∧
        ∃ s1, SlotWasRead (s.als.writeOffset.toNat - 1) s s1 ∧
          ((∃ data, loglastBody s = respond .ok data s1 ∧ data < 2 ^ s.cfg.payloadWidth ∧ s1.store.pending = none) ∨
            (loglastBody s = raise .busError s1 ∧ s1.store.pending = none) ∨
              (loglastBody s = s1 ∧ s1.store.pending ≠ none)) := by
  by_cases h0 : s.als.writeOffset = 0
  · exact .inl ⟨h0, by rw [loglastBody, if_pos h0]⟩
  · refine .inr ⟨h0, ?_⟩
    rw [loglastBody, if_neg h0]
    rcases readSlot_cases (s.als.writeOffset.toNat - 1) s with ⟨-, hr⟩ | ⟨-, h⟩
    · exact ⟨_, beyond_wasRead _ s, .inr (.inl ⟨by rw [hr], rfl⟩)⟩
    · rcases h with ⟨-, hr⟩ | ⟨-, hr⟩ | ⟨-, hr⟩ | ⟨-, hr⟩
      · refine ⟨_, answered_wasRead .ok _ s, .inl ?_⟩
        simp only [hr]
        split
        · exact ⟨0, rfl, Nat.two_pow_pos _, rfl⟩
        · exact ⟨_, rfl, decodePayload_lt s.cfg _ (by simp [slotBytes]), rfl⟩
      · exact ⟨_, answered_wasRead .busError _ s, .inr (.inl ⟨by rw [hr], rfl⟩)⟩
      · exact ⟨_, answered_wasRead .outOfRange _ s, .inr (.inl ⟨by rw [hr], rfl⟩)⟩
      · exact ⟨_, unanswered_wasRead _ s,
          .inr (.inr ⟨by rw [hr], by simp [unanswered, nextStoreDraw, sendRequest]⟩)⟩

end Sys2Proof.Machine
end

