-- ==== Sys2Proof/Laws/Commands.lean ====
section
/-! SUPPORT. What each command shows on the ports and what it leaves alone, from its acceptance to its response (R41, R112,
R160 to R167, R206 to R210). -/

namespace Sys2Proof.Machine

/-! The frames of the BBM commands. -/

theorem wrbitBody_frame (v : Bool) (s : State) : BbmFrame s (wrbitBody v s) := by
  constructor <;> simp [wrbitBody]

theorem rdbitBody_frame (s : State) : BbmFrame s (rdbitBody s) := by
  constructor <;> simp [rdbitBody]

theorem beginBody_frame (addr : DeviceAddress) (dir : Direction) (s : State) : BbmFrame s (beginBody addr dir s) := by
  have hs := (addressFrame_bbm s addr dir).2.2.2.2.2.1
  constructor <;> (simp only [beginBody]; split) <;> simp [hs]

theorem wrbyteBody_frame (b : Byte) (s : State) : BbmFrame s (wrbyteBody b s) := by
  have hs := (byteFrame_bbm s b).2.2.2.2.2.1
  constructor <;> (simp only [wrbyteBody]; split) <;> simp [hs]

theorem rdbyteBody_frame (wantAck : Bool) (s : State) : BbmFrame s (rdbyteBody wantAck s) := by
  have h := readBits_shiftsIn [7, 6, 5, 4, 3, 2, 1, 0] s
  constructor <;>
    (simp only [rdbyteBody]; split) <;>
      simp [h.cfg, h.als, h.store, h.host, h.gaps, h.speed, h.ctl]

theorem endBody_frame (s : State) : BbmFrame s (endBody s) := by
  constructor <;> simp [endBody]

/-! What the BBM commands show. -/

theorem wrbitBody_shows (v : Bool) (s : State) : Shows s (wrbitBody v s) (writtenBit v) [] [] [(.ok, 0)] := by
  simpa [wrbitBody] using (writeBit_shows v s).trans (respond_shows .ok 0 _)

theorem rdbitBody_shows (s : State) :
    Shows s (rdbitBody s) readBitWrites [] [] [(.ok, (readBit s).bbm.bitacc.toNat)] := by
  simpa [rdbitBody] using (readBit_shows s).trans (respond_shows .ok _ _)

theorem endBody_shows (s : State) : Shows s (endBody s) stopWrites [.stop, .idle] [] [(.ok, 0)] := by
  simpa [endBody] using (closeTransaction_shows s).trans (respond_shows .ok 0 _)

/-- The two ends of BEGIN (R161). -/
theorem beginBody_cases (addr : DeviceAddress) (dir : Direction) (s : State) :
    ((addressFrame addr dir s).bbm.bitacc = false ∧
        beginBody addr dir s = respond .ok 0 (setPhase .data (addressFrame addr dir s)) ∧
        Shows s (beginBody addr dir s) (startWrites ++ writtenByte (frameByte addr dir) ++ readBitWrites)
          [.start, .addressing, .rwBit, .ackWait, .data] [] [(.ok, 0)]) ∨
      (addressFrame addr dir s).bbm.bitacc = true ∧
        beginBody addr dir s = respond .noAck 0 (closeTransaction (addressFrame addr dir s)) ∧
        Shows s (beginBody addr dir s) (startWrites ++ writtenByte (frameByte addr dir) ++ readBitWrites ++ stopWrites)
          [.start, .addressing, .rwBit, .ackWait, .stop, .idle] [] [(.noAck, 0)] := by
  have hs := addressFrame_shows s addr dir
  cases hb : (addressFrame addr dir s).bbm.bitacc
  · have he : beginBody addr dir s = respond .ok 0 (setPhase .data (addressFrame addr dir s)) := by simp [beginBody, hb]
    refine .inl ⟨rfl, he, ?_⟩
    rw [he]
    simpa using (hs.trans (setPhase_shows .data _)).trans (respond_shows .ok 0 _)
  · have he : beginBody addr dir s = respond .noAck 0 (closeTransaction (addressFrame addr dir s)) := by
      simp [beginBody, hb]
    refine .inr ⟨rfl, he, ?_⟩
    rw [he]
    simpa using (hs.trans (closeTransaction_shows _)).trans (respond_shows .noAck 0 _)

/-- The two ends of WRBYTE (R163). -/
theorem wrbyteBody_cases (b : Byte) (s : State) :
    ((byteFrame b s).bbm.bitacc = false ∧ wrbyteBody b s = respond .ok 0 (byteFrame b s) ∧
        Shows s (wrbyteBody b s) (writtenByte b ++ readBitWrites) [] [] [(.ok, 0)]) ∨
      (byteFrame b s).bbm.bitacc = true ∧ wrbyteBody b s = respond .noAck 0 (closeTransaction (byteFrame b s)) ∧
        Shows s (wrbyteBody b s) (writtenByte b ++ readBitWrites ++ stopWrites) [.stop, .idle] [] [(.noAck, 0)] := by
  have hs := byteFrame_shows s b
  cases hb : (byteFrame b s).bbm.bitacc
  · have he : wrbyteBody b s = respond .ok 0 (byteFrame b s) := by simp [wrbyteBody, hb]
    refine .inl ⟨rfl, he, ?_⟩
    rw [he]
    simpa using hs.trans (respond_shows .ok 0 _)
  · have he : wrbyteBody b s = respond .noAck 0 (closeTransaction (byteFrame b s)) := by simp [wrbyteBody, hb]
    refine .inr ⟨rfl, he, ?_⟩
    rw [he]
    simpa using (hs.trans (closeTransaction_shows _)).trans (respond_shows .noAck 0 _)

/-- What RDBYTE shows (R165). -/
theorem rdbyteBody_shows (wantAck : Bool) (s : State) :
    Shows s (rdbyteBody wantAck s)
      ((List.replicate 8 readBitWrites).flatten ++ if wantAck then writtenBit false else []) [] []
      [(.ok, (readBits [7, 6, 5, 4, 3, 2, 1, 0] s).bbm.sr.toNat)] := by
  have hs := readBits_shows [7, 6, 5, 4, 3, 2, 1, 0] s
  cases wantAck
  · simpa [rdbyteBody, List.replicate] using hs.trans (respond_shows .ok _ _)
  · simpa [rdbyteBody, List.replicate] using (hs.trans (writeBit_shows false _)).trans (respond_shows .ok _ _)

/-! Acceptance (R112). -/

/-- What a command does once it is accepted. -/
def bodyOf : Instr → State → State
  | .begin addr dir => beginBody addr dir
  | .wrbit v => wrbitBody v
  | .rdbit => rdbitBody
  | .wrbyte b => wrbyteBody b
  | .rdbyte wantAck => rdbyteBody wantAck
  | .end_ => endBody
  | .loginit => loginitBody
  | .loglast => loglastBody
  | .logappend din => logappendBody din

/-- Everything a meaning can answer with a next state: a refusal for HALTED, one for a command not allowed now, or the
command's own body (R112, R116). -/
theorem exec_cases (i : Instr) (s t : State) (h : exec i s = .next t) :
    s.cfg.ok s.bbm.speed = true ∧
      (s.ctl.halt = true ∧ t = refuse .halted s ∨
        s.ctl.halt = false ∧ ¬ allowedNow s i ∧ t = refuse .illegal s ∨
        s.ctl.halt = false ∧ allowedNow s i ∧ t = bodyOf i (busy s)) := by
  have key : ∀ (allowed : Bool) (body : State → State), accept allowed body s = .next t →
      s.cfg.ok s.bbm.speed = true ∧
        (s.ctl.halt = true ∧ t = refuse .halted s ∨ s.ctl.halt = false ∧ allowed = false ∧ t = refuse .illegal s ∨
          s.ctl.halt = false ∧ allowed = true ∧ t = body (busy s)) := by
    intro allowed body he
    rcases accept_cases allowed body s with ⟨-, h'⟩ | ⟨h1, ⟨h2, h'⟩ | ⟨h2, h3, h'⟩ | ⟨h2, h3, h'⟩⟩ <;> rw [h'] at he
    · cases he
    all_goals cases he; simp_all
  cases i <;>
    (have h' := key _ _ h
     simpa [bodyOf, allowedNow, allowedIdle, allowedData, allowedIdleOrData, allowedLog] using h')

/-- In a ready state an allowed command runs (R112 check 4). -/
theorem exec_ready (i : Instr) (s : State) (h : Ready s) (ha : allowedNow s i) : exec i s = .next (bodyOf i (busy s)) := by
  cases i <;>
    simp_all [allowedNow, exec, execBegin, execWrbit, execRdbit, execWrbyte, execRdbyte, execEnd, execLoginit,
      execLoglast, execLogappend, accept_ready, allowedIdle, allowedData, allowedIdleOrData, allowedLog, bodyOf]

end Sys2Proof.Machine
end

