-- ==== Sys2Proof/Laws/Cut.lean ====
section
/-! SUPPORT. What the store holds when a command is cut off (R261): the events kept, replayed at the store port, change no
byte outside the writes among them, and the events of a whole LOGAPPEND give the store it left. -/

namespace Sys2Proof.Machine

/-- A request that can change no byte `a`: a read, a write past the capacity, or a write elsewhere (R61, R63). -/
def Spares (c : Config) (a : Nat) (r : StoreRequest) : Prop :=
  r.write = true → r.off + r.len ≤ c.capacity → r.wdata.length = r.len ∧ (a < r.off ∨ r.off + r.len ≤ a)

theorem slotRead_spares (c d : Config) (a i : Nat) : Spares c a (slotRead d i) := fun h => nomatch h

theorem slotWrite_spares (c d : Config) (a i : Nat) (record : List Byte)
    (h : a < d.slotOffset i ∨ d.slotOffset i + record.length ≤ a) : Spares c a (slotWrite d i record) := fun _ _ => ⟨rfl, h⟩

theorem settle_read (a : StoreAnswer) (r : StoreRequest) (s : State) (x : Nat) (h : Spares s.cfg x r) :
    Memory.read (settle a r s).store.nv x = Memory.read s.store.nv x := by
  cases hw : r.write with
  | false => simp [settle, hw]
  | true =>
    by_cases hr : r.off + r.len ≤ s.cfg.capacity
    · obtain ⟨hl, hx⟩ := h hw hr
      rcases settle_cases a r s (.inl hl) with he | ⟨-, -, bytes, hb, he⟩ <;> rw [he]
      exact Memory.read_writeBytes_other _ _ _ _ (by omega)
    · simp [settle, hr]

theorem requestsOf_tail (e : TraceEvent) (es : List TraceEvent) (r : StoreRequest) (h : r ∈ requestsOf es) :
    r ∈ requestsOf (e :: es) := by
  simp only [requestsOf, List.filterMap_cons] at h ⊢
  split
  · exact h
  · exact List.mem_cons_of_mem _ h

/-- Events cut off make no request of their own. -/
theorem requestsOf_take (es : List TraceEvent) (n : Nat) (r : StoreRequest) (h : r ∈ requestsOf (es.take n)) :
    r ∈ requestsOf es := by
  simp only [requestsOf, List.mem_filterMap] at h ⊢
  obtain ⟨e, he, h⟩ := h
  exact ⟨e, List.mem_of_mem_take he, h⟩

/-- What replaying events at the store port keeps: the configuration, every byte that the requests spare, and that the
request left outstanding spares it too. -/
theorem storeEvents_read (events : List TraceEvent) (s : State) (x : Nat)
    (h : ∀ r ∈ requestsOf events, Spares s.cfg x r) (hp : ∀ r, s.store.pending = some r → Spares s.cfg x r) :
    (events.foldl storeEvent s).cfg = s.cfg ∧
      Memory.read (events.foldl storeEvent s).store.nv x = Memory.read s.store.nv x ∧
      ∀ r, (events.foldl storeEvent s).store.pending = some r → Spares s.cfg x r := by
  induction events generalizing s with
  | nil => exact ⟨rfl, rfl, hp⟩
  | cons e es ih =>
    have tail : ∀ t : State, storeEvent s e = t → t.cfg = s.cfg →
        Memory.read t.store.nv x = Memory.read s.store.nv x → (∀ r, t.store.pending = some r → Spares s.cfg x r) →
        (∀ r ∈ requestsOf es, Spares s.cfg x r) →
        ((e :: es).foldl storeEvent s).cfg = s.cfg ∧
          Memory.read ((e :: es).foldl storeEvent s).store.nv x = Memory.read s.store.nv x ∧
          ∀ r, ((e :: es).foldl storeEvent s).store.pending = some r → Spares s.cfg x r := by
      intro t ht hc hm hq hr
      have := ih t (by rw [hc]; exact hr) (by rw [hc]; exact hq)
      rw [hc, hm] at this
      rw [List.foldl_cons, ht]
      exact this
    have sub : ∀ r ∈ requestsOf es, Spares s.cfg x r := fun r hr => h r (requestsOf_tail e es r hr)
    cases e
    case request r =>
      exact tail _ rfl rfl rfl (fun q hq => by cases hq; exact h r (by simp [requestsOf])) sub
    case answer a =>
      cases hs : s.store.pending with
      | none => exact tail s (by simp [storeEvent, hs]) rfl rfl hp sub
      | some r =>
        refine tail { settle a r s with store.pending := none } (by simp [storeEvent, hs]) ?_ ?_ (fun _ hq => nomatch hq) sub
        · exact (settle_storeOnly a r s).cfg
        · exact settle_read a r s x (hp r hs)
    all_goals exact tail s rfl rfl rfl hp sub

/-- Reset spares what the request in flight spares (R261). -/
theorem dropRequest_read (s : State) (x : Nat) (h : ∀ r, s.store.pending = some r → Spares s.cfg x r) :
    Memory.read (dropRequest s).store.nv x = Memory.read s.store.nv x := by
  unfold dropRequest
  split
  · rfl
  · next r hr => exact settle_read _ _ _ _ (h r hr)

/-- Replaying events at the store port keeps the store's form, when each write brings the bytes it says (R45). -/
theorem storeEvents_form (events : List TraceEvent) (s : State)
    (h : ∀ r ∈ requestsOf events, r.wdata.length = r.len ∨ r.write = false)
    (hp : ∀ r, s.store.pending = some r → r.wdata.length = r.len ∨ r.write = false)
    (hw : Memory.wf s.store.nv = true) (hc : Memory.within s.cfg.capacity s.store.nv = true) :
    Memory.wf (events.foldl storeEvent s).store.nv = true ∧
      Memory.within s.cfg.capacity (events.foldl storeEvent s).store.nv = true := by
  induction events generalizing s with
  | nil => exact ⟨hw, hc⟩
  | cons e es ih =>
    have sub : ∀ r ∈ requestsOf es, r.wdata.length = r.len ∨ r.write = false := fun r hr => h r (requestsOf_tail e es r hr)
    cases e
    case request r => exact ih _ sub (fun q hq => by cases hq; exact h r (by simp [requestsOf])) hw hc
    case answer a =>
      rw [List.foldl_cons]
      cases hs : s.store.pending with
      | none => simp only [storeEvent, hs]; exact ih s sub hp hw hc
      | some r =>
        simp only [storeEvent, hs]
        have hcfg := (settle_storeOnly a r s).cfg
        have := ih { settle a r s with store.pending := none } sub (fun _ hq => nomatch hq)
        rw [show ({ settle a r s with store.pending := none } : State).cfg = s.cfg from hcfg] at this
        rcases settle_cases a r s (hp r hs) with he | ⟨-, hr, bytes, hl, he⟩
        · exact this (by rw [he]; exact hw) (by rw [he]; exact hc)
        · exact this (by rw [he]; exact Memory.writeBytes_wf _ _ _ hw)
            (by rw [he]; exact Memory.writeBytes_within _ _ _ _ hc (by omega))
    all_goals exact ih s sub hp hw hc

/-! What each command requests. -/

theorem writeSlot_shows (i : Nat) (record : List Byte) (s : State) :
    Shows s (writeSlot i record s).2 [] [] [slotWrite s.cfg i record] [] := memWrite_shows _ _ s

/-- The one request of the retry (R210). -/
theorem retryAppend_shows (record : List Byte) (s : State) :
    ∃ answer, Shows s (retryAppend record s) [] [] [slotWrite s.cfg 0 record] answer := by
  have hl : Shows s (writeSlot 0 record (setWriteOffset 0 s)).2 [] [] [slotWrite s.cfg 0 record] [] :=
    (setWriteOffset_shows 0 s).trans (writeSlot_shows 0 record _)
  unfold retryAppend
  split
  · next s1 h => rw [h] at hl; exact ⟨_, hl⟩
  · next s1 h => rw [h] at hl; exact ⟨_, hl.trans (raise_shows _ _)⟩
  · next s1 h => rw [h] at hl; exact ⟨_, hl.trans (raise_shows _ _)⟩
  · next bytes s1 h => rw [h] at hl; exact ⟨_, hl.trans (finishAppend_shows _)⟩

/-- The requests of LOGAPPEND: the slot WRITE_OFFSET names, then, at most, slot 0, and that only when the first is no slot or
the store breaks its contract (R210, R211 (b)). -/
theorem logappendBody_requests (din : Nat) (s : State) :
    ∃ requests answer,
      Shows s (logappendBody din s) [] []
        (slotWrite s.cfg s.als.writeOffset.toNat (s.cfg.encodeRecord s.als.writeSequence din) :: requests) answer ∧
      ∀ r ∈ requests,
        r = slotWrite s.cfg 0 (s.cfg.encodeRecord s.als.writeSequence din) ∧
          (s.als.writeOffset.toNat < s.cfg.nSlots → storeDraw s = .outOfRange) := by
  have hl := writeSlot_shows s.als.writeOffset.toNat (s.cfg.encodeRecord s.als.writeSequence din) s
  have hc : (writeSlot s.als.writeOffset.toNat (s.cfg.encodeRecord s.als.writeSequence din) s).2.cfg = s.cfg :=
    (memWrite_storeOnly _ _ s).cfg
  have hw := writeSlot_cases s.als.writeOffset.toNat (s.cfg.encodeRecord s.als.writeSequence din) s (by simp)
  unfold logappendBody
  simp only
  split
  · next s1 h => rw [h] at hl; exact ⟨_, _, hl, by simp⟩
  · next s1 h => rw [h] at hl; exact ⟨_, _, hl.trans (raise_shows _ _), by simp⟩
  · next s1 h =>
    rw [h] at hl hc hw
    obtain ⟨answer, hr⟩ := retryAppend_shows (s.cfg.encodeRecord s.als.writeSequence din) s1
    rw [hc] at hr
    refine ⟨_, _, hl.trans hr, fun r hq => ?_⟩
    simp at hq
    refine ⟨hq, fun hlt => ?_⟩
    rcases hw with ⟨h1, -⟩ | ⟨-, hw⟩
    · omega
    · rcases hw with ⟨-, h2⟩ | ⟨-, h2⟩ | ⟨-, h2⟩ | ⟨h1, h2⟩ | ⟨-, h2⟩ <;> first | exact h1 | cases h2
  · next bytes s1 h => rw [h] at hl; exact ⟨_, _, hl.trans (finishAppend_shows _), by simp⟩

/-- A command that is no LOGAPPEND requests reads only, and leaves NV as it is (R60, R206, R208). -/
theorem bodyOf_reads (i : Instr) (s : State) (hi : ∀ din, i ≠ .logappend din) (hN : 1 ≤ s.cfg.nSlots) :
    (∃ lines phases requests answer, Shows s (bodyOf i s) lines phases requests answer ∧
        ∀ r ∈ requests, r.write = false) ∧
      (bodyOf i s).store.nv = s.store.nv := by
  have bbm : ∀ {t : State} {l p a}, BbmFrame s t → Shows s t l p [] a →
      (∃ lines phases requests answer, Shows s t lines phases requests answer ∧ ∀ r ∈ requests, r.write = false) ∧
        t.store.nv = s.store.nv := fun hf hs => ⟨⟨_, _, _, _, hs, by simp⟩, by rw [hf.store]⟩
  cases i with
  | begin addr dir =>
    have hf := beginBody_frame addr dir s
    rcases beginBody_cases addr dir s with ⟨-, -, h⟩ | ⟨-, -, h⟩ <;> exact bbm hf h
  | wrbit v => exact bbm (wrbitBody_frame v s) (wrbitBody_shows v s)
  | rdbit => exact bbm (rdbitBody_frame s) (rdbitBody_shows s)
  | wrbyte b =>
    have hf := wrbyteBody_frame b s
    rcases wrbyteBody_cases b s with ⟨-, -, h⟩ | ⟨-, -, h⟩ <;> exact bbm hf h
  | rdbyte wantAck => exact bbm (rdbyteBody_frame wantAck s) (rdbyteBody_shows wantAck s)
  | end_ => exact bbm (endBody_frame s) (endBody_shows s)
  | loginit =>
    refine ⟨?_, (loginitBody_frame s).2⟩
    rw [bodyOf]
    rcases loginitBody_cases s hN with ⟨-, h⟩ | ⟨-, n, s1, -, hs, h⟩
    · rw [h]; exact ⟨_, _, _, _, (setLogValid_shows false s).trans (raise_shows _ _), by simp⟩
    · have h0 := (setLogValid_shows false s).trans hs.shows
      have hr : ∀ r ∈ (List.range n).map fun k => slotRead (setLogValid false s).cfg (0 + k), r.write = false := by
        simp [slotRead]
      rcases h with ⟨offset, seq, h, -⟩ | ⟨h, -⟩ | ⟨h, -⟩ <;> rw [h]
      · exact ⟨_, _, _, _, h0.trans (finishScan_shows _ _ _), by simpa using hr⟩
      · exact ⟨_, _, _, _, h0.trans (raise_shows _ _), by simpa using hr⟩
      · exact ⟨_, _, _, _, h0, by simpa using hr⟩
  | loglast =>
    refine ⟨?_, (loglastBody_frame s).2.1⟩
    rw [bodyOf]
    rcases loglastBody_cases s with ⟨-, h⟩ | ⟨-, s1, hs, h⟩
    · rw [h]; exact ⟨_, _, _, _, respond_shows _ _ _, by simp⟩
    · rcases h with ⟨data, h, -⟩ | ⟨h, -⟩ | ⟨h, -⟩ <;> rw [h]
      · exact ⟨_, _, _, _, hs.shows.trans (respond_shows _ _ _), by simp [slotRead]⟩
      · exact ⟨_, _, _, _, hs.shows.trans (raise_shows _ _), by simp [slotRead]⟩
      · exact ⟨_, _, _, _, hs.shows, by simp [slotRead]⟩
  | logappend din => exact absurd rfl (hi din)

/-- Everything a word at the command port can do with a next state: nothing, a refusal, or a command run (R40, R112). -/
theorem atCommandPort_cases (cw : CommandWord) (din : Nat) (s t : State) (h : s.atCommandPort cw din = .next t) :
    s.ctl.cmdReady = false ∧ t = s ∨
      s.cfg.ok s.bbm.speed = true ∧
        ((∃ status, t = refuse status s) ∨
          ∃ i, decode cw (din % 2 ^ s.cfg.payloadWidth) = some i ∧ allowedNow s i ∧ t = bodyOf i (busy s)) := by
  unfold State.atCommandPort at h
  split at h
  · split at h
    · next i hi =>
      obtain ⟨hc, ⟨-, rfl⟩ | ⟨-, -, rfl⟩ | ⟨-, ha, rfl⟩⟩ := exec_cases i s t h
      · exact .inr ⟨hc, .inl ⟨_, rfl⟩⟩
      · exact .inr ⟨hc, .inl ⟨_, rfl⟩⟩
      · exact .inr ⟨hc, .inr ⟨i, hi, ha, rfl⟩⟩
    · rcases accept_cases false id s with ⟨-, h'⟩ | ⟨hc, ⟨-, h'⟩ | ⟨-, h3, -⟩ | ⟨-, -, h'⟩⟩
      · rw [rejectWord, h'] at h; cases h
      · rw [rejectWord, h'] at h; cases h; exact .inr ⟨hc, .inl ⟨_, rfl⟩⟩
      · cases h3
      · rw [rejectWord, h'] at h; cases h; exact .inr ⟨hc, .inl ⟨_, rfl⟩⟩
  · next hr => cases h; exact .inl ⟨by simpa using hr, rfl⟩

/-- Every request of a word at the command port brings the bytes it says (R45). -/
theorem atCommandPort_requests (cw : CommandWord) (din : Nat) (s t : State) (h : s.atCommandPort cw din = .next t) :
    ∃ events, Emits s t events ∧ ∀ r ∈ requestsOf events, r.wdata.length = r.len ∨ r.write = false := by
  rcases atCommandPort_cases cw din s t h with ⟨-, rfl⟩ | ⟨hc, ⟨status, rfl⟩ | ⟨i, -, -, rfl⟩⟩
  · exact ⟨[], rfl, by simp [requestsOf]⟩
  · exact ⟨[.response status 0], rfl, by simp [requestsOf]⟩
  · by_cases hi : ∃ d, i = .logappend d
    · obtain ⟨d, rfl⟩ := hi
      obtain ⟨q, answer, ⟨events, he, -, -, hq, -⟩, hz⟩ := logappendBody_requests d (busy s)
      refine ⟨events, he, fun r hr => .inl ?_⟩
      rw [hq] at hr
      rcases List.mem_cons.1 hr with rfl | hr
      · rfl
      · rw [(hz r hr).1]; rfl
    · obtain ⟨⟨l, p, q, answer, ⟨events, he, -, -, hq, -⟩, hz⟩, -⟩ :=
        bodyOf_reads i (busy s) (fun d hd => hi ⟨d, hd⟩) (configOk_nSlots _ _ hc)
      exact ⟨events, he, fun r hr => .inr (hz r (by rwa [hq] at hr))⟩

/-- Replaying reads at the store port leaves NV as it is (R61). -/
theorem storeEvents_reads (events : List TraceEvent) (s : State) (h : ∀ r ∈ requestsOf events, r.write = false)
    (hp : ∀ r, s.store.pending = some r → r.write = false) :
    (events.foldl storeEvent s).store.nv = s.store.nv ∧
      ∀ r, (events.foldl storeEvent s).store.pending = some r → r.write = false := by
  induction events generalizing s with
  | nil => exact ⟨rfl, hp⟩
  | cons e es ih =>
    have sub : ∀ r ∈ requestsOf es, r.write = false := fun r hr => h r (requestsOf_tail e es r hr)
    cases e
    case request r => exact ih _ sub (fun q hq => by cases hq; exact h r (by simp [requestsOf]))
    case answer a =>
      rw [List.foldl_cons]
      cases hs : s.store.pending with
      | none => simp only [storeEvent, hs]; exact ih s sub hp
      | some r =>
        have he : settle a r s = s := by simp [settle, hp r hs]
        simp only [storeEvent, hs, he]
        exact ih { s with store.pending := none } sub (fun _ hq => nomatch hq)
    all_goals exact ih s sub hp

/-- A read in flight at a reset changes nothing (R61). -/
theorem dropRequest_reads (s : State) (h : ∀ r, s.store.pending = some r → r.write = false) :
    (dropRequest s).store.nv = s.store.nv := by
  unfold dropRequest
  split
  · rfl
  · next r hr => simp [settle, h r hr]

/-! A whole LOGAPPEND. -/

/-- The stores of two states agree in what settling a request reads and writes. -/
structure SameStore (s t : State) : Prop where
  cfg : s.cfg = t.cfg
  nv : s.store.nv = t.store.nv
  debris : s.store.debris = t.store.debris
  pending : s.store.pending = t.store.pending

theorem SameStore.trans {a b c : State} (h : SameStore a b) (h' : SameStore b c) : SameStore a c :=
  ⟨h.cfg.trans h'.cfg, h.nv.trans h'.nv, h.debris.trans h'.debris, h.pending.trans h'.pending⟩

theorem SameStore.settle {s t : State} (h : SameStore s t) (a : StoreAnswer) (r : StoreRequest) :
    SameStore (settle a r s) (Machine.settle a r t) := by
  unfold Machine.settle
  rw [h.cfg]
  split
  · cases a <;> (constructor <;> simp [storeBytes, scramble, h.cfg, h.nv, h.debris, h.pending])
  · exact h

theorem SameStore.storeEvent {s t : State} (h : SameStore s t) (e : TraceEvent) :
    SameStore (storeEvent s e) (Machine.storeEvent t e) := by
  cases e
  case request r => exact ⟨h.cfg, h.nv, h.debris, rfl⟩
  case answer a =>
    simp only [Machine.storeEvent, h.pending]
    split
    · have := h.settle a ‹_›
      exact ⟨this.cfg, this.nv, this.debris, rfl⟩
    · exact h
  all_goals exact h

theorem SameStore.storeEvents {s t : State} (h : SameStore s t) (events : List TraceEvent) :
    SameStore (events.foldl Machine.storeEvent s) (events.foldl Machine.storeEvent t) := by
  induction events generalizing s t with
  | nil => exact h
  | cons e es ih => exact ih (h.storeEvent e)

/-- The events from `s` to `t`, replayed at the store port, give the store of `t`. -/
def StoreReplays (s t : State) : Prop := ∃ events, Emits s t events ∧ SameStore (events.foldl storeEvent s) t

theorem StoreReplays.trans {a b c : State} (h : StoreReplays a b) (h' : StoreReplays b c) : StoreReplays a c := by
  obtain ⟨e, he, hv⟩ := h
  obtain ⟨e', he', hv'⟩ := h'
  unfold Emits at he he'
  refine ⟨e ++ e', by rw [Emits, he', he]; simp, ?_⟩
  rw [List.foldl_append]
  exact (hv.storeEvents e').trans hv'

theorem StoreReplays.of_event {s t : State} (e : TraceEvent) (ht : t.trace = e :: s.trace)
    (h : SameStore (storeEvent s e) t) : StoreReplays s t :=
  ⟨[e], by simp [Emits, ht], h⟩

theorem memWrite_storeReplays (off : Nat) (bytes : List Byte) (s : State) : StoreReplays s (memWrite off bytes s).2 := by
  obtain ⟨r, hr⟩ : ∃ r : StoreRequest, r = { write := true, off := off, len := bytes.length, wdata := bytes } := ⟨_, rfl⟩
  have hc := (memWrite_storeOnly off bytes s).cfg
  have hp := memWrite_pending off bytes s
  have answeredBy : ∀ a, (memWrite off bytes s).2.trace = .answer a :: .request r :: s.trace →
      (memWrite off bytes s).1 ≠ .silent → StoreReplays s (memWrite off bytes s).2 := by
    intro a ht hs
    obtain ⟨hn, hd⟩ := memWrite_settles off bytes s a (by rw [ht, hr])
    rw [← hr] at hn hd
    rw [if_neg hs] at hp
    refine ⟨[.request r, .answer a], by simp [Emits, ht], ?_⟩
    have hk : SameStore (settle a r { s with store.pending := some r }) { settle a r s with store.pending := some r } := by
      unfold settle
      simp only
      split
      · cases a <;> (constructor <;> rfl)
      · constructor <;> rfl
    exact ⟨(hk.cfg.trans (settle_storeOnly a r s).cfg).trans hc.symm, hk.nv.trans hn.symm, hk.debris.trans hd.symm,
      hp.symm⟩
  subst hr
  unfold memWrite at answeredBy ⊢
  simp only at answeredBy ⊢
  split
  · next h => simp only [if_pos h] at answeredBy; exact answeredBy .outOfRange rfl (by simp)
  · next h =>
    simp only [if_neg h] at answeredBy
    split
    · next h' => simp only [if_pos h'] at answeredBy; exact answeredBy .busError rfl (by simp)
    · next h' =>
      simp only [if_neg h'] at answeredBy
      split
      · next h2 => simp only [h2] at answeredBy; exact answeredBy .ok rfl (by simp)
      · next h2 => simp only [h2] at answeredBy; exact answeredBy .busError rfl (by simp)
      · next h2 => simp only [h2] at answeredBy; exact answeredBy .outOfRange rfl (by simp)
      · exact StoreReplays.of_event (.request _) rfl (by constructor <;> rfl)

theorem setWriteOffset_storeReplays (i : IndexWord) (s : State) : StoreReplays s (setWriteOffset i s) :=
  StoreReplays.of_event (.writeOffset i) rfl (by constructor <;> rfl)

theorem raise_storeReplays (e : FatalError) (s : State) : StoreReplays s (raise e s) :=
  StoreReplays.of_event (.response e.status 0) rfl (by constructor <;> rfl)

theorem finishAppend_storeReplays (s : State) : StoreReplays s (finishAppend s) :=
  ⟨[.writeSequence (incSeq s.als.writeSequence), .writeOffset (s.als.writeOffset + 1), .response .ok s.als.writeOffset.toNat],
    rfl, by constructor <;> rfl⟩

theorem retryAppend_storeReplays (record : List Byte) (s : State) : StoreReplays s (retryAppend record s) := by
  have hl : StoreReplays s (writeSlot 0 record (setWriteOffset 0 s)).2 :=
    (setWriteOffset_storeReplays 0 s).trans (memWrite_storeReplays _ _ _)
  unfold retryAppend
  split
  · next s1 h => rw [h] at hl; exact hl
  · next s1 h => rw [h] at hl; exact hl.trans (raise_storeReplays _ _)
  · next s1 h => rw [h] at hl; exact hl.trans (raise_storeReplays _ _)
  · next bytes s1 h => rw [h] at hl; exact hl.trans (finishAppend_storeReplays _)

/-- The events of a LOGAPPEND, replayed at the store port, give the store it leaves (R63, R210). -/
theorem logappendBody_storeReplays (din : Nat) (s : State) : StoreReplays s (logappendBody din s) := by
  have hl : StoreReplays s (writeSlot s.als.writeOffset.toNat (s.cfg.encodeRecord s.als.writeSequence din) s).2 :=
    memWrite_storeReplays _ _ s
  unfold logappendBody
  simp only
  split
  · next s1 h => rw [h] at hl; exact hl
  · next s1 h => rw [h] at hl; exact hl.trans (raise_storeReplays _ _)
  · next s1 h => rw [h] at hl; exact hl.trans (retryAppend_storeReplays _ _)
  · next bytes s1 h => rw [h] at hl; exact hl.trans (finishAppend_storeReplays _)

end Sys2Proof.Machine
end

