-- ==== Sys2Proof/Laws/Encoding.lean ====
section
/-! SUPPORT. What the decoder can do, said once (R103): a word that a row matches decodes to what that row makes of it, and
the opcode nibble tells the rows apart. -/

namespace Sys2Proof

/-- A word that a row matches carries the row's opcode nibble. -/
theorem OpcodeRow.hits_opcode {r : OpcodeRow} (hr : r ∈ opcodeRows) {cw : CommandWord} (h : r.hits cw = true) :
    cw &&& 0xF000 = r.pattern &&& 0xF000 := by
  have hm : r.mask &&& 0xF000 = 0xF000 := by
    simp only [opcodeRows, List.mem_cons, List.not_mem_nil, or_false] at hr
    rcases hr with rfl | rfl | rfl | rfl | rfl | rfl | rfl | rfl | rfl <;> decide
  simp only [OpcodeRow.hits, beq_iff_eq] at h
  rw [← h, BitVec.and_assoc, hm]

/-- No two rows have the same opcode nibble. -/
theorem OpcodeRow.eq_of_opcode {r r' : OpcodeRow} (hr : r ∈ opcodeRows) (hr' : r' ∈ opcodeRows)
    (h : r.pattern &&& 0xF000 = r'.pattern &&& 0xF000) : r = r' := by
  simp only [opcodeRows, List.mem_cons, List.not_mem_nil, or_false] at hr hr'
  rcases hr with rfl | rfl | rfl | rfl | rfl | rfl | rfl | rfl | rfl <;>
    rcases hr' with rfl | rfl | rfl | rfl | rfl | rfl | rfl | rfl | rfl <;>
      first
      | rfl
      | exact absurd h (by decide)

/-- The row that matches a word is the one the decoder uses. -/
theorem decode_of_hits {r : OpcodeRow} (hr : r ∈ opcodeRows) {cw : CommandWord} (h : r.hits cw = true) (din : Nat) :
    decode cw din = some (r.make cw din) := by
  have hs : (opcodeRows.find? fun r => r.hits cw).isSome := List.find?_isSome.2 ⟨r, hr, h⟩
  obtain ⟨r', hf⟩ := Option.isSome_iff_exists.1 hs
  have hmem := List.mem_of_find?_eq_some hf
  have hhit := List.find?_some hf
  have : r' = r :=
    OpcodeRow.eq_of_opcode hmem hr ((OpcodeRow.hits_opcode hmem hhit).symm.trans (OpcodeRow.hits_opcode hr h))
  rw [decode, hf, this]
  rfl

/-- Everything the decoder can do: it answers what a matching row makes, or no row matches. -/
theorem decode_cases (cw : CommandWord) (din : Nat) :
    (∃ r ∈ opcodeRows, r.hits cw = true ∧ decode cw din = some (r.make cw din)) ∨
      (∀ r ∈ opcodeRows, r.hits cw = false) ∧ decode cw din = none := by
  by_cases h : ∃ r ∈ opcodeRows, r.hits cw = true
  · obtain ⟨r, hr, h⟩ := h
    exact .inl ⟨r, hr, h, decode_of_hits hr h din⟩
  · refine .inr ⟨fun r hr => ?_, ?_⟩
    · simpa using fun h' => h ⟨r, hr, h'⟩
    · have hn : opcodeRows.find? (fun r => r.hits cw) = none :=
        List.find?_eq_none.2 fun r hr h' => h ⟨r, hr, h'⟩
      rw [decode, hn]
      rfl

/-- The bits of a command word: the operand byte below, four zeros, the opcode above (R100). -/
theorem commandWord_toNat (op : BitVec 4) (a : Byte) : (commandWord op a).toNat = op.toNat * 4096 + a.toNat := by
  have h : commandWord op a = (op ++ (0#4 : BitVec 4) ++ a : BitVec 16) := rfl
  have ha := a.isLt
  rw [h, BitVec.toNat_append, BitVec.toNat_append, BitVec.toNat_ofNat, Nat.zero_mod, Nat.or_zero,
    ← Nat.shiftLeft_add_eq_or_of_lt ha, Nat.shiftLeft_eq, Nat.shiftLeft_eq]
  omega

end Sys2Proof
end

