-- ==== Sys2Proof/Laws/PerInstr.lean ====
section
/-! SUPPORT. The family `SingleRow`, one lemma per command: the word the encoder drives for it is matched by exactly one row
of R103, and that row reads the command back. -/

namespace Sys2Proof.Laws.SingleRow

/-- Exactly one row of the opcode map matches the command's word, and it makes the command of it (R103). -/
def Statement (i : Instr) : Prop :=
  ∃ r ∈ opcodeRows, r.hits (encode i).cw = true ∧ r.make (encode i).cw (encode i).din = i ∧
    ∀ r' ∈ opcodeRows, r'.hits (encode i).cw = true → r' = r

/-- A row that matches the word and reads the command back is the only one. -/
theorem of_row (i : Instr) (r : OpcodeRow) (hr : r ∈ opcodeRows) (h : r.hits (encode i).cw = true)
    (hm : r.make (encode i).cw (encode i).din = i) : Statement i :=
  ⟨r, hr, h, hm, fun _ hr' h' =>
    OpcodeRow.eq_of_opcode hr' hr ((OpcodeRow.hits_opcode hr' h').symm.trans (OpcodeRow.hits_opcode hr h))⟩

theorem begin (addr : DeviceAddress) (dir : Direction) : Statement (.begin addr dir) := by
  refine of_row _ rowBegin (by simp [opcodeRows]) ?_ ?_
  · show rowBegin.hits (commandWord 0x1 (frameByte addr dir)) = true
    cases dir <;> revert addr <;> decide
  · have h : ∀ d : Direction, ∀ a : DeviceAddress,
        (commandWord 0x1 (frameByte a d)).extractLsb' 1 7 = a ∧
          Direction.ofBit ((commandWord 0x1 (frameByte a d)).getLsbD 0) = d := by
      intro d; cases d <;> decide
    show Instr.begin _ _ = _
    rw [show (encode (.begin addr dir)).cw = commandWord 0x1 (frameByte addr dir) from rfl, (h dir addr).1, (h dir addr).2]

theorem wrbit (value : Bool) : Statement (.wrbit value) := by
  refine of_row _ rowWrbit (by simp [opcodeRows]) ?_ ?_ <;> cases value <;> rfl

theorem rdbit : Statement .rdbit := of_row _ rowRdbit (by simp [opcodeRows]) rfl rfl

theorem wrbyte (byte : Byte) : Statement (.wrbyte byte) := by
  refine of_row _ rowWrbyte (by simp [opcodeRows]) ?_ ?_
  · show rowWrbyte.hits (commandWord 0x4 byte) = true
    revert byte; decide
  · have h : ∀ b : Byte, (commandWord 0x4 b).extractLsb' 0 8 = b := by decide
    exact congrArg Instr.wrbyte (h byte)

theorem rdbyte (wantAck : Bool) : Statement (.rdbyte wantAck) := by
  refine of_row _ rowRdbyte (by simp [opcodeRows]) ?_ ?_ <;> cases wantAck <;> rfl

theorem end_ : Statement .end_ := of_row _ rowEnd (by simp [opcodeRows]) rfl rfl

theorem loginit : Statement .loginit := of_row _ rowLoginit (by simp [opcodeRows]) rfl rfl

theorem loglast : Statement .loglast := of_row _ rowLoglast (by simp [opcodeRows]) rfl rfl

theorem logappend (din : Nat) : Statement (.logappend din) := by
  refine of_row _ rowLogappend (by simp [opcodeRows]) ?_ rfl
  show rowLogappend.hits (commandWord 0xA 0) = true
  decide

end Sys2Proof.Laws.SingleRow
end

