-- ==== Sys2Proof/Laws/Status.lean ====
section
/-! SUPPORT. The trace of a command holds every write of a register that the status port mirrors: replaying it from the state
before gives the state after, as the status port shows both (R33, R42). -/

namespace Sys2Proof.Machine

/-- The registers that the status port mirrors agree (R33). -/
structure SameView (s t : State) : Prop where
  sclDrv : s.bbm.sclDrv = t.bbm.sclDrv
  sdaDrv : s.bbm.sdaDrv = t.bbm.sdaDrv
  phase : s.bbm.phase = t.bbm.phase
  txnAddr : s.bbm.txnAddr = t.bbm.txnAddr
  txnDir : s.bbm.txnDir = t.bbm.txnDir
  speed : s.bbm.speed = t.bbm.speed
  als : s.als = t.als
  halt : s.ctl.halt = t.ctl.halt
  faultCode : s.ctl.faultCode = t.ctl.faultCode
  lastStatus : s.ctl.lastStatus = t.ctl.lastStatus

theorem SameView.rfl {s : State} : SameView s s := by constructor <;> exact Eq.refl _

theorem SameView.trans {a b c : State} (h : SameView a b) (h' : SameView b c) : SameView a c := by
  constructor
  · exact h.sclDrv.trans h'.sclDrv
  · exact h.sdaDrv.trans h'.sdaDrv
  · exact h.phase.trans h'.phase
  · exact h.txnAddr.trans h'.txnAddr
  · exact h.txnDir.trans h'.txnDir
  · exact h.speed.trans h'.speed
  · exact h.als.trans h'.als
  · exact h.halt.trans h'.halt
  · exact h.faultCode.trans h'.faultCode
  · exact h.lastStatus.trans h'.lastStatus

/-- The status port shows nothing else. -/
theorem SameView.statusPort {s t : State} (h : SameView s t) (sel : BitVec 2) :
    statusPort sel s = Machine.statusPort sel t := by
  simp only [Machine.statusPort, statusWord, h.sclDrv, h.sdaDrv, h.phase, h.txnAddr, h.txnDir, h.speed, h.als, h.halt,
    h.faultCode, h.lastStatus]

theorem SameView.replay {s t : State} (h : SameView s t) (e : TraceEvent) : SameView (s.replay e) (t.replay e) := by
  cases e with
  | line l v k =>
    cases l <;>
      (constructor <;>
        simp only [State.replay, h.sclDrv, h.sdaDrv, h.phase, h.txnAddr, h.txnDir, h.speed, h.als, h.halt, h.faultCode,
          h.lastStatus])
  | _ =>
    constructor <;>
      simp only [State.replay, Ctl.afterResponse, h.sclDrv, h.sdaDrv, h.phase, h.txnAddr, h.txnDir, h.speed, h.als, h.halt,
        h.faultCode, h.lastStatus]

theorem SameView.replayAll {s t : State} (h : SameView s t) (events : List TraceEvent) :
    SameView (replayAll events s) (Machine.replayAll events t) := by
  induction events generalizing s t with
  | nil => exact h
  | cons e es ih => exact ih (h.replay e)

/-- The events from `s` to `t` account for everything the status port shows. -/
def Replays (s t : State) : Prop := ∃ events, Emits s t events ∧ SameView (replayAll events s) t

theorem Replays.of_view {s t : State} (ht : t.trace = s.trace) (h : SameView s t) : Replays s t :=
  ⟨[], by simp [Emits, ht], h⟩

theorem Replays.of_event {s t : State} (e : TraceEvent) (ht : t.trace = e :: s.trace) (h : SameView (s.replay e) t) :
    Replays s t :=
  ⟨[e], by simp [Emits, ht], h⟩

theorem Replays.trans {a b c : State} (h : Replays a b) (h' : Replays b c) : Replays a c := by
  obtain ⟨e, he, hv⟩ := h
  obtain ⟨e', he', hv'⟩ := h'
  unfold Emits at he he'
  refine ⟨e ++ e', by rw [Emits, he', he]; simp, ?_⟩
  have h1 := (hv.replayAll e').trans hv'
  simpa [replayAll, List.foldl_append] using h1

theorem driveScl_replays (v : Bool) (s : State) : Replays s (driveScl v s) :=
  Replays.of_event (.line .scl v s.line.ticks) rfl (by constructor <;> rfl)

theorem driveSda_replays (v : Bool) (s : State) : Replays s (driveSda v s) :=
  Replays.of_event (.line .sda v s.line.ticks) rfl (by constructor <;> rfl)

theorem setPhase_replays (p : Phase) (s : State) : Replays s (setPhase p s) :=
  Replays.of_event (.phase p s.line.ticks) rfl (by constructor <;> rfl)

theorem loadFrame_replays (addr : DeviceAddress) (dir : Direction) (s : State) : Replays s (loadFrame addr dir s) :=
  Replays.of_event (.transaction addr dir) rfl (by constructor <;> rfl)

theorem setLogValid_replays (v : Bool) (s : State) : Replays s (setLogValid v s) :=
  Replays.of_event (.logValid v) rfl (by constructor <;> rfl)

theorem setWriteOffset_replays (i : IndexWord) (s : State) : Replays s (setWriteOffset i s) :=
  Replays.of_event (.writeOffset i) rfl (by constructor <;> rfl)

theorem setWriteSequence_replays (n : SeqWord) (s : State) : Replays s (setWriteSequence n s) :=
  Replays.of_event (.writeSequence n) rfl (by constructor <;> rfl)

/-- A response that is not fatal (R41). -/
theorem respond_replays (st : Status) (d : Nat) (s : State) (h : st.isFatal = false) : Replays s (respond st d s) :=
  Replays.of_event (.response st d) rfl
    (by constructor <;> simp [State.replay, Ctl.afterResponse, respond, h])

/-- Trap entry (R236). -/
theorem raise_replays (e : FatalError) (s : State) : Replays s (raise e s) :=
  Replays.of_event (.response e.status 0) rfl
    (by
      constructor <;> cases e <;>
        simp [State.replay, Ctl.afterResponse, raise, respond, FatalError.status, Status.isFatal])

theorem wait_replays (n : Nat) (s : State) : Replays s (wait n s) :=
  Replays.of_view (by simp) (by constructor <;> simp)

theorem sample_replays (s : State) : Replays s (sample s) :=
  Replays.of_event (sampleOf (sample s)).event rfl (by constructor <;> rfl)

theorem writeBit_replays (v : Bool) (s : State) : Replays s (writeBit v s) :=
  ((((driveSda_replays v s).trans (wait_replays 1 _)).trans (driveScl_replays true _)).trans (wait_replays 2 _)).trans
    ((driveScl_replays false _).trans (wait_replays 1 _))

theorem startCond_replays (s : State) : Replays s (startCond s) :=
  ((driveSda_replays false s).trans (wait_replays 1 _)).trans ((driveScl_replays false _).trans (wait_replays 1 _))

theorem stopCond_replays (s : State) : Replays s (stopCond s) :=
  ((driveScl_replays true s).trans (wait_replays 1 _)).trans ((driveSda_replays true _).trans (wait_replays 1 _))

theorem readPoll_replays (fuel : Nat) (s : State) : Replays s (readPoll fuel s) := by
  induction fuel generalizing s with
  | zero => exact Replays.of_view rfl SameView.rfl
  | succ fuel ih =>
    unfold readPoll
    split
    · exact sample_replays s
    · split
      · refine (sample_replays s).trans (Replays.trans (Replays.of_view ?_ ?_) (ih _))
        · split <;> rfl
        · split <;> (constructor <;> rfl)
      · split
        · exact sample_replays s
        · exact (sample_replays s).trans (ih _)

theorem readBit_replays (s : State) : Replays s (readBit s) := by
  have h1 : Replays s (readBitOpen s) :=
    (((driveScl_replays false s).trans (driveSda_replays true _)).trans (wait_replays 1 _)).trans
      ((driveScl_replays true _).trans (Replays.of_view rfl (by constructor <;> rfl)))
  exact (h1.trans (readPoll_replays s.bitWindow _)).trans ((driveScl_replays false _).trans (driveSda_replays false _))

theorem setSr_replays (v : Byte) (s : State) : Replays s (setSr v s) :=
  Replays.of_view rfl (by constructor <;> rfl)

theorem writeBits_replays (is : List Nat) (s : State) : Replays s (writeBits is s) := by
  induction is generalizing s with
  | nil => exact Replays.of_view rfl SameView.rfl
  | cons i is ih => exact (writeBit_replays _ s).trans (ih _)

theorem readBits_replays (is : List Nat) (s : State) : Replays s (readBits is s) := by
  induction is generalizing s with
  | nil => exact Replays.of_view rfl SameView.rfl
  | cons i is ih => exact ((readBit_replays s).trans (setSr_replays _ _)).trans (ih _)

theorem closeTransaction_replays (s : State) : Replays s (closeTransaction s) :=
  ((setPhase_replays .stop s).trans (stopCond_replays _)).trans (setPhase_replays .idle _)

theorem addressFrame_replays (addr : DeviceAddress) (dir : Direction) (s : State) :
    Replays s (addressFrame addr dir s) := by
  have h1 := ((loadFrame_replays addr dir s).trans (setPhase_replays .start _)).trans (startCond_replays _)
  have h2 := (h1.trans (setPhase_replays .addressing _)).trans (writeBits_replays [7, 6, 5, 4, 3, 2, 1] _)
  have h3 := (h2.trans (setPhase_replays .rwBit _)).trans (writeBits_replays [0] _)
  exact (h3.trans (setPhase_replays .ackWait _)).trans (readBit_replays _)

theorem byteFrame_replays (b : Byte) (s : State) : Replays s (byteFrame b s) := by
  have h := (setSr_replays b s).trans (writeBits_replays [7, 6, 5, 4, 3, 2, 1, 0] (setSr b s))
  exact h.trans (readBit_replays _)

/-! The store port (R45). -/

theorem memRead_replays (off n : Nat) (s : State) : Replays s (memRead off n s).2 := by
  have hs : ∀ a u, u.trace = .answer a :: .request { write := false, off := off, len := n, wdata := [] } :: s.trace →
      StoreOnly s u → Replays s u := fun a u ht ho =>
    ⟨[.request { write := false, off := off, len := n, wdata := [] }, .answer a], by simp [Emits, ht],
      by constructor <;> simp [replayAll, State.replay, ho.bbm, ho.als, ho.ctl]⟩
  have ho := memRead_storeOnly off n s
  unfold memRead at ho ⊢
  split
  · next h => rw [if_pos h] at ho; exact hs _ _ rfl ho
  · next h =>
    rw [if_neg h] at ho
    split at ho <;> try exact hs _ _ rfl ho
    exact Replays.of_event (.request _) rfl (by constructor <;> rfl)

theorem memWrite_replays (off : Nat) (bytes : List Byte) (s : State) : Replays s (memWrite off bytes s).2 := by
  have hs : ∀ a u,
      u.trace = .answer a :: .request { write := true, off := off, len := bytes.length, wdata := bytes } :: s.trace →
      u.bbm = s.bbm → u.als = s.als → u.ctl = s.ctl → Replays s u := fun a u ht hb ha hc =>
    ⟨[.request { write := true, off := off, len := bytes.length, wdata := bytes }, .answer a], by simp [Emits, ht],
      by constructor <;> simp [replayAll, State.replay, hb, ha, hc]⟩
  unfold memWrite
  simp only
  split
  · exact hs .outOfRange _ rfl rfl rfl rfl
  · split
    · exact hs .busError _ rfl rfl rfl rfl
    · split
      · exact hs .ok _ rfl rfl rfl rfl
      · exact hs .busError _ rfl rfl rfl rfl
      · exact hs .outOfRange _ rfl rfl rfl rfl
      · exact Replays.of_event (.request _) rfl (by constructor <;> rfl)

theorem finishScan_replays (i : IndexWord) (n : SeqWord) (s : State) : Replays s (finishScan i n s) :=
  (((setWriteOffset_replays i s).trans (setWriteSequence_replays n _)).trans (setLogValid_replays true _)).trans
    (respond_replays .ok 0 _ rfl)

theorem finishAppend_replays (s : State) : Replays s (finishAppend s) :=
  ((setWriteSequence_replays _ s).trans (setWriteOffset_replays _ _)).trans (respond_replays .ok _ _ rfl)

theorem scanFrom_replays (fuel i : Nat) (prev : SeqWord) (s : State) : Replays s (scanFrom fuel i prev s) := by
  induction fuel generalizing i prev s with
  | zero => exact Replays.of_view rfl SameView.rfl
  | succ fuel ih =>
    have hl : Replays s (readSlot i s).2 := memRead_replays _ _ s
    unfold scanFrom
    split
    · next s1 h => rw [h] at hl; exact hl
    · next s1 h => rw [h] at hl; exact hl.trans (raise_replays _ _)
    · next s1 h => rw [h] at hl; exact hl.trans (finishScan_replays _ _ _)
    · next bytes s1 h =>
      rw [h] at hl
      split
      · exact hl.trans (ih _ _ s1)
      · exact hl.trans (finishScan_replays _ _ _)

theorem scanStore_replays (s : State) : Replays s (scanStore s) := by
  have hl : Replays s (readSlot 0 s).2 := memRead_replays _ _ s
  unfold scanStore
  split
  · next s1 h => rw [h] at hl; exact hl
  · next s1 h => rw [h] at hl; exact hl.trans (raise_replays _ _)
  · next s1 h => rw [h] at hl; exact hl.trans (raise_replays _ _)
  · next bytes s1 h =>
    rw [h] at hl
    split
    · exact hl.trans (finishScan_replays _ _ _)
    · exact hl.trans (scanFrom_replays _ _ _ s1)

theorem loglastBody_replays (s : State) : Replays s (loglastBody s) := by
  have hl : Replays s (readSlot (s.als.writeOffset.toNat - 1) s).2 := memRead_replays _ _ s
  unfold loglastBody
  split
  · exact respond_replays .ok 0 s rfl
  · split
    · next s1 h => rw [h] at hl; exact hl
    · next s1 h => rw [h] at hl; exact hl.trans (raise_replays _ _)
    · next s1 h => rw [h] at hl; exact hl.trans (raise_replays _ _)
    · next bytes s1 h =>
      rw [h] at hl
      split <;> exact hl.trans (respond_replays .ok _ _ rfl)

theorem retryAppend_replays (record : List Byte) (s : State) : Replays s (retryAppend record s) := by
  have hl : Replays s (writeSlot 0 record (setWriteOffset 0 s)).2 :=
    (setWriteOffset_replays 0 s).trans (memWrite_replays _ _ _)
  unfold retryAppend
  split
  · next s1 h => rw [h] at hl; exact hl
  · next s1 h => rw [h] at hl; exact hl.trans (raise_replays _ _)
  · next s1 h => rw [h] at hl; exact hl.trans (raise_replays _ _)
  · next bytes s1 h => rw [h] at hl; exact hl.trans (finishAppend_replays _)

theorem logappendBody_replays (din : Nat) (s : State) : Replays s (logappendBody din s) := by
  have hl : Replays s (writeSlot s.als.writeOffset.toNat (s.cfg.encodeRecord s.als.writeSequence din) s).2 :=
    memWrite_replays _ _ s
  unfold logappendBody
  simp only
  split
  · next s1 h => rw [h] at hl; exact hl
  · next s1 h => rw [h] at hl; exact hl.trans (raise_replays _ _)
  · next s1 h => rw [h] at hl; exact hl.trans (retryAppend_replays _ _)
  · next bytes s1 h => rw [h] at hl; exact hl.trans (finishAppend_replays _)

/-- Everything an accepted command does to the registers of the status port is in its trace (R42). -/
theorem bodyOf_replays (i : Instr) (s : State) : Replays s (bodyOf i s) := by
  cases i with
  | begin addr dir =>
    have h := addressFrame_replays addr dir s
    rcases beginBody_cases addr dir s with ⟨-, he, -⟩ | ⟨-, he, -⟩ <;> rw [bodyOf, he]
    · exact (h.trans (setPhase_replays .data _)).trans (respond_replays .ok 0 _ rfl)
    · exact (h.trans (closeTransaction_replays _)).trans (respond_replays .noAck 0 _ rfl)
  | wrbit v =>
    simp only [bodyOf, wrbitBody]
    exact (writeBit_replays v s).trans (respond_replays .ok 0 _ rfl)
  | rdbit =>
    simp only [bodyOf, rdbitBody]
    exact (readBit_replays s).trans (respond_replays .ok _ _ rfl)
  | wrbyte b =>
    have h := byteFrame_replays b s
    rcases wrbyteBody_cases b s with ⟨-, he, -⟩ | ⟨-, he, -⟩ <;> rw [bodyOf, he]
    · exact h.trans (respond_replays .ok 0 _ rfl)
    · exact (h.trans (closeTransaction_replays _)).trans (respond_replays .noAck 0 _ rfl)
  | rdbyte wantAck =>
    have h := readBits_replays [7, 6, 5, 4, 3, 2, 1, 0] s
    cases wantAck <;> simp only [bodyOf, rdbyteBody, Bool.false_eq_true, ite_true, ite_false]
    · exact h.trans (respond_replays .ok _ _ rfl)
    · exact (h.trans (writeBit_replays false _)).trans (respond_replays .ok _ _ rfl)
  | end_ =>
    simp only [bodyOf, endBody]
    exact (closeTransaction_replays s).trans (respond_replays .ok 0 _ rfl)
  | loginit =>
    have h := setLogValid_replays false s
    simp only [bodyOf, loginitBody]
    split
    · exact h.trans (scanStore_replays _)
    · exact h.trans (raise_replays _ _)
  | loglast => exact loglastBody_replays s
  | logappend din => exact logappendBody_replays din s

end Sys2Proof.Machine
end

