-- ==== Sys2Proof/Laws/Timing.lean ====
section
/-! SUPPORT. How long the sequences of unit BBM last, in units of their Waits and in the ticks of their polls (R13, R285). -/

namespace Sys2Proof.Machine

/-- Where a run of events ends, the ticks of polls after it are counted anew, if its continuation begins with a line write. -/
theorem polledTicks_append (es es' : List TraceEvent) (h : ∀ a b, polledTicks a es' = polledTicks b es') (a b : Nat) :
    polledTicks a (es ++ es') = polledTicks a es + polledTicks b es' := by
  induction es generalizing a with
  | nil => simp [polledTicks, h a b]
  | cons e es ih =>
    cases e <;> simp only [List.cons_append, polledTicks, ih]
    omega

/-- A sequence from `s` to `t` that waits `n` units and polls `k` times: the units, and the ticks of its polls, each of which
lasts T_STRETCH at least, and T_BIT with two reads of TIME at most (R142, R143, R285). -/
structure Timed (n k : Nat) (s t : State) (events : List TraceEvent) : Prop where
  emits : Emits s t events
  anchored : ∀ a b, polledTicks a events = polledTicks b events
  lasts : s.line.ticks + n * s.unit + polledTicks 0 events ≤ t.line.ticks
  polls_ge : k * s.stretch ≤ polledTicks 0 events
  polls_le : polledTicks 0 events ≤ k * (s.bitWindow + 2 * s.cfg.dtMax)
  cfg : t.cfg = s.cfg
  speed : t.bbm.speed = s.bbm.speed

theorem Timed.trans {n k n' k' : Nat} {a b c : State} {es es' : List TraceEvent} (h : Timed n k a b es)
    (h' : Timed n' k' b c es') : Timed (n + n') (k + k') a c (es ++ es') := by
  obtain ⟨e1, e2, e3, e4, e5, e6, e7⟩ := h
  obtain ⟨f1, f2, f3, f4, f5, f6, f7⟩ := h'
  have hp := fun a => polledTicks_append es es' f2 a 0
  have hu : b.unit = a.unit := by simp only [unit_eq, e6, e7]
  have hs : b.stretch = a.stretch := by simp only [stretch_eq, e6, e7]
  have hb : b.bitWindow = a.bitWindow := by simp only [bitWindow_eq, e6, e7]
  rw [hu] at f3
  rw [hs] at f4
  rw [hb, e6] at f5
  unfold Emits at e1 f1
  refine ⟨by rw [Emits, f1, e1]; simp, fun x y => by rw [hp, hp, e2 x y], ?_, ?_, ?_, f6.trans e6, f7.trans e7⟩
  · rw [hp, Nat.add_mul]; omega
  · rw [hp, Nat.add_mul]; omega
  · rw [hp, Nat.add_mul]; omega

/-- A step that takes no time and shows one event that is no sample, or none. -/
theorem Timed.instant {s t : State} (es : List TraceEvent) (ht : t.trace = es.reverse ++ s.trace)
    (hz : ∀ a, polledTicks a es = 0) (hk : t.line.ticks = s.line.ticks) (hc : t.cfg = s.cfg)
    (hs : t.bbm.speed = s.bbm.speed) : Timed 0 0 s t es :=
  ⟨ht, fun a b => by rw [hz, hz], by rw [hz, hk]; omega, by omega, by rw [hz]; omega, hc, hs⟩

theorem writeBit_timed (v : Bool) (s : State) (h : s.cfg.ok s.bbm.speed = true) :
    ∃ es, Timed 4 0 s (writeBit v s) es := by
  have hw := writeBit_spec s v h
  refine ⟨[.line .sda v s.line.ticks, .line .scl true _, .line .scl false _], by rw [Emits, writeBit_trace]; rfl,
    fun a b => rfl, ?_, by omega, Nat.zero_le _, by simp, by simp⟩
  simp only [polledTicks]
  omega

theorem startCond_timed (s : State) (h : s.cfg.ok s.bbm.speed = true) : ∃ es, Timed 2 0 s (startCond s) es := by
  have hw := startCond_spec s h
  refine ⟨[.line .sda false s.line.ticks, .line .scl false _], by rw [Emits, startCond_trace]; rfl, fun a b => rfl, ?_,
    by omega, Nat.zero_le _, by simp, by simp⟩
  simp only [polledTicks]
  omega

theorem stopCond_timed (s : State) (h : s.cfg.ok s.bbm.speed = true) : ∃ es, Timed 2 0 s (stopCond s) es := by
  have hw := stopCond_spec s h
  refine ⟨[.line .scl true s.line.ticks, .line .sda true _], by rw [Emits, stopCond_trace]; rfl, fun a b => rfl, ?_,
    by omega, Nat.zero_le _, by simp, by simp⟩
  simp only [polledTicks]
  omega

theorem setPhase_timed (p : Phase) (s : State) : ∃ es, Timed 0 0 s (setPhase p s) es :=
  ⟨[.phase p s.line.ticks], Timed.instant _ rfl (fun _ => rfl) rfl rfl rfl⟩

theorem loadFrame_timed (addr : DeviceAddress) (dir : Direction) (s : State) :
    ∃ es, Timed 0 0 s (loadFrame addr dir s) es :=
  ⟨[.transaction addr dir], Timed.instant _ rfl (fun _ => rfl) rfl rfl rfl⟩

theorem setSr_timed (v : Byte) (s : State) : ∃ es, Timed 0 0 s (setSr v s) es :=
  ⟨[], Timed.instant _ rfl (fun _ => rfl) rfl rfl rfl⟩

theorem respond_timed (st : Status) (d : Nat) (s : State) : ∃ es, Timed 0 0 s (respond st d s) es :=
  ⟨[.response st d], Timed.instant _ rfl (fun _ => rfl) rfl rfl rfl⟩

/-- The ticks that a poll takes are the ticks between its samples. -/
theorem readPoll_polled (fuel : Nat) (s : State) :
    ∃ es, Emits s (readPoll fuel s) es ∧
      ∀ a, a = s.line.ticks ∨ 1 ≤ fuel ∧ a ≤ s.line.ticks → polledTicks a es + a = (readPoll fuel s).line.ticks := by
  induction fuel generalizing s with
  | zero =>
    refine ⟨[], rfl, fun a ha => ?_⟩
    rw [readPoll, polledTicks]
    omega
  | succ fuel ih =>
    have hx : (sampleOf (sample s)).ticks = s.line.ticks + advanceAmount s := rfl
    have hone : ∃ es, Emits s (sample s) es ∧
        ∀ a, a = s.line.ticks ∨ 1 ≤ fuel + 1 ∧ a ≤ s.line.ticks → polledTicks a es + a = (sample s).line.ticks := by
      refine ⟨[(sampleOf (sample s)).event], rfl, fun a ha => ?_⟩
      simp only [Sample.event, polledTicks, sample_ticks, hx]
      omega
    have hmore : ∀ s1, s1.trace = (sample s).trace → s1.line.ticks = (sample s).line.ticks →
        ∃ es, Emits s (readPoll fuel s1) es ∧
          ∀ a, a = s.line.ticks ∨ 1 ≤ fuel + 1 ∧ a ≤ s.line.ticks →
            polledTicks a es + a = (readPoll fuel s1).line.ticks := by
      intro s1 ht hk
      obtain ⟨es, he, hp⟩ := ih s1
      refine ⟨(sampleOf (sample s)).event :: es, ?_, fun a ha => ?_⟩
      · rw [Emits, he, ht, sample_trace]; simp
      · have h1 := hp s1.line.ticks (.inl rfl)
        rw [hk, sample_ticks] at h1
        simp only [Sample.event, polledTicks, hx]
        omega
    unfold readPoll
    split
    · exact hone
    · split
      · exact hmore _ (by split <;> rfl) (by split <;> rfl)
      · split
        · exact hone
        · exact hmore _ rfl rfl

theorem readBit_timed (s : State) (h : s.cfg.ok s.bbm.speed = true) : ∃ es, Timed 1 1 s (readBit s) es := by
  obtain ⟨clk, polls, last, hR⟩ := readBit_spec s h
  obtain ⟨h1, h2, h3⟩ := configOk_windows _ _ h
  obtain ⟨a, hclk, hstamp, ha, hlast, -, -⟩ := hR.stamped
  obtain ⟨es, he, hp⟩ := readPoll_polled s.bitWindow (readBitOpen s)
  have hopen : clk ≤ (readBitOpen s).line.ticks := by
    rw [hR.clk_eq]
    exact Nat.le_add_right _ _
  have htk : (readPoll s.bitWindow (readBitOpen s)).line.ticks = last.ticks := hR.ticks
  have hsum := hp clk (.inr ⟨by simp only [bitWindow_eq]; omega, hopen⟩)
  have hstretch : s.stretch ≤ last.ticks - a := by
    have hend := hR.last_ends
    have hsince := Sample.since_eq s.cfg a _ last hstamp (by omega) (by simp only [bitWindow_eq] at hlast; omega)
    simp only [Sample.goesOn, hsince, Bool.and_eq_false_iff, Bool.or_eq_false_iff, decide_eq_false_iff_not] at hend
    simp only [stretch_eq]
    omega
  have htr : (readBitOpen s).trace =
      .line .scl true clk :: .line .sda true s.line.ticks :: .line .scl false s.line.ticks :: s.trace := by
    rw [hR.clk_eq]; simp [readBitOpen]
  have hsplit : ∀ x, polledTicks x
      (.line .scl false s.line.ticks :: .line .sda true s.line.ticks :: .line .scl true clk ::
        (es ++ [.line .scl false last.ticks, .line .sda false last.ticks])) = polledTicks clk es := by
    intro x
    simp only [polledTicks]
    rw [polledTicks_append es _ (fun _ _ => rfl) clk 0]
    simp [polledTicks]
  have hc := hR.clk_after
  have hl := hR.last_before
  have hrt := hR.ticks
  refine ⟨_, ?_, fun x y => by rw [hsplit, hsplit], ?_, ?_, ?_, by simp, by simp⟩
  · show TraceEvent.line .sda false _ :: .line .scl false _ :: (readPoll s.bitWindow (readBitOpen s)).trace = _
    rw [htk, he, htr]
    simpa using htk
  · rw [hsplit]; omega
  · rw [hsplit]; omega
  · rw [hsplit]; omega

theorem writeBits_timed (is : List Nat) (s : State) (h : s.cfg.ok s.bbm.speed = true) :
    ∃ es, Timed (4 * is.length) 0 s (writeBits is s) es := by
  induction is generalizing s with
  | nil => exact ⟨[], Timed.instant _ rfl (fun _ => rfl) rfl rfl rfl⟩
  | cons i is ih =>
    obtain ⟨e1, h1⟩ := writeBit_timed (s.bbm.sr.getLsbD i) s h
    obtain ⟨e2, h2⟩ := ih (writeBit (s.bbm.sr.getLsbD i) s) (by simpa using h)
    have h3 := h1.trans h2
    rw [show 4 + 4 * is.length = 4 * (i :: is).length by simp; omega] at h3
    exact ⟨_, h3⟩

theorem readBits_timed (is : List Nat) (s : State) (h : s.cfg.ok s.bbm.speed = true) :
    ∃ es, Timed is.length is.length s (readBits is s) es := by
  induction is generalizing s with
  | nil => exact ⟨[], Timed.instant _ rfl (fun _ => rfl) rfl rfl rfl⟩
  | cons i is ih =>
    obtain ⟨e1, h1⟩ := readBit_timed s h
    obtain ⟨e2, h2⟩ := setSr_timed (setBit (readBit s).bbm.sr i (readBit s).bbm.bitacc) (readBit s)
    obtain ⟨e3, h3⟩ := ih (setSr (setBit (readBit s).bbm.sr i (readBit s).bbm.bitacc) (readBit s)) (by simpa using h)
    have h4 := (h1.trans h2).trans h3
    rw [show 1 + 0 + is.length = (i :: is).length by simp; omega] at h4
    exact ⟨_, h4⟩

theorem closeTransaction_timed (s : State) (h : s.cfg.ok s.bbm.speed = true) :
    ∃ es, Timed 2 0 s (closeTransaction s) es := by
  obtain ⟨e1, h1⟩ := setPhase_timed .stop s
  obtain ⟨e2, h2⟩ := stopCond_timed (setPhase .stop s) h
  obtain ⟨e3, h3⟩ := setPhase_timed .idle (stopCond (setPhase .stop s))
  exact ⟨_, (h1.trans h2).trans h3⟩

/-- BEGIN up to its acknowledgment lasts 35 units and one poll (R285). -/
theorem addressFrame_timed (addr : DeviceAddress) (dir : Direction) (s : State) (h : s.cfg.ok s.bbm.speed = true) :
    ∃ es, Timed 35 1 s (addressFrame addr dir s) es := by
  obtain ⟨e0, h0⟩ := loadFrame_timed addr dir s
  obtain ⟨e1, h1⟩ := setPhase_timed .start (loadFrame addr dir s)
  have k2 := h0.trans h1
  obtain ⟨e2, h2⟩ := startCond_timed _ (show Config.ok _ _ = true by rw [k2.cfg, k2.speed]; exact h)
  have k3 := k2.trans h2
  obtain ⟨e3, h3⟩ := setPhase_timed .addressing _
  have k4 := k3.trans h3
  obtain ⟨e4, h4⟩ := writeBits_timed [7, 6, 5, 4, 3, 2, 1] _ (show Config.ok _ _ = true by rw [k4.cfg, k4.speed]; exact h)
  have k5 := k4.trans h4
  obtain ⟨e5, h5⟩ := setPhase_timed .rwBit _
  have k6 := k5.trans h5
  obtain ⟨e6, h6⟩ := writeBits_timed [0] _ (show Config.ok _ _ = true by rw [k6.cfg, k6.speed]; exact h)
  have k7 := k6.trans h6
  obtain ⟨e7, h7⟩ := setPhase_timed .ackWait _
  have k8 := k7.trans h7
  obtain ⟨e8, h8⟩ := readBit_timed _ (show Config.ok _ _ = true by rw [k8.cfg, k8.speed]; exact h)
  exact ⟨_, k8.trans h8⟩

/-- WRBYTE up to its acknowledgment lasts 33 units and one poll (R285). -/
theorem byteFrame_timed (b : Byte) (s : State) (h : s.cfg.ok s.bbm.speed = true) :
    ∃ es, Timed 33 1 s (byteFrame b s) es := by
  obtain ⟨e1, h1⟩ := setSr_timed b s
  obtain ⟨e2, h2⟩ := writeBits_timed [7, 6, 5, 4, 3, 2, 1, 0] (setSr b s) h
  have k := h1.trans h2
  obtain ⟨e3, h3⟩ := readBit_timed _ (show Config.ok _ _ = true by rw [k.cfg, k.speed]; exact h)
  exact ⟨_, k.trans h3⟩

end Sys2Proof.Machine
end

