-- ==== Sys2Proof/Tests/Slice0.lean ====
section
/-! SUPPORT. Small tests of one step each, expected values from 95_test_vectors.md (the vector is named); the refusals of
WellFormed; and, for every statement with hypotheses, a concrete state that meets them. -/

namespace Sys2Proof.Tests

open Sys2Proof.Machine

/-! One theorem at a time: many kernel evaluations side by side would each take a thread of their own. -/
set_option Elab.async false

/-! ## Small states -/

/-- The peer leaves both lines alone. -/
def idlePair : PeerPair := { scl := true, sda := true }

/-- The peer holds data low under a released clock. -/
def pullPair : PeerPair := { scl := true, sda := false }

/-- The peer stretches the clock. -/
def stretchPair : PeerPair := { scl := false, sda := true }

/-- The reset state of the test configuration TC, the peer scripted, no time between commands. -/
def atIdle (peers : List PeerPair) : State :=
  { State.reset with
    line := { LineEnv.atReset with peers := { script := peers, count := 0 }, gaps := { script := [0, 0, 0, 0], count := 0 } } }

/-- Inside a transaction, both lines low. -/
def atData (peers : List PeerPair) : State :=
  { atIdle peers with bbm := { Bbm.reset .slow with phase := .data, sclDrv := false, sdaDrv := false } }

/-- The image of slots written `(counter, payload)`, the others erased. -/
def image (slots : List (SeqWord × Nat)) : Memory :=
  Memory.writeBytes [] 0 (slots.flatMap fun p => Config.reference.encodeRecord p.1 p.2)

/-- A block over a store image, its answers scripted, its log registers given. -/
def atLog (slots : List (SeqWord × Nat)) (draws : List StoreDraw) (als : Als) : State :=
  { atIdle [] with
    als := als
    store := { Store.atReset with nv := image slots, answers := { script := draws, count := 0 } } }

/-- The log registers of a valid log. -/
def logRegs (offset : IndexWord) (seq : SeqWord) : Als :=
  { writeOffset := offset, writeSequence := seq, logValid := true }

/-- The same state with a configuration of its own. -/
def withConfig (c : Config) (s : State) : State := { s with cfg := c }

/-- PAGE_SIZE 4, which RECORD_SIZE 8 does not divide. -/
def misfit : Config := { Config.reference with pageSize := 4 }

/-- PAGE_SIZE 12 and CAPACITY 36 (V49). -/
def v49 : Config := { Config.reference with pageSize := 12, capacity := 36 }

/-- A configuration without a DT_MAX, which R8 (b) forbids. -/
def broken : Config := { Config.reference with dtMax := 0 }

/-- What the host drives next. -/
def driving (cw : CommandWord) (din : Nat) (s : State) : State := { s with host := [.command cw din] }

/-- A halted block. -/
def halted (s : State) : State := { s with ctl := { Ctl.reset with halt := true, faultCode := 3 } }

/-- The state an outcome leaves. -/
def after (o : Host.Outcome State Fault Refusal) : State :=
  match o with
  | .next t => t
  | .fault _ => State.reset
  | .refused _ => State.reset

/-- Whether an outcome is a next state. -/
def isNext (o : Host.Outcome State Fault Refusal) : Bool :=
  match o with
  | .next _ => true
  | .fault _ => false
  | .refused _ => false

theorem eq_next_after (o : Host.Outcome State Fault Refusal) (h : isNext o = true) : o = .next (after o) := by
  cases o with
  | next t => rfl
  | fault f => cases h
  | refused r => cases h

/-- The events of a step, the oldest first. -/
def events (t : State) : List TraceEvent := t.trace.reverse

/-- The line writes with their times, in order. -/
def lineTrace (t : State) : List (Line × Bool × Nat) :=
  (events t).filterMap fun
    | .line l v k => some (l, v, k)
    | _ => none

/-- The phases with their times, in order. -/
def phaseTrace (t : State) : List (Phase × Nat) :=
  (events t).filterMap fun
    | .phase p k => some (p, k)
    | _ => none

/-- The byte offsets of the store requests, in order. -/
def offsets (t : State) : List Nat := (requestsOf (events t)).map StoreRequest.off

/-- The response, with the tick count at the end. -/
def response (t : State) : Status × Nat × Nat := (t.ctl.rspStatus, t.ctl.rspData, t.line.ticks)

/-! ## WellFormed -/

/-- R106: a payload of PW + 1 bits fits no port of PW wires. -/
theorem test_wf_refuses_a_wide_payload : Instr.wf Config.reference (.logappend (2 ^ 32)) = false := by decide +kernel

theorem test_wf_takes_the_widest_payload : Instr.wf Config.reference (.logappend (2 ^ 32 - 1)) = true := by decide +kernel

/-! ## Decoding: words written out from R100 to R106 -/

theorem test_decode_begin : decode 0b0001000010100000 0 = some (.begin 0b1010000 .write) := by decide
theorem test_decode_wrbit : decode 0b0010000000000001 0 = some (.wrbit true) := by decide
theorem test_decode_rdbit : decode 0b0011000000000000 0 = some .rdbit := by decide
theorem test_decode_wrbyte : decode 0b0100000010100101 0 = some (.wrbyte 0xA5) := by decide
theorem test_decode_rdbyte : decode 0b0101000000000001 0 = some (.rdbyte true) := by decide
theorem test_decode_end : decode 0b0110000000000000 0 = some .end_ := by decide
theorem test_decode_loginit : decode 0b1000000000000000 0 = some .loginit := by decide
theorem test_decode_loglast : decode 0b1001000000000000 0 = some .loglast := by decide
theorem test_decode_logappend : decode 0b1010000000000000 0x55 = some (.logappend 0x55) := by decide

/-- V28: reserved opcodes and must-be-zero bits. -/
theorem test_decode_refuses :
    [0x0000, 0xFFFF, 0x7000, 0xB123, 0x2002, 0x3001, 0x1100, 0x6001, 0xA001, (0x8800 : CommandWord)].all
      (fun w => (decode w 0).isNone) = true := by decide

/-- The opcode table's bits: CW is bits 15 to 0. -/
theorem test_decode_table_word : decodeTableWord 16 0x10A1 = some (.begin 0x50 .read) := by decide

/-! ## BEGIN -/

/-- V20. -/
theorem test_begin_acknowledged :
    response (after (exec (.begin 0x50 .write) (atIdle (List.replicate 16 pullPair)))) = (.ok, 0, 184) ∧
      statusPort 0 (after (exec (.begin 0x50 .write) (atIdle (List.replicate 16 pullPair)))) = 0x00000505 ∧
      phaseTrace (after (exec (.begin 0x50 .write) (atIdle (List.replicate 16 pullPair)))) =
        [(.start, 0), (.addressing, 10), (.rwBit, 143), (.ackWait, 162), (.data, 184)] := by
  decide +kernel

/-- V21: the stop condition comes before the response. -/
theorem test_begin_not_acknowledged :
    response (after (exec (.begin 0x50 .write) (atIdle (List.replicate 16 idlePair)))) = (.noAck, 0, 194) ∧
      statusPort 0 (after (exec (.begin 0x50 .write) (atIdle (List.replicate 16 idlePair)))) = 0x00081D00 ∧
      (lineTrace (after (exec (.begin 0x50 .write) (atIdle (List.replicate 16 idlePair))))).drop 26 =
        [(.scl, false, 162), (.sda, true, 162), (.scl, true, 167), (.scl, false, 184), (.sda, false, 184),
          (.scl, true, 184), (.sda, true, 189)] := by
  decide +kernel

/-! ## WRBIT and RDBIT -/

/-- V1. -/
theorem test_wrbit_one :
    lineTrace (after (exec (.wrbit true) (atData []))) = [(.sda, true, 0), (.scl, true, 5), (.scl, false, 14)] ∧
      response (after (exec (.wrbit true) (atData []))) = (.ok, 0, 19) := by
  decide +kernel

/-- V28: WRBIT needs PHASE DATA; nothing else changes. -/
theorem test_wrbit_refused_in_idle : after (exec (.wrbit true) (atIdle [])) = refuse .illegal (atIdle []) := by
  decide +kernel

/-- V13: the longest tolerated stretch. -/
theorem test_rdbit_stretched :
    lineTrace (after (exec .rdbit (atData (List.replicate 7 stretchPair ++ List.replicate 9 pullPair)))) =
        [(.scl, false, 0), (.sda, true, 0), (.scl, true, 5), (.scl, false, 22), (.sda, false, 22)] ∧
      response (after (exec .rdbit (atData (List.replicate 7 stretchPair ++ List.replicate 9 pullPair)))) =
        (.ok, 0, 22) := by
  decide +kernel

/-- V14: one sample longer, and the poll ends with the default. -/
theorem test_rdbit_stretched_too_long :
    response (after (exec .rdbit (atData (List.replicate 8 stretchPair ++ List.replicate 8 pullPair)))) =
      (.ok, 1, 14) := by
  decide +kernel

/-! ## WRBYTE, RDBYTE, END -/

/-- V22. -/
theorem test_wrbyte_acknowledged :
    response (after (exec (.wrbyte 0xA5) (atData (List.replicate 16 pullPair)))) = (.ok, 0, 174) ∧
      (lineTrace (after (exec (.wrbyte 0xA5) (atData (List.replicate 16 pullPair))))).filterMap
          (fun e => if e.1 = .sda then some e.2.1 else none) =
        [true, false, true, false, false, true, false, true, true, false] := by
  decide +kernel

/-- V23. -/
theorem test_wrbyte_not_acknowledged :
    response (after (exec (.wrbyte 0xA5) (atData (List.replicate 16 idlePair)))) = (.noAck, 0, 184) ∧
      (after (exec (.wrbyte 0xA5) (atData (List.replicate 16 idlePair)))).bbm.phase = .idle := by
  decide +kernel

/-- The peer of V24: the bits of 0x3C, each for one ReadBit. -/
def peer3C : List PeerPair :=
  [false, false, true, true, true, true, false, false].flatMap fun b => List.replicate 16 { scl := true, sda := b }

/-- V24. -/
theorem test_rdbyte_ack :
    response (after (exec (.rdbyte true) (atData peer3C))) = (.ok, 0x3C, 195) ∧
      (lineTrace (after (exec (.rdbyte true) (atData peer3C)))).drop 40 =
        [(.sda, false, 176), (.scl, true, 181), (.scl, false, 190)] := by
  decide +kernel

/-- V25. -/
theorem test_rdbyte_nack : response (after (exec (.rdbyte false) (atData peer3C))) = (.ok, 0x3C, 176) := by
  decide +kernel

/-- V26. -/
theorem test_end_from_data :
    lineTrace (after (exec .end_ (atData []))) = [(.scl, true, 0), (.sda, true, 5)] ∧
      phaseTrace (after (exec .end_ (atData []))) = [(.stop, 0), (.idle, 10)] := by
  decide +kernel

/-- V27. -/
theorem test_end_from_idle : response (after (exec .end_ (atIdle []))) = (.ok, 0, 10) := by decide +kernel

/-! ## The log -/

/-- V46: the erased slot continues the run. -/
theorem test_loginit_erased_slot_continues :
    (after (exec .loginit (atLog [(0xFFFFFFFD, 1), (0xFFFFFFFE, 2)] (List.replicate 4 .ok) Als.reset))).als =
        logRegs 3 0 ∧
      offsets (after (exec .loginit (atLog [(0xFFFFFFFD, 1), (0xFFFFFFFE, 2)] (List.replicate 4 .ok) Als.reset))) =
        [0, 8, 16, 24] := by
  decide +kernel

/-- V49: STATUS from reset. -/
theorem test_loginit_sizes :
    statusPort 0 (after (exec .loginit (withConfig v49 (atLog [] [] Als.reset)))) = 0x00245800 := by
  decide +kernel

/-- V41. -/
theorem test_loglast :
    response (after (exec .loglast (atLog [(0, 0x11), (1, 0x22), (2, 0x33)] [.ok] (logRegs 3 3)))) = (.ok, 0x33, 0) ∧
      offsets (after (exec .loglast (atLog [(0, 0x11), (1, 0x22), (2, 0x33)] [.ok] (logRegs 3 3)))) = [16] := by
  decide +kernel

/-- V51: the newest record carries the sentinel as its counter. -/
theorem test_loglast_sentinel :
    response (after (exec .loglast
      (atLog [(0xFFFFFFFD, 1), (0xFFFFFFFE, 2), (0xFFFFFFFF, 3), (0x10, 4)] [.ok] (logRegs 3 0)))) = (.ok, 0, 0) := by
  decide +kernel

/-- V52: the wrap. -/
theorem test_logappend_wraps :
    offsets (after (exec (.logappend 0xDEADBEEF)
        (atLog [(0, 0x11), (1, 0x22), (2, 0x33), (3, 0x44)] [.ok] (logRegs 4 4)))) = [32, 0] ∧
      (after (exec (.logappend 0xDEADBEEF)
        (atLog [(0, 0x11), (1, 0x22), (2, 0x33), (3, 0x44)] [.ok] (logRegs 4 4)))).als = logRegs 1 5 ∧
      (after (exec (.logappend 0xDEADBEEF)
        (atLog [(0, 0x11), (1, 0x22), (2, 0x33), (3, 0x44)] [.ok] (logRegs 4 4)))).store.nv =
        Memory.writeBytes (image [(0, 0x11), (1, 0x22), (2, 0x33), (3, 0x44)]) 0
          [0x04, 0x00, 0x00, 0x00, 0xEF, 0xBE, 0xAD, 0xDE] := by
  decide +kernel

/-- V53. -/
theorem test_logappend_bus_error :
    response (after (exec (.logappend 5) (atLog [(0, 0x11)] [.busError] (logRegs 1 1)))) = (.busError, 0, 0) ∧
      (after (exec (.logappend 5) (atLog [(0, 0x11)] [.busError] (logRegs 1 1)))).als = logRegs 1 1 := by
  decide +kernel

/-- A block over one record in slot 0 and a store that answers two writes AddressOutOfRange, leaving these bytes. -/
def brokenContract : State :=
  { atLog [(0, 0x11)] [.outOfRange, .outOfRange] (logRegs 1 1) with
    store := { (atLog [(0, 0x11)] [.outOfRange, .outOfRange] (logRegs 1 1)).store with
      debris := { script := List.replicate 8 0xAB ++ List.replicate 8 0xCD, count := 0 } } }

/-- R210: after a retry answered AddressOutOfRange the addressed slot may hold any value. -/
theorem test_logappend_retry_out_of_range :
    response (after (exec (.logappend 5) brokenContract)) = (.busError, 0, 0) ∧
      slotBytes Config.reference (after (exec (.logappend 5) brokenContract)).store.nv 0 = List.replicate 8 0xCD := by
  decide +kernel

/-! ## The step, reset and the status port -/

/-- P1: the STATUS of the reset state. -/
theorem test_status_after_reset : statusPort 0 State.reset = 0x00001800 := by decide +kernel

/-- R33, R42: STATUS inside BEGIN 0x50, R, after its first event: TXN_ADDR and TXN_DIR are written, PHASE still reads IDLE. -/
theorem test_status_inside_begin :
    statusDuring 0 1 (after (step (driving 0x10A1 0 (atIdle (List.replicate 16 pullPair))))).trace
      (atIdle (List.replicate 16 pullPair)) = 0x00001D08 := by
  decide +kernel

/-- R42, V52: LOG_OFFSET inside LOGAPPEND, before and after the wrap sets WRITE_OFFSET to 0. -/
theorem test_log_offset_inside_logappend :
    (List.range 4).map (fun k =>
      statusDuring 1 k
        (after (step (driving 0xA000 5 (atLog [(0, 0x11), (1, 0x22), (2, 0x33), (3, 0x44)] [.ok] (logRegs 4 4))))).trace
        (atLog [(0, 0x11), (1, 0x22), (2, 0x33), (3, 0x44)] [.ok] (logRegs 4 4))) = [4, 4, 4, 0] := by
  decide +kernel

/-- R45, R110: the codes of `mem_status`, the reserved one treated as BusError. -/
theorem test_mem_status_codes :
    [0, 1, 2, (3 : BitVec 2)].map StoreAnswer.ofStatus = [.ok, .outOfRange, .busError, .busError] ∧
      [StoreAnswer.ok, .outOfRange, .busError].map StoreAnswer.code = [0, 1, 2] := by
  decide

/-- The first instruction after reset is the one at the command port. -/
theorem test_fetch_word :
    (after (step ((atIdle (List.replicate 16 pullPair)).withFetchWord 16 0x10A0))).bbm.txnAddr = 0x50 := by
  decide +kernel

/-- R261: a reset inside BEGIN releases the lines and gives no response. -/
theorem test_reset_during_begin :
    (after (step { atIdle (List.replicate 16 pullPair) with host := [.resetDuring 0x10A0 0 12 .fast] })).bbm =
        Bbm.reset .fast ∧
      responsesOf (events (after (step
        { atIdle (List.replicate 16 pullPair) with host := [.resetDuring 0x10A0 0 12 .fast] }))) = [] := by
  decide +kernel

/-- R261: a reset between the two writes of a LOGAPPEND leaves slot 0, which the retry has not reached, as it was. -/
theorem test_reset_between_the_writes :
    slotBytes Config.reference
        (after (step { brokenContract with host := [.resetDuring 0xA000 5 3 .slow] })).store.nv 0 =
      Config.reference.encodeRecord 0 0x11 := by
  decide +kernel

/-! ## Witnesses: the hypotheses of each statement, met together -/

theorem config_ok : Config.reference.ok .slow = true := by decide +kernel

theorem sizes_fit : Config.reference.sizesFit = true := by decide +kernel

theorem ready_atIdle (peers : List PeerPair) : Ready (atIdle peers) := ⟨config_ok, rfl⟩

theorem ready_atData (peers : List PeerPair) : Ready (atData peers) := ⟨config_ok, rfl⟩

theorem ready_atLog (slots : List (SeqWord × Nat)) (draws : List StoreDraw) (als : Als) : Ready (atLog slots draws als) :=
  ⟨config_ok, rfl⟩

theorem witness_DecodeOfEncodeIsIdentity :
    Instr.wf Config.reference (.logappend 0) = true ∧ Instr.wf Config.reference (.begin 0x7F .read) = true := by
  decide +kernel

theorem witness_DecodedWordIsTheEncoding :
    decode 0x10FF 7 = some (.begin 0x7F .read) ∧ decode 0xA000 7 = some (.logappend 7) := by decide

/-- The first and the last reserved opcode, with other bits set. -/
theorem witness_ReservedOpcodesAreIllegal :
    ∀ cw ∈ [0x0001, 0x7FFF, 0xB123, 0xC000, 0xD000, 0xE000, (0xFFFF : CommandWord)],
      (driving cw 0 (atIdle [])).host = .command cw 0 :: [] ∧ Ready (driving cw 0 (atIdle [])) ∧
        (driving cw 0 (atIdle [])).ctl.cmdReady = true ∧
        cw.extractLsb' 12 4 ∈ [0x0, 0x7, 0xB, 0xC, 0xD, 0xE, (0xF : BitVec 4)] := by
  intro cw h
  refine ⟨rfl, ⟨config_ok, rfl⟩, rfl, ?_⟩
  simp only [List.mem_cons, List.not_mem_nil, or_false] at h
  rcases h with rfl | rfl | rfl | rfl | rfl | rfl | rfl <;> decide

/-- One word for each clause, at the lowest must-be-zero bit of its format. -/
theorem witness_MustBeZeroBitsAreIllegal :
    ((0x1100 : CommandWord).extractLsb' 12 4 ∈ [0x1, (0x4 : BitVec 4)] ∧ (0x1100 : CommandWord).extractLsb' 8 4 ≠ 0) ∧
    ((0x2002 : CommandWord).extractLsb' 12 4 ∈ [0x2, (0x5 : BitVec 4)] ∧ (0x2002 : CommandWord).extractLsb' 1 11 ≠ 0) ∧
    ((0x3001 : CommandWord).extractLsb' 12 4 ∈ [0x3, 0x6, 0x8, 0x9, (0xA : BitVec 4)] ∧
      (0x3001 : CommandWord).extractLsb' 0 12 ≠ 0) ∧
    ∀ cw, (driving cw 0 (atData [])).host = .command cw 0 :: [] ∧ Ready (driving cw 0 (atData [])) ∧
      (driving cw 0 (atData [])).ctl.cmdReady = true := by
  refine ⟨by decide, by decide, by decide, fun cw => ⟨rfl, ⟨config_ok, rfl⟩, rfl⟩⟩

theorem witness_DinIsIgnored : (0x3000 : CommandWord) ≠ 0xA000 := by decide

theorem witness_StepRunsTheDecodedCommand :
    (driving 0x2001 0 (atData [])).host = .command 0x2001 0 :: [] ∧ (driving 0x2001 0 (atData [])).ctl.cmdReady = true ∧
      decode 0x2001 (0 % 2 ^ (driving 0x2001 0 (atData [])).cfg.payloadWidth) = some (.wrbit true) := by
  decide +kernel

theorem witness_NothingIsAcceptedUnlessReady :
    (driving 0x2001 0 (busy (atData []))).host = .command 0x2001 0 :: [] ∧
      (driving 0x2001 0 (busy (atData []))).ctl.cmdReady = false ∧ (atData []).host = [] := by
  decide +kernel

/-- Halted; and not halted in a phase that does not allow the command. -/
theorem witness_AcceptanceChecksInOrder :
    (halted (atIdle [])).cfg.ok (halted (atIdle [])).bbm.speed = true ∧ (halted (atIdle [])).ctl.halt = true ∧
      (atIdle []).cfg.ok (atIdle []).bbm.speed = true ∧ (atIdle []).ctl.halt = false ∧ ¬ allowedNow (atIdle []) .rdbit := by
  refine ⟨by decide +kernel, rfl, by decide +kernel, rfl, by simp [allowedNow, atIdle, State.reset, Bbm.reset]⟩

theorem witness_HaltedRefusesEveryWord :
    (driving 0x0000 0 (halted (atIdle []))).host = .command 0x0000 0 :: [] ∧
      (driving 0x0000 0 (halted (atIdle []))).cfg.ok (driving 0x0000 0 (halted (atIdle []))).bbm.speed = true ∧
      (driving 0x0000 0 (halted (atIdle []))).ctl.cmdReady = true ∧
      (driving 0x0000 0 (halted (atIdle []))).ctl.halt = true := by
  decide +kernel

/-- A configuration that breaks R8 (b), and one that meets every constraint. -/
theorem witness_BrokenConfigurationIsRefused :
    ¬ MeetsConstraints broken .slow ∧ MeetsConstraints Config.reference .slow := by
  refine ⟨fun h => ?_, ⟨by decide, by decide⟩, ⟨by decide, by decide⟩, ?_, ⟨by decide, by decide⟩, by decide, by decide,
    by decide⟩
  · exact absurd h.2.1.1 (by decide)
  · intro v; cases v <;> decide

theorem witness_OnlyResetLeavesHalt :
    step (driving 0x8000 0 (halted (atIdle []))) = .next (after (step (driving 0x8000 0 (halted (atIdle []))))) ∧
      (driving 0x8000 0 (halted (atIdle []))).ctl.halt = true ∧
      (∀ strap rest, (driving 0x8000 0 (halted (atIdle []))).host ≠ .reset strap :: rest) ∧
      ∀ cw din cut strap rest,
        (driving 0x8000 0 (halted (atIdle []))).host ≠ .resetDuring cw din cut strap :: rest := by
  refine ⟨eq_next_after _ (by decide +kernel), rfl, fun _ _ h => ?_, fun _ _ _ _ _ h => ?_⟩ <;>
    simp [driving] at h

theorem witness_ResetLeavesTheResetValues :
    ({ halted (atData []) with host := [.reset .fast] } : State).host = .reset .fast :: [] ∧
      ({ halted (atData []) with host := [.reset .fast] } : State).store.pending = none := by
  decide +kernel

/-- Cut at each of LOGAPPEND's moments: before its request, its answer, its two register writes, its response, and after;
with a store that works and one that breaks its contract. -/
theorem witness_ResetDuringCommandKeepsTheStore :
    ∀ cut < 6, ∀ draw ∈ [StoreDraw.ok, .outOfRange],
      ({ atLog [(0, 1)] [draw] (logRegs 1 1) with host := [.resetDuring 0xA000 7 cut .slow] } : State).host =
          .resetDuring 0xA000 7 cut .slow :: [] ∧
        (atLog [(0, 1)] [draw] (logRegs 1 1)).cfg.ok (atLog [(0, 1)] [draw] (logRegs 1 1)).bbm.speed = true ∧
        (atLog [(0, 1)] [draw] (logRegs 1 1)).store.pending = none := by
  intro cut _ draw _
  exact ⟨rfl, config_ok, rfl⟩

/-- The whole LOGAPPEND of that cut has five events and a response. -/
theorem witness_a_whole_command_before_the_reset :
    (after (step (driving 0xA000 7 (atLog [(0, 1)] [.ok] (logRegs 1 1))))).trace.length ≤ 5 ∧
      (after (step (driving 0xA000 7 (atLog [(0, 1)] [.ok] (logRegs 1 1))))).ctl.cmdReady = true := by
  decide +kernel

/-- A block stuck in a LOGAPPEND whose write is never answered. -/
def stuck : State :=
  after (step (driving 0xA000 7 (atLog [(0, 1)] [.silent] (logRegs 1 1))))

/-- The reset of a stuck block: a write is in flight, and `cmd_ready` is 0. -/
theorem witness_reset_of_a_stuck_block :
    stuck.ctl.cmdReady = false ∧
      stuck.store.pending = some (slotWrite Config.reference 1 (Config.reference.encodeRecord 1 7)) := by
  decide +kernel

theorem witness_StatusPortMirrorsTheRegisters :
    step (driving 0x10A1 0 (atIdle [])) = .next (after (step (driving 0x10A1 0 (atIdle [])))) :=
  eq_next_after _ (by decide +kernel)

theorem witness_NowAdvancesTime : State.reset.cfg.ok State.reset.bbm.speed = true := by decide +kernel

theorem witness_WaitLastsItsUnits :
    State.reset.cfg.ok State.reset.bbm.speed = true ∧ (1 = 1 ∨ 1 = 2) ∧ (2 = 1 ∨ 2 = 2) := by decide +kernel

/-- WRBIT, RDBIT, WRBYTE, RDBYTE and END. -/
theorem witness_data_phase : Ready (atData []) ∧ (atData []).bbm.phase = .data := ⟨ready_atData _, rfl⟩

theorem witness_WrbitWritesOneBit : Ready (atData []) ∧ (atData []).bbm.phase = .data := witness_data_phase
theorem witness_RdbitReadsOneBit : Ready (atData []) ∧ (atData []).bbm.phase = .data := witness_data_phase
theorem witness_RdbitBitIsTheActiveWindow : Ready (atData []) ∧ (atData []).bbm.phase = .data := witness_data_phase
theorem witness_RdbitPollEndsByAWindow : Ready (atData []) ∧ (atData []).bbm.phase = .data := witness_data_phase
theorem witness_WrbyteWritesOneByte : Ready (atData []) ∧ (atData []).bbm.phase = .data := witness_data_phase
theorem witness_RdbyteReadsOneByte : Ready (atData []) ∧ (atData []).bbm.phase = .data := witness_data_phase

theorem witness_RdbitIdleLineDefault :
    (Ready (atData (List.replicate 16 idlePair)) ∧ (atData (List.replicate 16 idlePair)).bbm.phase = .data ∧
      PeerIdle (atData (List.replicate 16 idlePair)).bitWindow (atData (List.replicate 16 idlePair))) ∧
    Ready (atData (List.replicate 16 stretchPair)) ∧ (atData (List.replicate 16 stretchPair)).bbm.phase = .data ∧
      PeerStretches (atData (List.replicate 16 stretchPair)).bitWindow (atData (List.replicate 16 stretchPair)) := by
  refine ⟨⟨ready_atData _, rfl, ?_⟩, ready_atData _, rfl, ?_⟩
  · unfold PeerIdle; decide +kernel
  · unfold PeerStretches; decide +kernel

/-- The longest tolerated stretch (V13), and none at all. -/
theorem witness_RdbitToleratesAShortStretch :
    ∀ n ∈ [0, 7],
      Ready (atData (List.replicate n stretchPair ++ [pullPair])) ∧
        (atData (List.replicate n stretchPair ++ [pullPair])).bbm.phase = .data ∧
        n * (atData (List.replicate n stretchPair ++ [pullPair])).cfg.dtMax <
          (atData (List.replicate n stretchPair ++ [pullPair])).stretch ∧
        (n + 1) * (atData (List.replicate n stretchPair ++ [pullPair])).cfg.dtMax <
          (atData (List.replicate n stretchPair ++ [pullPair])).bitWindow ∧
        (∀ k, k < n →
          ((atData (List.replicate n stretchPair ++ [pullPair])).line.peers.nth freePeer k).scl = false) ∧
        (atData (List.replicate n stretchPair ++ [pullPair])).line.peers.nth freePeer n =
          { scl := true, sda := false } := by
  intro n hn
  refine ⟨ready_atData _, rfl, ?_⟩
  revert n
  decide +kernel

theorem witness_BeginOpensATransaction : Ready (atIdle []) ∧ (atIdle []).bbm.phase = .idle := ⟨ready_atIdle _, rfl⟩

/-- BEGIN and WRBYTE, each before an acknowledging, an idle and a stretching peer. -/
theorem witness_AcknowledgmentDecidesTheAnswer :
    (∀ peers, Ready (atIdle peers) ∧ (atIdle peers).bbm.phase = .idle ∧ Ready (atData peers) ∧
      (atData peers).bbm.phase = .data) ∧
    PeerPullsData (atIdle (List.replicate 16 pullPair)).bitWindow (atIdle (List.replicate 16 pullPair)) ∧
    PeerPullsData (atData (List.replicate 16 pullPair)).bitWindow (atData (List.replicate 16 pullPair)) ∧
    (atIdle []).cfg.dtMax < (atIdle []).bitWindow ∧
    PeerIdle (atIdle (List.replicate 16 idlePair)).bitWindow (atIdle (List.replicate 16 idlePair)) ∧
    PeerStretches (atData (List.replicate 16 stretchPair)).bitWindow (atData (List.replicate 16 stretchPair)) := by
  refine ⟨fun _ => ⟨ready_atIdle _, rfl, ready_atData _, rfl⟩, ?_, ?_, by decide +kernel, ?_, ?_⟩
  · unfold PeerPullsData; decide +kernel
  · unfold PeerPullsData; decide +kernel
  · unfold PeerIdle; decide +kernel
  · unfold PeerStretches; decide +kernel

/-- A BEGIN that answers NO_ACK. -/
theorem witness_StatusesNeverGiven :
    exec (.begin 0x50 .write) (atIdle (List.replicate 16 idlePair)) =
        .next (after (exec (.begin 0x50 .write) (atIdle (List.replicate 16 idlePair)))) ∧
      Emits (atIdle (List.replicate 16 idlePair)) (after (exec (.begin 0x50 .write) (atIdle (List.replicate 16 idlePair))))
        (events (after (exec (.begin 0x50 .write) (atIdle (List.replicate 16 idlePair))))) ∧
      (Status.noAck, 0) ∈
        responsesOf (events (after (exec (.begin 0x50 .write) (atIdle (List.replicate 16 idlePair))))) := by
  refine ⟨eq_next_after _ (by decide +kernel), ?_, by decide +kernel⟩
  show _ = (List.reverse (List.reverse _)) ++ []
  rw [List.reverse_reverse, List.append_nil]

theorem witness_RdbyteOfAConstantPeer :
    PeerIdle (8 * (atData (List.replicate 128 idlePair)).bitWindow) (atData (List.replicate 128 idlePair)) ∧
      PeerPullsData (8 * (atData (List.replicate 128 pullPair)).bitWindow) (atData (List.replicate 128 pullPair)) ∧
      (atData (List.replicate 128 pullPair)).cfg.dtMax < (atData (List.replicate 128 pullPair)).bitWindow ∧
      ∀ peers, Ready (atData peers) ∧ (atData peers).bbm.phase = .data := by
  refine ⟨?_, ?_, by decide +kernel, fun _ => ⟨ready_atData _, rfl⟩⟩
  · unfold PeerIdle; decide +kernel
  · unfold PeerPullsData; decide +kernel

theorem witness_EndClosesTheTransaction :
    (Ready (atData []) ∧ ((atData []).bbm.phase = .data ∨ (atData []).bbm.phase = .idle)) ∧
      Ready (atIdle []) ∧ ((atIdle []).bbm.phase = .data ∨ (atIdle []).bbm.phase = .idle) :=
  ⟨⟨ready_atData _, .inl rfl⟩, ready_atIdle _, .inr rfl⟩

/-- A command that runs: the premise of PhaseFollowsTheTable, UnitsLeaveEachOtherAlone, OneResponsePerCommand,
StartTimeHasNoEffect, StaleWorkingRegistersHaveNoEffect and DirectionIsNotChecked. -/
theorem witness_a_command_runs :
    exec (.wrbit true) (atData []) = .next (after (exec (.wrbit true) (atData []))) ∧
      exec .loginit (atLog [] [.ok] Als.reset) = .next (after (exec .loginit (atLog [] [.ok] Als.reset))) :=
  ⟨eq_next_after _ (by decide +kernel), eq_next_after _ (by decide +kernel)⟩

theorem witness_DataLineLowInDataPhase :
    exec .rdbit (atData (List.replicate 16 idlePair)) =
        .next (after (exec .rdbit (atData (List.replicate 16 idlePair)))) ∧
      (after (exec .rdbit (atData (List.replicate 16 idlePair)))).bbm.phase = .data :=
  ⟨eq_next_after _ (by decide +kernel), by decide +kernel⟩

/-- BEGIN and WRBYTE, acknowledged and not, and RDBYTE. -/
theorem witness_BeginWrbyteAndRdbyteDurations :
    ∀ peer ∈ [idlePair, pullPair],
      (Ready (atIdle (List.replicate 16 peer)) ∧ (atIdle (List.replicate 16 peer)).bbm.phase = .idle ∧
        exec (.begin 0x50 .write) (atIdle (List.replicate 16 peer)) =
          .next (after (exec (.begin 0x50 .write) (atIdle (List.replicate 16 peer))))) ∧
      Ready (atData (List.replicate 16 peer)) ∧ (atData (List.replicate 16 peer)).bbm.phase = .data ∧
        exec (.wrbyte 0xA5) (atData (List.replicate 16 peer)) =
          .next (after (exec (.wrbyte 0xA5) (atData (List.replicate 16 peer)))) ∧
        exec (.rdbyte true) (atData (List.replicate 128 peer)) =
          .next (after (exec (.rdbyte true) (atData (List.replicate 128 peer)))) := by
  intro peer h
  refine ⟨⟨ready_atIdle _, rfl, eq_next_after _ ?_⟩, ready_atData _, rfl, eq_next_after _ ?_, eq_next_after _ ?_⟩ <;>
    revert peer <;> decide +kernel

theorem witness_OutOfRangeExactlyPastCapacity :
    storeDraw (atLog [] [.ok] Als.reset) ≠ .outOfRange ∧
      (atLog [] [.ok] Als.reset).cfg.ok (atLog [] [.ok] Als.reset).bbm.speed = true ∧
      (atLog [] [.ok] Als.reset).cfg.sizesFit = true := by
  decide +kernel

/-- A read and a write answered Ok, a write past the capacity, one never answered, and two that fail in range. -/
theorem witness_StoreRequestsTouchTheirRangeOnly :
    Memory.wf (atLog [(0, 1)] [.ok] Als.reset).store.nv = true ∧
      (memRead 0 8 (atLog [(0, 1)] [.ok] Als.reset)).1 = .ok [0, 0, 0, 0, 1, 0, 0, 0] ∧
      (memWrite 8 [1, 2] (atLog [(0, 1)] [.ok] Als.reset)).1 = .ok [] ∧
      (Config.reference.capacity < 31 + 2 ∧ (memWrite 31 [1, 2] (atLog [(0, 1)] [.ok] Als.reset)).1 = .outOfRange) ∧
      (memWrite 8 [1, 2] (atLog [(0, 1)] [.silent] Als.reset)).1 = .silent ∧
      (memWrite 8 [1, 2] (atLog [(0, 1)] [.busError] Als.reset)).1 = .busError ∧
      (memWrite 8 [1, 2] (atLog [(0, 1)] [.outOfRange] Als.reset)).1 = .outOfRange := by
  decide +kernel

theorem witness_RecordsAreLittleEndian : 0xDEADBEEF < 2 ^ Config.reference.payloadWidth := by decide +kernel

theorem witness_LoginitOfAVirginDevice :
    Ready (atLog [] [.ok] Als.reset) ∧ (atLog [] [.ok] Als.reset).cfg.sizesFit = true ∧
      slotSeq (atLog [] [.ok] Als.reset).cfg (atLog [] [.ok] Als.reset).store.nv 0 = sentinel ∧
      storeDraw (atLog [] [.ok] Als.reset) = .ok :=
  ⟨ready_atLog _ _ _, by decide +kernel⟩

/-- The break at slot 1 (V44), at slot 3 (V41) and at the end of the device (V42). -/
theorem witness_LoginitFindsTheFirstBreak :
    ∀ p ∈ [([(7, 0x70), (9, 0x90)], 1), ([(0, 0x11), (1, 0x22), (2, 0x33)], 3),
        ([(0, 0x11), (1, 0x22), (2, 0x33), ((3 : SeqWord), 0x44)], 4)],
      Ready (atLog p.1 (List.replicate 5 .ok) Als.reset) ∧
      (atLog p.1 (List.replicate 5 .ok) Als.reset).cfg.sizesFit = true ∧ 1 ≤ p.2 ∧
      p.2 ≤ (atLog p.1 (List.replicate 5 .ok) Als.reset).cfg.nSlots ∧
      slotSeq Config.reference (image p.1) 0 ≠ sentinel ∧
      (∀ j, j + 1 < p.2 →
        slotSeq Config.reference (image p.1) (j + 1) = incSeq (slotSeq Config.reference (image p.1) j)) ∧
      (p.2 < (atLog p.1 (List.replicate 5 .ok) Als.reset).cfg.nSlots →
        slotSeq Config.reference (image p.1) p.2 ≠ incSeq (slotSeq Config.reference (image p.1) (p.2 - 1))) ∧
      StoreWorks (p.2 + 1) (atLog p.1 (List.replicate 5 .ok) Als.reset) := by
  intro p hp
  refine ⟨ready_atLog _ _ _, sizes_fit, ?_⟩
  have hj : ∀ m : Nat, (∀ j, j < m - 1 →
        slotSeq Config.reference (image p.1) (j + 1) = incSeq (slotSeq Config.reference (image p.1) j)) →
      ∀ j, j + 1 < m →
        slotSeq Config.reference (image p.1) (j + 1) = incSeq (slotSeq Config.reference (image p.1) j) :=
    fun m h j hj => h j (by omega)
  refine (fun (h : 1 ≤ p.2 ∧ p.2 ≤ Config.reference.nSlots ∧ slotSeq Config.reference (image p.1) 0 ≠ sentinel ∧
      (∀ j, j < p.2 - 1 →
        slotSeq Config.reference (image p.1) (j + 1) = incSeq (slotSeq Config.reference (image p.1) j)) ∧
      (p.2 < Config.reference.nSlots →
        slotSeq Config.reference (image p.1) p.2 ≠ incSeq (slotSeq Config.reference (image p.1) (p.2 - 1))) ∧
      (∀ k, k < p.2 + 1 →
        (atLog p.1 (List.replicate 5 .ok) Als.reset).store.answers.nth freeStoreDraw k = .ok)) =>
    ⟨h.1, h.2.1, h.2.2.1, hj _ h.2.2.2.1, h.2.2.2.2.1, h.2.2.2.2.2⟩) ?_
  clear hj
  revert p
  decide +kernel

theorem witness_LoginitIsBounded :
    Ready (atLog [(0, 1)] [.ok, .silent] Als.reset) ∧
      exec .loginit (atLog [(0, 1)] [.ok, .silent] Als.reset) =
        .next (after (exec .loginit (atLog [(0, 1)] [.ok, .silent] Als.reset))) :=
  ⟨ready_atLog _ _ _, eq_next_after _ (by decide +kernel)⟩

theorem witness_LoginitChecksTheSizes :
    Ready (withConfig misfit (atIdle [])) ∧
      (withConfig misfit (atIdle [])).cfg.pageSize % (withConfig misfit (atIdle [])).cfg.recordSize ≠ 0 :=
  ⟨⟨by decide +kernel, rfl⟩, by decide +kernel⟩

/-- WRITE_OFFSET at 0, in the middle, and at N_SLOTS. -/
theorem witness_LoglastReturnsTheNewest :
    ∀ offset ∈ [0, 2, (4 : IndexWord)],
      Ready (atLog [(0, 1), (1, 2), (2, 3), (3, 4)] [.ok] (logRegs offset 4)) ∧
        (atLog [(0, 1), (1, 2), (2, 3), (3, 4)] [.ok] (logRegs offset 4)).als.logValid = true ∧
        offset.toNat ≤ (atLog [(0, 1), (1, 2), (2, 3), (3, 4)] [.ok] (logRegs offset 4)).cfg.nSlots ∧
        storeDraw (atLog [(0, 1), (1, 2), (2, 3), (3, 4)] [.ok] (logRegs offset 4)) = .ok := by
  intro offset h
  refine ⟨ready_atLog _ _ _, rfl, ?_, rfl⟩
  simp only [List.mem_cons, List.not_mem_nil, or_false] at h
  rcases h with rfl | rfl | rfl <;> decide +kernel

/-- A slot in the middle, the last slot, and the wrap. -/
theorem witness_LogappendWritesOneRecord :
    ∀ offset ∈ [1, 3, (4 : IndexWord)],
      Ready (atLog [(0, 1)] [.ok] (logRegs offset 4)) ∧ (atLog [(0, 1)] [.ok] (logRegs offset 4)).als.logValid = true ∧
        (atLog [(0, 1)] [.ok] (logRegs offset 4)).cfg.sizesFit = true ∧
        Memory.wf (atLog [(0, 1)] [.ok] (logRegs offset 4)).store.nv = true ∧
        storeDraw (atLog [(0, 1)] [.ok] (logRegs offset 4)) = .ok := by
  intro offset _
  exact ⟨ready_atLog _ _ _, rfl, sizes_fit, by show Memory.wf (image [(0, 1)]) = true; decide +kernel, rfl⟩

/-- A store that answers the first write AddressOutOfRange in range, and then works, or fails, or does it again. -/
theorem witness_LogappendRetriesOnABrokenContract :
    ∀ draw ∈ [StoreDraw.ok, .busError, .reserved, .outOfRange],
      Ready (atLog [(0, 1)] [.outOfRange, draw] (logRegs 1 1)) ∧
        (atLog [(0, 1)] [.outOfRange, draw] (logRegs 1 1)).als.logValid = true ∧
        (atLog [(0, 1)] [.outOfRange, draw] (logRegs 1 1)).cfg.sizesFit = true ∧
        Memory.wf (atLog [(0, 1)] [.outOfRange, draw] (logRegs 1 1)).store.nv = true ∧
        storeDraw (atLog [(0, 1)] [.outOfRange, draw] (logRegs 1 1)) = .outOfRange ∧
        (1 : IndexWord).toNat < (atLog [(0, 1)] [.outOfRange, draw] (logRegs 1 1)).cfg.nSlots ∧
        (atLog [(0, 1)] [.outOfRange, draw] (logRegs 1 1)).store.answers.nth freeStoreDraw 1 = draw := by
  intro draw _
  exact ⟨ready_atLog _ _ _, rfl, sizes_fit, by show Memory.wf (image [(0, 1)]) = true; decide +kernel, rfl,
    by show (1 : IndexWord).toNat < Config.reference.nSlots; decide +kernel, rfl⟩

/-- Both answers, on the first write and on the retry. -/
theorem witness_LogappendBusFaultIsFatal :
    ∀ draw ∈ [StoreDraw.busError, .reserved], ∀ offset ∈ [1, (4 : IndexWord)],
      Ready (atLog [] [draw] (logRegs offset 4)) ∧ (atLog [] [draw] (logRegs offset 4)).als.logValid = true ∧
        (storeDraw (atLog [] [draw] (logRegs offset 4)) = .busError ∨
          storeDraw (atLog [] [draw] (logRegs offset 4)) = .reserved) := by
  intro draw h offset _
  refine ⟨ready_atLog _ _ _, rfl, ?_⟩
  show draw = _ ∨ draw = _
  simpa using h

theorem witness_ReadFailureIsFatal :
    ∀ draw ∈ [StoreDraw.busError, .reserved, .outOfRange],
      Ready (atLog [] [draw] (logRegs 1 1)) ∧
        (storeDraw (atLog [] [draw] (logRegs 1 1)) = .busError ∨
          storeDraw (atLog [] [draw] (logRegs 1 1)) = .reserved ∨
          storeDraw (atLog [] [draw] (logRegs 1 1)) = .outOfRange) ∧
        (atLog [] [draw] (logRegs 1 1)).cfg.sizesFit = true ∧ (atLog [] [draw] (logRegs 1 1)).als.logValid = true ∧
        (atLog [] [draw] (logRegs 1 1)).als.writeOffset ≠ 0 := by
  intro draw h
  refine ⟨ready_atLog _ _ _, by show draw = _ ∨ draw = _ ∨ draw = _; simpa using h, sizes_fit, rfl, by show (1 : IndexWord) ≠ 0; decide⟩

/-- A bus fault on the third read of a scan (V50). -/
theorem witness_a_later_read_fails :
    Ready (atLog [(0, 0x11), (1, 0x22), (2, 0x33)] [.ok, .ok, .busError] Als.reset) ∧
      2 < (atLog [(0, 0x11), (1, 0x22), (2, 0x33)] [.ok, .ok, .busError] Als.reset).cfg.nSlots ∧
      StoreWorks 2 (atLog [(0, 0x11), (1, 0x22), (2, 0x33)] [.ok, .ok, .busError] Als.reset) ∧
      (atLog [(0, 0x11), (1, 0x22), (2, 0x33)] [.ok, .ok, .busError] Als.reset).store.answers.nth freeStoreDraw 2 =
        .busError ∧
      slotSeq Config.reference (image [(0, 0x11), (1, 0x22), (2, 0x33)]) 0 ≠ sentinel ∧
      slotSeq Config.reference (image [(0, 0x11), (1, 0x22), (2, 0x33)]) 1 =
        incSeq (slotSeq Config.reference (image [(0, 0x11), (1, 0x22), (2, 0x33)]) 0) := by
  refine ⟨ready_atLog _ _ _, by decide +kernel, ?_, rfl, by decide +kernel, by decide +kernel⟩
  unfold StoreWorks
  decide +kernel

theorem witness_SilentStoreLeavesTheBlockStuck :
    ∀ i ∈ [Instr.loginit, .loglast, .logappend 5],
      Ready (atLog [] [.silent] (logRegs 4 4)) ∧ storeDraw (atLog [] [.silent] (logRegs 4 4)) = .silent ∧
        isBbm i = false ∧ allowedNow (atLog [] [.silent] (logRegs 4 4)) i ∧
        (atLog [] [.silent] (logRegs 4 4)).cfg.sizesFit = true ∧
        (i = .loglast →
          (atLog [] [.silent] (logRegs 4 4)).als.writeOffset ≠ 0 ∧
            (atLog [] [.silent] (logRegs 4 4)).als.writeOffset.toNat ≤
              (atLog [] [.silent] (logRegs 4 4)).cfg.nSlots) := by
  intro i h
  refine ⟨ready_atLog _ _ _, rfl, ?_, ?_, sizes_fit, fun _ => by decide +kernel⟩
  all_goals
    simp only [List.mem_cons, List.not_mem_nil, or_false] at h
    rcases h with rfl | rfl | rfl <;> first | rfl | exact trivial

theorem witness_LoglastReturnsTheAppended :
    Ready (atLog [] [.ok, .ok] (logRegs 4 4)) ∧ (atLog [] [.ok, .ok] (logRegs 4 4)).als.logValid = true ∧
      (atLog [] [.ok, .ok] (logRegs 4 4)).cfg.sizesFit = true ∧
      Memory.wf (atLog [] [.ok, .ok] (logRegs 4 4)).store.nv = true ∧ StoreWorks 2 (atLog [] [.ok, .ok] (logRegs 4 4)) ∧
      0x55 < 2 ^ (atLog [] [.ok, .ok] (logRegs 4 4)).cfg.payloadWidth ∧
      (atLog [] [.ok, .ok] (logRegs 4 4)).als.writeSequence ≠ sentinel := by
  refine ⟨ready_atLog _ _ _, rfl, sizes_fit, by decide +kernel, ?_, by decide +kernel, by decide +kernel⟩
  unfold StoreWorks
  decide +kernel

/-- Five appends on four slots: the store of V52. -/
theorem history_after_the_wrap :
    HoldsHistory Config.reference (image [(4, 0x55), (1, 0x22), (2, 0x33), (3, 0x44)]) [0x11, 0x22, 0x33, 0x44, 0x55] := by
  unfold HoldsHistory
  decide +kernel

theorem witness_LogappendExtendsTheHistory :
    Ready (atLog [(4, 0x55), (1, 0x22), (2, 0x33), (3, 0x44)] [.ok] (logRegs 1 5)) ∧
      (atLog [(4, 0x55), (1, 0x22), (2, 0x33), (3, 0x44)] [.ok] (logRegs 1 5)).cfg.sizesFit = true ∧
      Memory.wf (atLog [(4, 0x55), (1, 0x22), (2, 0x33), (3, 0x44)] [.ok] (logRegs 1 5)).store.nv = true ∧
      LogAt (atLog [(4, 0x55), (1, 0x22), (2, 0x33), (3, 0x44)] [.ok] (logRegs 1 5)) [0x11, 0x22, 0x33, 0x44, 0x55] ∧
      storeDraw (atLog [(4, 0x55), (1, 0x22), (2, 0x33), (3, 0x44)] [.ok] (logRegs 1 5)) = .ok :=
  ⟨ready_atLog _ _ _, sizes_fit, by decide +kernel, ⟨rfl, by decide +kernel, by decide +kernel, by decide +kernel,
    history_after_the_wrap⟩, rfl⟩

theorem witness_LoginitRecoversTheHistory :
    Ready (atLog [(4, 0x55), (1, 0x22), (2, 0x33), (3, 0x44)] (List.replicate 5 .ok) Als.reset) ∧
      (atLog [(4, 0x55), (1, 0x22), (2, 0x33), (3, 0x44)] (List.replicate 5 .ok) Als.reset).cfg.sizesFit = true ∧
      HoldsHistory Config.reference (image [(4, 0x55), (1, 0x22), (2, 0x33), (3, 0x44)])
        [0x11, 0x22, 0x33, 0x44, 0x55] ∧
      [0x11, 0x22, 0x33, 0x44, 0x55].length < 2 ^ 32 - 1 ∧
      StoreWorks ((atLog [(4, 0x55), (1, 0x22), (2, 0x33), (3, 0x44)] (List.replicate 5 .ok) Als.reset).cfg.nSlots + 1)
        (atLog [(4, 0x55), (1, 0x22), (2, 0x33), (3, 0x44)] (List.replicate 5 .ok) Als.reset) := by
  refine ⟨ready_atLog _ _ _, sizes_fit, history_after_the_wrap, by decide +kernel, ?_⟩
  unfold StoreWorks
  decide +kernel

/-- The invariant holds of a state inside a transaction, with a valid log and a record in the store. -/
theorem witness_EveryStepKeepsTheInvariant :
    Inv { atData [] with als := logRegs 1 1, store := { Store.atReset with nv := image [(0, 1)] }, host := [.command 0x2001 0] } ∧
      step { atData [] with als := logRegs 1 1, store := { Store.atReset with nv := image [(0, 1)] },
                            host := [.command 0x2001 0] } =
        .next (after (step { atData [] with als := logRegs 1 1, store := { Store.atReset with nv := image [(0, 1)] },
                                            host := [.command 0x2001 0] })) := by
  refine ⟨?_, eq_next_after _ (by decide +kernel)⟩
  constructor <;> decide +kernel

theorem witness_XwriteEndsIdle :
    Ready (atIdle []) ∧ (atIdle []).ctl.cmdReady = true ∧ (atIdle []).bbm.phase = .idle := ⟨ready_atIdle _, rfl, rfl⟩

theorem witness_XwrrdFillsItsBuffer :
    Ready (atIdle []) ∧ (atIdle []).ctl.cmdReady = true ∧ (atIdle []).bbm.phase = .idle := ⟨ready_atIdle _, rfl, rfl⟩

end Sys2Proof.Tests
end

section
/-! SUPPORT. When the store answers AddressOutOfRange (R62): a request and a slot, and what R8 and R205 say of the end of the
store. -/

namespace Sys2Proof.Machine

/-- A store that keeps its contract gives no AddressOutOfRange to a request in range (R62, D24). -/
theorem storeAnswer_ne_outOfRange (s : State) (h : storeDraw s ≠ .outOfRange) : storeAnswer s ≠ some .outOfRange := by
  intro ha
  cases hd : storeDraw s <;> rw [storeAnswer_eq hd] at ha
  case outOfRange => exact h hd
  all_goals cases ha

theorem memRead_outOfRange_iff (off n : Nat) (s : State) (h : storeDraw s ≠ .outOfRange) :
    (memRead off n s).1 = .outOfRange ↔ s.cfg.capacity < off + n := by
  refine ⟨fun ho => ?_, fun hr => by rw [memRead_outOfRange off n s hr]⟩
  unfold memRead at ho
  split at ho
  · assumption
  · split at ho
    case h_3 ha => exact absurd ha (storeAnswer_ne_outOfRange s h)
    all_goals cases ho

/-- A write across a page is answered BusError (U6), so it is no exception to R62. -/
theorem memWrite_outOfRange_iff (off : Nat) (bytes : List Byte) (s : State) (h : storeDraw s ≠ .outOfRange) :
    (memWrite off bytes s).1 = .outOfRange ↔ s.cfg.capacity < off + bytes.length := by
  refine ⟨fun ho => ?_, fun hr => by rw [memWrite_outOfRange off bytes s hr]⟩
  unfold memWrite at ho
  simp only at ho
  split at ho
  · assumption
  · split at ho
    · cases ho
    · split at ho
      case h_3 ha => exact absurd ha (storeAnswer_ne_outOfRange s h)
      all_goals cases ho

theorem readSlot_outOfRange_iff (i : Nat) (s : State) (h : storeDraw s ≠ .outOfRange) :
    (readSlot i s).1 = .outOfRange ↔ s.cfg.nSlots ≤ i := by
  rw [readSlot, memRead_outOfRange_iff _ _ s h, ← Nat.not_le, slot_in_range, Nat.not_lt]

/-- R8 and R205: RECORD_SIZE divides PAGE_SIZE, which divides CAPACITY, so the slots fill the store. -/
theorem recordSize_dvd_capacity (c : Config) (sp : Speed) (hok : c.ok sp = true) (hfit : c.sizesFit = true) :
    c.recordSize ∣ c.capacity := by
  obtain ⟨-, -, -, hpages, -⟩ := configOk_store c sp hok
  have hrecords : c.recordSize ∣ c.pageSize := Nat.dvd_of_mod_eq_zero (by simpa [Config.sizesFit] using hfit)
  exact hrecords.trans (Nat.dvd_of_mod_eq_zero hpages)

/-- With the sizes fitting, the first slot past the last one starts at CAPACITY (R62, R203). -/
theorem nSlots_le_iff_capacity_le_slotOffset (c : Config) (i : Nat) (h : c.recordSize ∣ c.capacity) :
    c.nSlots ≤ i ↔ c.capacity ≤ c.slotOffset i := by
  rw [Config.nSlots, Config.slotOffset, Nat.div_le_iff_le_mul_of_dvd (recordSize_pos c).ne' h]

theorem nSlots_pos (c : Config) (sp : Speed) (hok : c.ok sp = true) : 0 < c.nSlots := by
  obtain ⟨-, -, hone, -, -⟩ := configOk_store c sp hok
  exact Nat.div_pos hone (recordSize_pos c)

/-- Settles O38: the two iffs of a request, a slot's from them, and the arithmetic of R8 and R205 for where slots end. -/
theorem outOfRangeExactlyPastCapacity : Obligations.OutOfRangeExactlyPastCapacity := by
  intro s off n bytes hdraw
  refine ⟨memRead_outOfRange_iff off n s hdraw, memWrite_outOfRange_iff off bytes s hdraw,
    fun i => readSlot_outOfRange_iff i s hdraw, fun hok hfit i => ?_, fun hok h0 => ?_⟩
  · exact nSlots_le_iff_capacity_le_slotOffset s.cfg i (recordSize_dvd_capacity s.cfg _ hok hfit)
  · have hpos := nSlots_pos s.cfg _ hok
    have hpast := (readSlot_outOfRange_iff 0 s hdraw).1 h0
    omega

end Sys2Proof.Machine
end

section
/-! SUPPORT. Which words no row of R103 matches: those with a reserved opcode (R114) and those with a 1 in a bit that their
format holds at zero (R115). -/

namespace Sys2Proof

/-- In a field that a row's mask covers, a word of that row has the row's own bits. -/
theorem OpcodeRow.hits_field {r : OpcodeRow} {cw : CommandWord} (h : r.hits cw = true) {start len : Nat}
    (hm : r.mask.extractLsb' start len = BitVec.allOnes len) :
    cw.extractLsb' start len = r.pattern.extractLsb' start len := by
  have hw : cw &&& r.mask = r.pattern := by simpa [OpcodeRow.hits] using h
  rw [← hw, BitVec.extractLsb'_and, hm, BitVec.and_allOnes]

theorem OpcodeRow.hits_op {r : OpcodeRow} (hr : r ∈ opcodeRows) {cw : CommandWord} (h : r.hits cw = true) :
    cw.extractLsb' 12 4 = r.pattern.extractLsb' 12 4 :=
  have covers : ∀ r ∈ opcodeRows, r.mask.extractLsb' 12 4 = BitVec.allOnes 4 := by decide
  OpcodeRow.hits_field h (covers r hr)

theorem decode_eq_none {cw : CommandWord} (h : ∀ r ∈ opcodeRows, r.hits cw ≠ true) (din : Nat) : decode cw din = none := by
  rcases decode_cases cw din with ⟨r, hr, hit, -⟩ | ⟨-, hn⟩
  · exact absurd hit (h r hr)
  · exact hn

/-- The opcodes that no row of R103 has. -/
def reservedOps : List (BitVec 4) := [0x0, 0x7, 0xB, 0xC, 0xD, 0xE, 0xF]

theorem decode_reserved {cw : CommandWord} (h : cw.extractLsb' 12 4 ∈ reservedOps) (din : Nat) : decode cw din = none := by
  have unused : ∀ r ∈ opcodeRows, r.pattern.extractLsb' 12 4 ∉ reservedOps := by decide
  refine decode_eq_none (fun r hr hit => unused r hr ?_) din
  rwa [← OpcodeRow.hits_op hr hit]

/-- The rows with an opcode in `ops` demand zeros in the `len` bits from `start` up. -/
def DemandsZero (ops : List (BitVec 4)) (start len : Nat) : Prop :=
  ∀ r ∈ opcodeRows, r.pattern.extractLsb' 12 4 ∈ ops →
    r.mask.extractLsb' start len = BitVec.allOnes len ∧ r.pattern.extractLsb' start len = 0

/-- The formats B, F, and N with P (R101). -/
theorem formatB_demandsZero : DemandsZero [0x1, 0x4] 8 4 := by unfold DemandsZero; decide

theorem formatF_demandsZero : DemandsZero [0x2, 0x5] 1 11 := by unfold DemandsZero; decide

theorem formatNP_demandsZero : DemandsZero [0x3, 0x6, 0x8, 0x9, 0xA] 0 12 := by unfold DemandsZero; decide

theorem DemandsZero.decode_eq_none {ops : List (BitVec 4)} {start len : Nat} (hz : DemandsZero ops start len)
    {cw : CommandWord} (hop : cw.extractLsb' 12 4 ∈ ops) (hne : cw.extractLsb' start len ≠ 0) (din : Nat) :
    decode cw din = none := by
  refine Sys2Proof.decode_eq_none (fun r hr hit => hne ?_) din
  obtain ⟨covered, zero⟩ := hz r hr (OpcodeRow.hits_op hr hit ▸ hop)
  rw [OpcodeRow.hits_field hit covered, zero]

end Sys2Proof
end

section
/-! SUPPORT. How the command port answers (R112): a word that decodes is its command's, any other word is rejected, and a
halted block refuses both. -/

namespace Sys2Proof.Machine

@[simp] theorem openPort_cfg (rest : List HostEvent) (s : State) : (openPort rest s).cfg = s.cfg := rfl
@[simp] theorem openPort_bbm (rest : List HostEvent) (s : State) : (openPort rest s).bbm = s.bbm := rfl
@[simp] theorem openPort_ctl (rest : List HostEvent) (s : State) : (openPort rest s).ctl = s.ctl := rfl

theorem Ready.openPort {s : State} (h : Ready s) (rest : List HostEvent) : Ready (openPort rest s) :=
  ⟨by simpa using h.config_ok, by simpa using h.not_halted⟩

theorem step_command {s : State} {cw : CommandWord} {din : Nat} {rest : List HostEvent}
    (h : s.host = .command cw din :: rest) : step s = (openPort rest s).atCommandPort cw din := by
  simp only [step, h]

theorem atCommandPort_of_decode {s : State} {cw : CommandWord} {din : Nat} {i : Instr} (hr : s.ctl.cmdReady = true)
    (hd : decode cw (din % 2 ^ s.cfg.payloadWidth) = some i) : s.atCommandPort cw din = exec i s := by
  simp only [State.atCommandPort, hr, hd, if_true]

theorem atCommandPort_of_decode_none {s : State} {cw : CommandWord} {din : Nat} (hr : s.ctl.cmdReady = true)
    (hd : decode cw (din % 2 ^ s.cfg.payloadWidth) = none) : s.atCommandPort cw din = rejectWord s := by
  simp only [State.atCommandPort, hr, hd, if_true]

/-- In a ready state a word that no row matches is ILLEGAL (R112 check 2). -/
theorem rejectWord_ready {s : State} (h : Ready s) : rejectWord s = .next (refuse .illegal s) := by
  simp [rejectWord, accept, h.config_ok, h.not_halted]

/-- HALTED is the first check (R112). -/
theorem accept_halted (allowed : Bool) (body : State → State) {s : State} (hok : s.cfg.ok s.bbm.speed = true)
    (hh : s.ctl.halt = true) : accept allowed body s = .next (refuse .halted s) := by
  simp [accept, hok, hh]

theorem exec_halted (i : Instr) {s : State} (hok : s.cfg.ok s.bbm.speed = true) (hh : s.ctl.halt = true) :
    exec i s = .next (refuse .halted s) := by
  cases i <;> exact accept_halted _ _ hok hh

theorem atCommandPort_halted (cw : CommandWord) (din : Nat) {s : State} (hok : s.cfg.ok s.bbm.speed = true)
    (hr : s.ctl.cmdReady = true) (hh : s.ctl.halt = true) : s.atCommandPort cw din = .next (refuse .halted s) := by
  cases hd : decode cw (din % 2 ^ s.cfg.payloadWidth) with
  | none => rw [atCommandPort_of_decode_none hr hd]; exact accept_halted _ _ hok hh
  | some i => rw [atCommandPort_of_decode hr hd, exec_halted i hok hh]

/-- A ready block refuses a word that no payload makes a command with ILLEGAL. -/
theorem step_undecodable {s : State} {cw : CommandWord} {din : Nat} {rest : List HostEvent}
    (h : s.host = .command cw din :: rest) (hs : Ready s) (hr : s.ctl.cmdReady = true) (hd : ∀ d, decode cw d = none) :
    step s = .next (refuse .illegal (openPort rest s)) := by
  rw [step_command h, atCommandPort_of_decode_none (s := openPort rest s) hr (hd _), rejectWord_ready (hs.openPort rest)]

/-- Settles O5: no row of R103 has a reserved opcode, so the word decodes to nothing. -/
theorem reservedOpcodesAreIllegal : Obligations.ReservedOpcodesAreIllegal :=
  fun _ _ _ _ h hs hr hop => step_undecodable h hs hr (decode_reserved hop)

/-- Settles O6, format by format: the rows of the opcode demand the zeros that the word breaks. -/
theorem mustBeZeroBitsAreIllegal : Obligations.MustBeZeroBitsAreIllegal := by
  intro s cw din rest h hs hr hbits
  refine step_undecodable h hs hr ?_
  rcases hbits with ⟨hop, hne⟩ | ⟨hop, hne⟩ | ⟨hop, hne⟩
  · exact formatB_demandsZero.decode_eq_none hop hne
  · exact formatF_demandsZero.decode_eq_none hop hne
  · exact formatNP_demandsZero.decode_eq_none hop hne

/-- Settles O11: HALTED is the first check, for a word that decodes and for one that does not. -/
theorem haltedRefusesEveryWord : Obligations.HaltedRefusesEveryWord := by
  intro s cw din rest h hok hr hh
  rw [step_command h]
  exact atCommandPort_halted cw din (by simpa using hok) (by simpa using hr) (by simpa using hh)

end Sys2Proof.Machine
end

section
/-! SUPPORT. The samples of the active window (R141): those that give the bit, and where they stand in the trace of RDBIT. -/

namespace Sys2Proof.Machine

/-- Poll and active window share the bound T_BIT (R140, R141), so a sample that ends the poll is no active one. -/
theorem Sample.goesOn_of_active {c : Config} {sp : Speed} {t0 : Nat} {x : Sample} (h : x.active c sp t0 = true) :
    x.goesOn c sp t0 = true := by
  obtain ⟨hsince, hscl⟩ : x.since c t0 < c.bitWindow sp ∧ x.scl = true := by simpa [Sample.active] using h
  simp [Sample.goesOn, hsince, hscl]

theorem bitOf_eq_false_iff (c : Config) (sp : Speed) (t0 : Nat) (xs : List Sample) :
    bitOf c sp t0 xs = false ↔ ∃ x ∈ xs, x.active c sp t0 = true ∧ x.sda = false := by
  simp [bitOf]

theorem Sample.event_injective : Function.Injective Sample.event := by
  rintro ⟨k, c, d⟩ ⟨k', c', d'⟩ h
  simpa [Sample.event] using h

/-- The events of one `ReadBit`, the oldest first (R140, R144). -/
def readBitEvents (start clk : Nat) (polls : List Sample) (last : Sample) : List TraceEvent :=
  [.line .scl false start, .line .sda true start, .line .scl true clk] ++ (polls ++ [last]).map Sample.event ++
    [.line .scl false last.ticks, .line .sda false last.ticks]

theorem event_mem_readBitEvents (start clk : Nat) (polls : List Sample) (last x : Sample) :
    x.event ∈ readBitEvents start clk polls last ↔ x ∈ polls ++ [last] := by
  have notLine (l : Line) (v : Bool) (k : Nat) : x.event ≠ .line l v k := nofun
  rw [← List.mem_map_of_injective Sample.event_injective]
  simp [readBitEvents, notLine]

section
variable {s : State} {clk : Nat} {polls : List Sample} {last : Sample}

theorem ReadsBit.emits (h : ReadsBit s clk polls last) :
    Emits s (readBit s) (readBitEvents s.line.ticks clk polls last) := by
  simp [Emits, readBitEvents, h.trace]

/-- R141 for `ReadBit`: `polls` alone give the bit, and the sample that ends them adds nothing. -/
theorem ReadsBit.bit_eq_false_iff (h : ReadsBit s clk polls last) :
    (readBit s).bbm.bitacc = false ↔
      ∃ x ∈ polls ++ [last], x.active s.cfg s.bbm.speed (readBit s).bbm.t0 = true ∧ x.sda = false := by
  have last_inactive : ¬ last.active s.cfg s.bbm.speed (readBit s).bbm.t0 = true := fun hact =>
    absurd (Sample.goesOn_of_active hact) (by simp [h.last_ends])
  rw [h.bit, bitOf_eq_false_iff]
  constructor
  · rintro ⟨x, hx, hlow⟩
    exact ⟨x, List.mem_append_left _ hx, hlow⟩
  · rintro ⟨x, hx, hact, hsda⟩
    rcases List.mem_append.1 hx with hpoll | hlast
    · exact ⟨x, hpoll, hact, hsda⟩
    · rw [List.mem_singleton.1 hlast] at hact
      exact absurd hact last_inactive

theorem rdbitBody_emits (h : ReadsBit s clk polls last) :
    Emits s (rdbitBody s)
      (readBitEvents s.line.ticks clk polls last ++ [.response .ok (readBit s).bbm.bitacc.toNat]) := by
  have hread := h.emits
  unfold Emits at hread
  simp [Emits, rdbitBody, hread]

end

/-- Settles O23: the samples among the events of RDBIT are those of its `ReadBit`. -/
theorem rdbitBitIsTheActiveWindow : Obligations.RdbitBitIsTheActiveWindow := by
  intro s hready hphase
  obtain ⟨clk, polls, last, hR⟩ := readBit_spec (busy s) hready.config_ok
  have hexec : exec .rdbit s = .next (rdbitBody (busy s)) := exec_ready .rdbit s hready hphase
  have hdata : (rdbitBody (busy s)).ctl.rspData = (readBit (busy s)).bbm.bitacc.toNat := rfl
  have notResponse (x : Sample) (st : Status) (d : Nat) : x.event ≠ .response st d := nofun
  refine ⟨_, _, hexec, rdbitBody_emits hR, ?_, ?_⟩
  · rw [hdata]
    cases (readBit (busy s)).bbm.bitacc <;> decide
  · simp only [hdata, Bool.toNat_eq_zero, List.mem_append (s := readBitEvents _ _ _ _), List.mem_singleton, notResponse,
      or_false, event_mem_readBitEvents]
    exact hR.bit_eq_false_iff

end Sys2Proof.Machine
end

section
/-! SUPPORT. Trap entry as a whole (R236): the shared registers it leaves, and its frame. -/

namespace Sys2Proof.Machine

/-- Every shared register is written, so nothing of the old ones is saved (R236). -/
theorem raise_ctl (e : FatalError) (s : State) :
    (raise e s).ctl =
      { halt := true, faultCode := e.status.code, rspStatus := e.status, rspData := 0, lastStatus := e.status,
        cmdReady := true } := rfl

/-- The frame of trap entry: beside the shared registers, only the response appears in the trace. -/
theorem raise_frame (e : FatalError) (s : State) :
    raise e s = { s with ctl := (raise e s).ctl, trace := .response e.status 0 :: s.trace } := rfl

@[simp] theorem FatalError.busError_code : FatalError.busError.status.code = 3 := rfl

@[simp] theorem FatalError.invariantViolation_code : FatalError.invariantViolation.status.code = 4 := rfl

/-- Settles O13: the frame of trap entry, with the shared registers it leaves put in. -/
theorem trapEntryWritesOnlyItsRegisters : Obligations.TrapEntryWritesOnlyItsRegisters := by
  intro e s
  refine ⟨?_, FatalError.busError_code, FatalError.invariantViolation_code⟩
  rw [raise_frame, raise_ctl]

end Sys2Proof.Machine
end

section
/-! SUPPORT. Encoder and decoder agree (R103 to R106): the row that matches the word of a command reads the command back, and
a word that a row matches is the word of the command the row makes. -/

namespace Sys2Proof

/-- Every command's word is matched by one row, which reads the command back. -/
theorem singleRow (i : Instr) : Laws.SingleRow.Statement i := by
  cases i with
  | begin addr dir => exact Laws.SingleRow.begin addr dir
  | wrbit v => exact Laws.SingleRow.wrbit v
  | rdbit => exact Laws.SingleRow.rdbit
  | wrbyte b => exact Laws.SingleRow.wrbyte b
  | rdbyte wantAck => exact Laws.SingleRow.rdbyte wantAck
  | end_ => exact Laws.SingleRow.end_
  | loginit => exact Laws.SingleRow.loginit
  | loglast => exact Laws.SingleRow.loglast
  | logappend din => exact Laws.SingleRow.logappend din

theorem decode_encode (i : Instr) : decode (encode i).cw (encode i).din = some i := by
  obtain ⟨r, hr, hits, made, -⟩ := singleRow i
  rw [decode_of_hits hr hits, made]

/-- The payload port has wires enough for the payload of a well-formed command, and the others drive 0 (R40, R106). -/
theorem encode_din_mod (c : Config) (i : Instr) (h : i.wf c = true) :
    (encode i).din % 2 ^ c.payloadWidth = (encode i).din := by
  cases i with
  | logappend din => exact Nat.mod_eq_of_lt (of_decide_eq_true h)
  | _ => exact Nat.zero_mod _

/-- Settles O1: the payload passes the port whole, and the row of the word reads the command back. -/
theorem decodeOfEncodeIsIdentity : Obligations.DecodeOfEncodeIsIdentity := by
  intro c i hwf
  rw [encode_din_mod c i hwf, decode_encode]

/-! The words of the three kinds of format (R101). -/

theorem field_toNat (cw : CommandWord) (start len : Nat) :
    (cw.extractLsb' start len).toNat = cw.toNat / 2 ^ start % 2 ^ len := by
  rw [BitVec.extractLsb'_toNat, Nat.shiftRight_eq_div_pow]

theorem field_zero {cw : CommandWord} {start len : Nat} (h : cw.extractLsb' start len = 0) :
    cw.toNat / 2 ^ start % 2 ^ len = 0 := by
  rw [← field_toNat, h]
  exact BitVec.toNat_zero

/-- Format B: four zeros between the opcode and the operand byte. -/
theorem commandWord_of_byteFields (cw : CommandWord) (h : cw.extractLsb' 8 4 = 0) :
    commandWord (cw.extractLsb' 12 4) (cw.extractLsb' 0 8) = cw := by
  have hz := field_zero h
  have hlt := cw.isLt
  apply BitVec.eq_of_toNat_eq
  rw [commandWord_toNat, field_toNat, field_toNat]
  omega

theorem flagOperand_toNat (v : Bool) : (flagOperand v).toNat = v.toNat := by cases v <;> rfl

/-- Format F: eleven zeros between the opcode and the flag. -/
theorem commandWord_of_flagFields (cw : CommandWord) (h : cw.extractLsb' 1 11 = 0) :
    commandWord (cw.extractLsb' 12 4) (flagOperand (cw.getLsbD 0)) = cw := by
  have hz := field_zero h
  have hlt := cw.isLt
  have hbit : (cw.getLsbD 0).toNat = cw.toNat % 2 := by
    rw [BitVec.getLsbD, Nat.testBit_zero]
    rcases Nat.mod_two_eq_zero_or_one cw.toNat with h0 | h0 <;> simp [h0]
  apply BitVec.eq_of_toNat_eq
  rw [commandWord_toNat, flagOperand_toNat, hbit, field_toNat]
  omega

/-- Formats N and P: twelve zeros below the opcode. -/
theorem commandWord_of_bareFields (cw : CommandWord) (h : cw.extractLsb' 0 12 = 0) :
    commandWord (cw.extractLsb' 12 4) 0 = cw := by
  have hz := field_zero h
  have hlt := cw.isLt
  have hzero : (0 : Byte).toNat = 0 := rfl
  apply BitVec.eq_of_toNat_eq
  rw [commandWord_toNat, field_toNat, hzero]
  omega

/-- The frame byte holds the address above the direction bit (R104). -/
theorem frameByte_fields (a : Byte) : frameByte (a.extractLsb' 1 7) (Direction.ofBit (a.getLsbD 0)) = a := by
  revert a; decide

/-- The operand fields of a word are those of its operand byte. -/
theorem frameByte_word_fields (cw : CommandWord) :
    frameByte (cw.extractLsb' 1 7) (Direction.ofBit (cw.getLsbD 0)) = cw.extractLsb' 0 8 := by
  have haddr : cw.extractLsb' 1 7 = (cw.extractLsb' 0 8).extractLsb' 1 7 := by
    rw [BitVec.extractLsb'_extractLsb'_of_le (by omega)]
  have hbit : cw.getLsbD 0 = (cw.extractLsb' 0 8).getLsbD 0 := by simp
  rw [haddr, hbit, frameByte_fields]

/-- A row reads from a word that it matches the command that encodes to the word. -/
theorem encode_make_cw {r : OpcodeRow} (hr : r ∈ opcodeRows) {cw : CommandWord} (h : r.hits cw = true) (din : Nat) :
    (encode (r.make cw din)).cw = cw := by
  have hop := OpcodeRow.hits_op hr h
  have zeros {ops : List (BitVec 4)} {start len : Nat} (hz : DemandsZero ops start len)
      (hin : r.pattern.extractLsb' 12 4 ∈ ops) : cw.extractLsb' start len = 0 := by
    obtain ⟨covered, zero⟩ := hz r hr hin
    rw [OpcodeRow.hits_field h covered, zero]
  have bare (hin : r.pattern.extractLsb' 12 4 ∈ [0x3, 0x6, 0x8, 0x9, (0xA : BitVec 4)]) :
      commandWord (r.pattern.extractLsb' 12 4) 0 = cw := by
    rw [← hop, commandWord_of_bareFields cw (zeros formatNP_demandsZero hin)]
  have flag (hin : r.pattern.extractLsb' 12 4 ∈ [0x2, (0x5 : BitVec 4)]) :
      commandWord (r.pattern.extractLsb' 12 4) (flagOperand (cw.getLsbD 0)) = cw := by
    rw [← hop, commandWord_of_flagFields cw (zeros formatF_demandsZero hin)]
  have byte (hin : r.pattern.extractLsb' 12 4 ∈ [0x1, (0x4 : BitVec 4)]) :
      commandWord (r.pattern.extractLsb' 12 4) (cw.extractLsb' 0 8) = cw := by
    rw [← hop, commandWord_of_byteFields cw (zeros formatB_demandsZero hin)]
  simp only [opcodeRows, List.mem_cons, List.not_mem_nil, or_false] at hr
  rcases hr with rfl | rfl | rfl | rfl | rfl | rfl | rfl | rfl | rfl
  case inl =>
    show commandWord 0x1 (frameByte (cw.extractLsb' 1 7) (Direction.ofBit (cw.getLsbD 0))) = cw
    rw [frameByte_word_fields]
    exact byte (by decide)
  case inr.inr.inr.inl => exact byte (by decide)
  case inr.inl => exact flag (by decide)
  case inr.inr.inr.inr.inl => exact flag (by decide)
  all_goals exact bare (by decide)

/-- LOGAPPEND's row alone reads the payload port (R100, R106). -/
theorem encode_make_din {r : OpcodeRow} (hr : r ∈ opcodeRows) (cw : CommandWord) (din : Nat) :
    (encode (r.make cw din)).din = din ∨ (encode (r.make cw din)).din = 0 ∧ r.pattern.extractLsb' 12 4 ≠ 0xA := by
  simp only [opcodeRows, List.mem_cons, List.not_mem_nil, or_false] at hr
  rcases hr with rfl | rfl | rfl | rfl | rfl | rfl | rfl | rfl | rfl
  case inr.inr.inr.inr.inr.inr.inr.inr => exact .inl rfl
  all_goals exact .inr ⟨rfl, by decide⟩

/-- A word that decodes is matched by a row, which makes the command of it. -/
theorem decode_eq_some {cw : CommandWord} {din : Nat} {i : Instr} (h : decode cw din = some i) :
    ∃ r ∈ opcodeRows, r.hits cw = true ∧ i = r.make cw din := by
  rcases decode_cases cw din with ⟨r, hr, hits, hd⟩ | ⟨-, hn⟩
  · rw [hd] at h
    exact ⟨r, hr, hits, (Option.some.inj h).symm⟩
  · rw [hn] at h
    cases h

/-- Settles O2, for the row that matches the word. -/
theorem decodedWordIsTheEncoding : Obligations.DecodedWordIsTheEncoding := by
  intro cw din i h
  obtain ⟨r, hr, hits, rfl⟩ := decode_eq_some h
  refine ⟨encode_make_cw hr hits din, ?_⟩
  rw [OpcodeRow.hits_op hr hits]
  exact encode_make_din hr cw din

theorem encode_begin_of_byte (a : Byte) :
    (encode (.begin (a.extractLsb' 1 7) (Direction.ofBit (a.getLsbD 0)))).cw = commandWord 0x1 a := by
  rw [encode, frameByte_fields]

/-- A word decodes to the command it encodes, whatever the payload port carries, when that command has no payload. -/
theorem decode_of_encode {i : Instr} {cw : CommandWord} (h : (encode i).cw = cw) (hp : ∀ d, i ≠ .logappend d) (din : Nat) :
    decode cw din = some i := by
  obtain ⟨r, hr, hits, made, -⟩ := singleRow i
  rw [h] at hits made
  rw [decode_of_hits hr hits, ← made]
  have ignores : ∀ d d' : Nat, r.make cw d = r.make cw d' ∨ ∃ e, r.make cw d = .logappend e := by
    simp only [opcodeRows, List.mem_cons, List.not_mem_nil, or_false] at hr
    rcases hr with rfl | rfl | rfl | rfl | rfl | rfl | rfl | rfl | rfl
    case inr.inr.inr.inr.inr.inr.inr.inr => exact fun d _ => .inr ⟨d, rfl⟩
    all_goals exact fun _ _ => .inl rfl
  rcases ignores (encode i).din din with he | ⟨e, he⟩
  · rw [he]
  · exact absurd (made.symm.trans he) (hp e)

/-- Settles O3: each word is the encoding of the command it is said to decode to. -/
theorem operandsAreTheirBits : Obligations.OperandsAreTheirBits := by
  refine ⟨fun a din => ⟨?_, ?_⟩, fun v din => ⟨?_, ?_⟩⟩
  · exact decode_of_encode (encode_begin_of_byte a) (fun _ => nofun) din
  · exact decode_of_encode (i := .wrbyte a) rfl (fun _ => nofun) din
  · exact decode_of_encode (i := .wrbit v) rfl (fun _ => nofun) din
  · exact decode_of_encode (i := .rdbyte v) rfl (fun _ => nofun) din

/-- Settles O4 by evaluating the decoder on the twelve words. -/
theorem writtenWordsDecode : Obligations.WrittenWordsDecode := by
  unfold Obligations.WrittenWordsDecode
  decide

end Sys2Proof
end

section
/-! SUPPORT. What the command port does with a word, and what acceptance does with a command (R8, R40, R112, R116): the
answer to every word, for every state. -/

namespace Sys2Proof.Machine

/-! Acceptance (R8, R112). -/

/-- Every command is its body behind the acceptance checks, with the table of R116 as the second of them. -/
theorem exec_eq_accept (i : Instr) (s : State) :
    ∃ allowed, (allowed = true ↔ allowedNow s i) ∧ exec i s = accept allowed (bodyOf i) s := by
  cases i with
  | begin addr dir => exact ⟨allowedIdle s, by simp [allowedIdle, allowedNow], rfl⟩
  | wrbit v => exact ⟨allowedData s, by simp [allowedData, allowedNow], rfl⟩
  | rdbit => exact ⟨allowedData s, by simp [allowedData, allowedNow], rfl⟩
  | wrbyte b => exact ⟨allowedData s, by simp [allowedData, allowedNow], rfl⟩
  | rdbyte wantAck => exact ⟨allowedData s, by simp [allowedData, allowedNow], rfl⟩
  | end_ => exact ⟨allowedIdleOrData s, by simp [allowedIdleOrData, allowedNow], rfl⟩
  | loginit => exact ⟨true, by simp [allowedNow], rfl⟩
  | loglast => exact ⟨allowedLog s, by simp [allowedLog, allowedNow], rfl⟩
  | logappend din => exact ⟨allowedLog s, by simp [allowedLog, allowedNow], rfl⟩

theorem exec_illegal {i : Instr} {s : State} (hok : s.cfg.ok s.bbm.speed = true) (hh : s.ctl.halt = false)
    (ha : ¬ allowedNow s i) : exec i s = .next (refuse .illegal s) := by
  obtain ⟨allowed, hiff, he⟩ := exec_eq_accept i s
  have hf : allowed = false := by simpa [ha] using hiff
  rw [he, hf]
  simp [accept, hok, hh]

theorem accept_total (allowed : Bool) (body : State → State) {s : State} (hok : s.cfg.ok s.bbm.speed = true) :
    ∃ t, accept allowed body s = .next t := by
  rw [accept, if_pos hok]
  exact ⟨_, rfl⟩

theorem exec_total (i : Instr) {s : State} (hok : s.cfg.ok s.bbm.speed = true) : ∃ t, exec i s = .next t := by
  obtain ⟨allowed, -, he⟩ := exec_eq_accept i s
  rw [he]
  exact accept_total _ _ hok

theorem exec_refused (i : Instr) {s : State} (hok : s.cfg.ok s.bbm.speed = false) :
    exec i s = .refused .illegalConfiguration := by
  obtain ⟨allowed, -, he⟩ := exec_eq_accept i s
  simp [he, accept, hok]

/-- Settles O10, check by check. -/
theorem acceptanceChecksInOrder : Obligations.AcceptanceChecksInOrder := fun i _ hok =>
  ⟨fun hh => exec_halted i hok hh, fun hh ha => exec_illegal hok hh ha, fun _ => rfl⟩

/-! The constraints of R8. -/

theorem windowsOk_iff (c : Config) (sp : Speed) :
    c.windowsOk sp = true ↔
      1 ≤ c.stretch sp ∧ c.stretch sp ≤ c.bitWindow sp ∧ c.bitWindow sp + c.dtMax ≤ 2 ^ c.tw := by
  simp [Config.windowsOk, and_assoc]

theorem config_ok_iff (c : Config) (sp : Speed) : c.ok sp = true ↔ MeetsConstraints c sp := by
  have both : (∀ v, 1 ≤ c.stretch v ∧ c.stretch v ≤ c.bitWindow v ∧ c.bitWindow v + c.dtMax ≤ 2 ^ c.tw) ↔
      c.windowsOk .slow = true ∧ c.windowsOk .fast = true := by
    constructor
    · exact fun h => ⟨(windowsOk_iff c _).2 (h .slow), (windowsOk_iff c _).2 (h .fast)⟩
    · rintro ⟨hs, hf⟩ v
      cases v
      · exact (windowsOk_iff c _).1 hs
      · exact (windowsOk_iff c _).1 hf
  unfold MeetsConstraints
  rw [both]
  simp only [Config.ok, Bool.and_eq_true, decide_eq_true_eq]
  tauto

/-- Settles O12: the check of acceptance is R8's constraints. -/
theorem brokenConfigurationIsRefused : Obligations.BrokenConfigurationIsRefused := by
  intro i s
  rw [← config_ok_iff]
  exact ⟨fun hbad => exec_refused i (by simpa using hbad), fun hok => exec_total i hok⟩

/-! The command port (R40). -/

theorem atCommandPort_not_ready {s : State} (hr : s.ctl.cmdReady = false) (cw : CommandWord) (din : Nat) :
    s.atCommandPort cw din = .next s := by
  simp [State.atCommandPort, hr]

theorem atCommandPort_total (cw : CommandWord) (din : Nat) {s : State} (hok : s.cfg.ok s.bbm.speed = true) :
    ∃ t, s.atCommandPort cw din = .next t := by
  cases hr : s.ctl.cmdReady with
  | false => exact ⟨s, atCommandPort_not_ready hr cw din⟩
  | true =>
    cases hd : decode cw (din % 2 ^ s.cfg.payloadWidth) with
    | none => rw [atCommandPort_of_decode_none hr hd]; exact accept_total _ _ hok
    | some i => rw [atCommandPort_of_decode hr hd]; exact exec_total i hok

/-- Settles O8. -/
theorem stepRunsTheDecodedCommand : Obligations.StepRunsTheDecodedCommand := by
  intro s cw din rest i h hr hd
  refine ⟨?_, rfl⟩
  rw [step_command h]
  exact atCommandPort_of_decode (s := openPort rest s) hr hd

/-- Settles O9. -/
theorem nothingIsAcceptedUnlessReady : Obligations.NothingIsAcceptedUnlessReady := by
  refine ⟨fun s cw din rest h hr => ?_, fun s h => by simp only [step, h]⟩
  rw [step_command h]
  exact atCommandPort_not_ready (s := openPort rest s) hr cw din

/-- A word of another opcode than LOGAPPEND's, or with a bit set below it, decodes the same under every payload. -/
theorem decode_din {cw : CommandWord} (h : cw ≠ 0xA000) (d d' : Nat) : decode cw d = decode cw d' := by
  rcases decode_cases cw d with ⟨r, hr, hits, hd⟩ | ⟨hnone, hd⟩
  · rw [hd, decode_of_hits hr hits]
    simp only [opcodeRows, List.mem_cons, List.not_mem_nil, or_false] at hr
    rcases hr with rfl | rfl | rfl | rfl | rfl | rfl | rfl | rfl | rfl
    case inr.inr.inr.inr.inr.inr.inr.inr =>
      have hw : cw &&& 0xFFFF = 0xA000 := by simpa [OpcodeRow.hits, rowLogappend] using hits
      have hall : cw &&& 0xFFFF = cw := BitVec.and_allOnes
      exact absurd (hall.symm.trans hw) h
    all_goals rfl
  · rw [hd, decode_eq_none (by simpa using hnone)]

/-- Settles O7: the payload reaches the block through the decoder alone. -/
theorem dinIsIgnored : Obligations.DinIsIgnored := by
  intro s cw d d' rest hcw
  rw [step_command (s := { s with host := .command cw d :: rest }) rfl,
    step_command (s := { s with host := .command cw d' :: rest }) rfl]
  show (openPort rest s).atCommandPort cw d = (openPort rest s).atCommandPort cw d'
  unfold State.atCommandPort
  rw [decode_din hcw (d % _) (d' % _)]

/-- A word at the port of a halted block leaves HALT and FAULT as they are (R113). -/
theorem atCommandPort_keeps_halt {cw : CommandWord} {din : Nat} {s t : State} (h : s.atCommandPort cw din = .next t)
    (hh : s.ctl.halt = true) : t.ctl.halt = true ∧ t.ctl.faultCode = s.ctl.faultCode := by
  rcases atCommandPort_cases cw din s t h with ⟨-, rfl⟩ | ⟨hok, -⟩
  · exact ⟨hh, rfl⟩
  · cases hr : s.ctl.cmdReady with
    | false =>
      rw [atCommandPort_not_ready hr] at h
      cases h
      exact ⟨hh, rfl⟩
    | true =>
      rw [atCommandPort_halted cw din hok hr hh] at h
      cases h
      exact ⟨hh, rfl⟩

/-- Settles O14, by what the host drives. -/
theorem onlyResetLeavesHalt : Obligations.OnlyResetLeavesHalt := by
  intro s t h hh hreset hduring
  cases he : s.host with
  | nil =>
    simp only [step, he] at h
    cases h
    exact ⟨hh, rfl⟩
  | cons event rest =>
    cases event with
    | command cw din =>
      rw [step_command he] at h
      exact atCommandPort_keeps_halt (s := openPort rest s) h hh
    | reset strap => exact absurd he (hreset strap rest)
    | resetDuring cw din cut strap => exact absurd he (hduring cw din cut strap rest)

end Sys2Proof.Machine
end

section
/-! SUPPORT. The invariant of R48, unit by unit: what it says of the lines, of the log, of the shared registers and of the
store, and that every command and every reset keeps each part. -/

namespace Sys2Proof.Machine

/-! The four parts. -/

/-- R48 (a) to (c) and the width of T0. -/
structure LinesOk (c : Config) (b : Bbm) : Prop where
  phase_between : b.phase = .idle ∨ b.phase = .data
  idle_released : b.phase = .idle → b.sclDrv = true ∧ b.sdaDrv = true
  data_clock_low : b.phase = .data → b.sclDrv = false
  t0_width : b.t0 < 2 ^ c.tw

/-- R48 (d), and what a valid log says of the sizes. -/
structure LogOk (c : Config) (a : Als) : Prop where
  offset_in_range : a.logValid = true → a.writeOffset.toNat ≤ c.nSlots
  log_sizes : a.logValid = true → c.sizesFit = true

/-- R48 (e), the response registers and FAULT. -/
structure CtlOk (c : Config) (x : Ctl) : Prop where
  halt_code : x.halt = true → x.faultCode = 3 ∨ x.faultCode = 4
  run_code : x.halt = false → x.faultCode = 0
  data_width : x.rspData < 2 ^ c.dataWidth
  status_copy : x.lastStatus = x.rspStatus
  never_out_of_range : x.rspStatus ≠ .addrOutOfRange

/-- The store's form. -/
structure NvOk (c : Config) (nv : Memory) : Prop where
  wf : Memory.wf nv = true
  within : Memory.within c.capacity nv = true

theorem Inv.lines {s : State} (h : Inv s) : LinesOk s.cfg s.bbm :=
  ⟨h.phase_between, h.idle_released, h.data_clock_low, h.t0_width⟩

theorem Inv.log {s : State} (h : Inv s) : LogOk s.cfg s.als := ⟨h.offset_in_range, h.log_sizes⟩

theorem Inv.shared {s : State} (h : Inv s) : CtlOk s.cfg s.ctl :=
  ⟨h.halt_code, h.run_code, h.data_width, h.status_copy, h.never_out_of_range⟩

theorem Inv.nv {s : State} (h : Inv s) : NvOk s.cfg s.store.nv := ⟨h.store_wf, h.store_within⟩

theorem Inv.of_parts {s : State} (lines : LinesOk s.cfg s.bbm) (log : LogOk s.cfg s.als) (shared : CtlOk s.cfg s.ctl)
    (nv : NvOk s.cfg s.store.nv) (ready : s.ctl.cmdReady = true → s.store.pending = none) : Inv s :=
  ⟨ready, lines.phase_between, lines.idle_released, lines.data_clock_low, log.offset_in_range, log.log_sizes,
    shared.halt_code, shared.run_code, lines.t0_width, shared.data_width, shared.status_copy, shared.never_out_of_range,
    nv.wf, nv.within⟩

/-! The shared registers: a response that fits its port, and trap entry. -/

theorem respond_ctlOk {c : Config} {s : State} (st : Status) (d : Nat) (h : CtlOk c s.ctl) (hst : st ≠ .addrOutOfRange)
    (hd : d < 2 ^ c.dataWidth) : CtlOk c (respond st d s).ctl :=
  ⟨h.halt_code, h.run_code, hd, rfl, hst⟩

theorem raise_ctlOk (e : FatalError) (s : State) : CtlOk s.cfg (raise e s).ctl :=
  ⟨fun _ => by cases e <;> simp [FatalError.status, Status.code], fun h => absurd h (by simp), Nat.two_pow_pos _,
    rfl, by cases e <;> simp [FatalError.status]⟩

/-- RSP_DATA holds a byte, a payload and a record index (R32). -/
theorem lt_dataWidth_of_byte (c : Config) {d : Nat} (h : d < 2 ^ 8) : d < 2 ^ c.dataWidth :=
  Nat.lt_of_lt_of_le h (Nat.pow_le_pow_right (by omega) (Nat.le_max_left _ _))

theorem lt_dataWidth_of_payload (c : Config) {d : Nat} (h : d < 2 ^ c.payloadWidth) : d < 2 ^ c.dataWidth :=
  Nat.lt_of_lt_of_le h
    (Nat.pow_le_pow_right (by omega) (Nat.le_trans (Nat.le_max_left _ _) (Nat.le_max_right _ _)))

theorem lt_dataWidth_of_index (c : Config) (i : IndexWord) : i.toNat < 2 ^ c.dataWidth :=
  Nat.lt_of_lt_of_le i.isLt
    (Nat.pow_le_pow_right (by omega) (Nat.le_trans (Nat.le_max_right _ _) (Nat.le_max_right _ _)))

theorem zero_lt_dataWidth (c : Config) : 0 < 2 ^ c.dataWidth := Nat.two_pow_pos _

/-- A refusal writes the response registers alone, so it keeps the invariant of a block with no request outstanding. -/
theorem refuse_inv {s : State} (h : Inv s) (hp : s.store.pending = none) (st : Status) (hst : st ≠ .addrOutOfRange) :
    Inv (refuse st s) :=
  Inv.of_parts (s := respond st 0 s) h.lines h.log (respond_ctlOk st 0 h.shared hst (zero_lt_dataWidth _)) h.nv fun _ => hp

/-! The BBM commands. -/

/-- What a sequence on the lines leaves alone of the parts of the invariant. -/
structure OffLines (s u : State) : Prop where
  cfg : u.cfg = s.cfg
  als : u.als = s.als
  ctl : u.ctl = s.ctl
  store : u.store = s.store

/-- A BBM command that ends with a response of a byte keeps the invariant if it keeps what R48 says of the lines. -/
theorem respond_inv {s u : State} (h : Inv s) (hp : s.store.pending = none) (off : OffLines s u)
    (lines : LinesOk s.cfg u.bbm) (st : Status) (hst : st ≠ .addrOutOfRange) (d : Nat) (hd : d < 2 ^ 8) :
    Inv (respond st d u) := by
  obtain ⟨hc, ha, hx, hs⟩ := off
  have shared : CtlOk u.cfg u.ctl := by rw [hc, hx]; exact h.shared
  exact Inv.of_parts (by simpa [hc] using lines) (by simpa [hc, ha] using h.log)
    (respond_ctlOk st d shared hst (lt_dataWidth_of_byte _ hd)) (by simpa [hc, hs] using h.nv) fun _ => by simpa [hs] using hp

theorem LinesOk.of_data {c : Config} {b : Bbm} (hp : b.phase = .data) (hc : b.sclDrv = false) (h0 : b.t0 < 2 ^ c.tw) :
    LinesOk c b :=
  ⟨.inr hp, fun h => by simp [hp] at h, fun _ => hc, h0⟩

theorem LinesOk.of_idle {c : Config} {b : Bbm} (hp : b.phase = .idle) (hc : b.sclDrv = true) (hd : b.sdaDrv = true)
    (h0 : b.t0 < 2 ^ c.tw) : LinesOk c b :=
  ⟨.inl hp, fun _ => ⟨hc, hd⟩, fun h => by simp [hp] at h, h0⟩

theorem closeTransaction_linesOk (s : State) : LinesOk s.cfg (closeTransaction s).bbm :=
  LinesOk.of_idle (by simp) (by simp) (by simp) (closeTransaction_t0_lt s)

theorem OffLines.closeTransaction {s u : State} (off : OffLines s u) : OffLines s (closeTransaction u) :=
  ⟨by simp [off.cfg], by simp [off.als], by simp [off.ctl], by simp [off.store]⟩

theorem OffLines.setPhase {s u : State} (off : OffLines s u) (p : Phase) : OffLines s (setPhase p u) :=
  ⟨by simp [off.cfg], by simp [off.als], by simp [off.ctl], by simp [off.store]⟩

section
variable {s : State} (h : Inv s) (hp : s.store.pending = none)
include h hp

theorem beginBody_inv (addr : DeviceAddress) (dir : Direction) : Inv (beginBody addr dir s) := by
  obtain ⟨hscl, -⟩ := addressFrame_bbm s addr dir
  have ht0 := addressFrame_t0_lt s addr dir
  have off : OffLines s (addressFrame addr dir s) := ⟨by simp, by simp, by simp, by simp⟩
  rcases beginBody_cases addr dir s with ⟨-, he, -⟩ | ⟨-, he, -⟩ <;> rw [he]
  · exact respond_inv h hp (off.setPhase .data)
      (LinesOk.of_data (by simp) (by simpa using hscl) (by simpa using ht0)) .ok nofun 0 (by omega)
  · have lines := closeTransaction_linesOk (addressFrame addr dir s)
    rw [off.cfg] at lines
    exact respond_inv h hp off.closeTransaction lines .noAck nofun 0 (by omega)

theorem wrbitBody_inv (hd : s.bbm.phase = .data) (v : Bool) : Inv (wrbitBody v s) := by
  unfold wrbitBody
  exact respond_inv h hp ⟨by simp, by simp, by simp, by simp⟩
    (LinesOk.of_data (by simpa using hd) (by simp) (writeBit_t0_lt s v)) .ok nofun 0 (by omega)

theorem rdbitBody_inv (hd : s.bbm.phase = .data) : Inv (rdbitBody s) := by
  unfold rdbitBody
  exact respond_inv h hp ⟨by simp, by simp, by simp, by simp⟩
    (LinesOk.of_data (by simpa using hd) (by simp) (readBit_t0_lt s)) .ok nofun _
    (Nat.lt_of_le_of_lt (Bool.toNat_le _) (by omega))

theorem wrbyteBody_inv (hd : s.bbm.phase = .data) (b : Byte) : Inv (wrbyteBody b s) := by
  obtain ⟨hscl, -, -, -, -, -, hphase⟩ := byteFrame_bbm s b
  have off : OffLines s (byteFrame b s) := ⟨by simp, by simp, by simp, by simp⟩
  rcases wrbyteBody_cases b s with ⟨-, he, -⟩ | ⟨-, he, -⟩ <;> rw [he]
  · exact respond_inv h hp off (LinesOk.of_data (hphase.trans hd) hscl (byteFrame_t0_lt s b)) .ok nofun 0 (by omega)
  · have lines := closeTransaction_linesOk (byteFrame b s)
    rw [off.cfg] at lines
    exact respond_inv h hp off.closeTransaction lines .noAck nofun 0 (by omega)

theorem rdbyteBody_inv (hd : s.bbm.phase = .data) (wantAck : Bool) : Inv (rdbyteBody wantAck s) := by
  obtain ⟨u, hu⟩ : ∃ u, u = readBits [7, 6, 5, 4, 3, 2, 1, 0] s := ⟨_, rfl⟩
  have frame := readBits_shiftsIn [7, 6, 5, 4, 3, 2, 1, 0] s
  have hscl := (readBits_lines 7 [6, 5, 4, 3, 2, 1, 0] s).1
  have ht0 := readBits_t0_lt 7 [6, 5, 4, 3, 2, 1, 0] s
  rw [← hu] at frame hscl ht0
  have off : OffLines s u := ⟨frame.cfg, frame.als, frame.ctl, frame.store⟩
  have hphase := frame.phase.trans hd
  simp only [rdbyteBody, ← hu]
  cases wantAck with
  | false => exact respond_inv h hp off (LinesOk.of_data hphase hscl ht0) .ok nofun _ u.bbm.sr.isLt
  | true =>
    have lines : LinesOk s.cfg (writeBit false u).bbm :=
      LinesOk.of_data (by simpa using hphase) (by simp) (by rw [← off.cfg]; exact writeBit_t0_lt _ _)
    exact respond_inv h hp ⟨by simp [off.cfg], by simp [off.als], by simp [off.ctl], by simp [off.store]⟩ lines .ok nofun _
      u.bbm.sr.isLt

theorem endBody_inv : Inv (endBody s) :=
  respond_inv h hp (OffLines.closeTransaction ⟨rfl, rfl, rfl, rfl⟩) (closeTransaction_linesOk s) .ok nofun 0 (by omega)

/-! The ALS commands. -/

omit h hp in
/-- A fatal error keeps the invariant of a block with no request outstanding. -/
theorem raise_inv (e : FatalError) (lines : LinesOk s.cfg s.bbm) (log : LogOk s.cfg s.als) (nv : NvOk s.cfg s.store.nv)
    (hp : s.store.pending = none) : Inv (raise e s) :=
  Inv.of_parts lines log (raise_ctlOk e s) nv fun _ => hp

omit h hp in
theorem LogOk.invalid {c : Config} {a : Als} (h : a.logValid = false) : LogOk c a :=
  ⟨fun hv => by simp [h] at hv, fun hv => by simp [h] at hv⟩

/-- LOGINIT keeps the invariant, however its reads end: LOG_VALID is 0 until the break is found. -/
theorem loginitBody_inv (hN : 1 ≤ s.cfg.nSlots) (hr : s.ctl.cmdReady = false) : Inv (loginitBody s) := by
  rcases loginitBody_cases s hN with ⟨-, he⟩ | ⟨hfit, n, s1, -, hs, hends⟩
  · rw [he]
    exact raise_inv _ h.lines (LogOk.invalid rfl) h.nv hp
  · obtain ⟨hc, hb, ha, hx, -, -⟩ := hs.only
    have lines : LinesOk s1.cfg s1.bbm := by rw [hc, hb]; exact h.lines
    have shared : CtlOk s1.cfg s1.ctl := by rw [hc, hx]; exact h.shared
    have nv : NvOk s1.cfg s1.store.nv := by rw [hc, hs.nv]; exact h.nv
    rcases hends with ⟨offset, seq, he, hle, hnone⟩ | ⟨he, hnone⟩ | ⟨he, -⟩ <;> rw [he]
    · exact Inv.of_parts lines ⟨fun _ => hle, fun _ => by rw [← hfit]; exact congrArg Config.sizesFit hc⟩
        (respond_ctlOk .ok 0 shared nofun (zero_lt_dataWidth _)) nv fun _ => hnone
    · exact raise_inv _ lines (LogOk.invalid (by rw [ha]; rfl)) nv hnone
    · exact Inv.of_parts lines (LogOk.invalid (by rw [ha]; rfl)) shared nv fun ht => by
        rw [hx] at ht
        exact absurd ht (by simp [hr])

theorem loglastBody_inv (hr : s.ctl.cmdReady = false) : Inv (loglastBody s) := by
  rcases loglastBody_cases s with ⟨-, he⟩ | ⟨-, s1, hs, hends⟩
  · rw [he]
    exact Inv.of_parts h.lines h.log (respond_ctlOk .ok 0 h.shared nofun (zero_lt_dataWidth _)) h.nv fun _ => hp
  · obtain ⟨hc, hb, ha, hx, -, -⟩ := hs.only
    have lines : LinesOk s1.cfg s1.bbm := by rw [hc, hb]; exact h.lines
    have log : LogOk s1.cfg s1.als := by rw [hc, ha]; exact h.log
    have shared : CtlOk s1.cfg s1.ctl := by rw [hc, hx]; exact h.shared
    have nv : NvOk s1.cfg s1.store.nv := by rw [hc, hs.nv]; exact h.nv
    rcases hends with ⟨data, he, hlt, hnone⟩ | ⟨he, hnone⟩ | ⟨he, -⟩ <;> rw [he]
    · exact Inv.of_parts lines log (respond_ctlOk .ok data shared nofun (lt_dataWidth_of_payload _ (by rw [← hc] at hlt; exact hlt))) nv
        fun _ => hnone
    · exact raise_inv _ lines log nv hnone
    · exact Inv.of_parts lines log shared nv fun ht => by
        rw [hx] at ht
        exact absurd ht (by simp [hr])

omit h hp in
/-- LOGAPPEND leaves WRITE_OFFSET in range: it was, or it is 0 (R210). -/
theorem LogOk.appending {s1 : State} (log : LogOk s.cfg s.als) (ha : Appending s s1) : LogOk s1.cfg s1.als := by
  rw [ha.cfg]
  refine ⟨fun hv => ?_, fun hv => log.log_sizes (ha.valid ▸ hv)⟩
  rcases ha.offset with ho | ho <;> rw [ho]
  · exact log.offset_in_range (ha.valid ▸ hv)
  · exact Nat.zero_le _

omit hp in
theorem logappendBody_inv (hN : 1 ≤ s.cfg.nSlots) (hr : s.ctl.cmdReady = false) (din : Nat) : Inv (logappendBody din s) := by
  obtain ⟨s1, ha, hends⟩ := logappendBody_cases din s hN
  have lines : LinesOk s1.cfg s1.bbm := by rw [ha.cfg, ha.bbm]; exact h.lines
  have log := h.log.appending ha
  have shared : CtlOk s1.cfg s1.ctl := by rw [ha.cfg, ha.ctl]; exact h.shared
  have nv : NvOk s1.cfg s1.store.nv := by rw [ha.cfg]; exact ⟨ha.wf h.store_wf, ha.within h.store_within⟩
  rcases hends with ⟨he, hlt, hnone⟩ | ⟨he, hnone⟩ | ⟨he, -⟩ <;> rw [he]
  · refine Inv.of_parts lines ⟨fun _ => ?_, log.log_sizes⟩
      (respond_ctlOk .ok _ shared nofun (lt_dataWidth_of_index _ _)) nv fun _ => hnone
    have hsucc : (s1.als.writeOffset + 1).toNat ≤ s1.als.writeOffset.toNat + 1 := by bv_omega
    exact Nat.le_trans hsucc hlt
  · exact raise_inv _ lines log nv hnone
  · exact Inv.of_parts lines log shared nv fun ht => by
      rw [ha.ctl] at ht
      exact absurd ht (by simp [hr])

/-- Every command that is allowed now keeps the invariant. -/
theorem bodyOf_inv (hN : 1 ≤ s.cfg.nSlots) (hr : s.ctl.cmdReady = false) (i : Instr) (ha : allowedNow s i) :
    Inv (bodyOf i s) := by
  cases i with
  | begin addr dir => exact beginBody_inv h hp addr dir
  | wrbit v => exact wrbitBody_inv h hp ha v
  | rdbit => exact rdbitBody_inv h hp ha
  | wrbyte b => exact wrbyteBody_inv h hp ha b
  | rdbyte wantAck => exact rdbyteBody_inv h hp ha wantAck
  | end_ => exact endBody_inv h hp
  | loginit => exact loginitBody_inv h hp hN hr
  | loglast => exact loglastBody_inv h hp hr
  | logappend din => exact logappendBody_inv h hN hr din

end

/-! The step. -/

theorem openPort_inv {s : State} (h : Inv s) (rest : List HostEvent) : Inv (openPort rest s) :=
  Inv.of_parts h.lines h.log h.shared h.nv h.ready_no_request

theorem busy_inv {s : State} (h : Inv s) : Inv (busy s) :=
  Inv.of_parts h.lines h.log ⟨h.halt_code, h.run_code, h.data_width, h.status_copy, h.never_out_of_range⟩ h.nv
    fun hr => by simp at hr

theorem allowedNow_busy (s : State) (i : Instr) : allowedNow (busy s) i ↔ allowedNow s i := by cases i <;> rfl

/-- The statuses of a refusal, which the checks of R112 give. -/
theorem atCommandPort_answers {cw : CommandWord} {din : Nat} {s t : State} (h : s.atCommandPort cw din = .next t) :
    s.ctl.cmdReady = false ∧ t = s ∨
      s.ctl.cmdReady = true ∧ s.cfg.ok s.bbm.speed = true ∧
        (t = refuse .halted s ∨ t = refuse .illegal s ∨
          ∃ i, decode cw (din % 2 ^ s.cfg.payloadWidth) = some i ∧ allowedNow s i ∧ t = bodyOf i (busy s)) := by
  cases hr : s.ctl.cmdReady with
  | false =>
    rw [atCommandPort_not_ready hr] at h
    cases h
    exact .inl ⟨rfl, rfl⟩
  | true =>
    refine .inr ⟨rfl, ?_⟩
    cases hd : decode cw (din % 2 ^ s.cfg.payloadWidth) with
    | none =>
      rw [atCommandPort_of_decode_none hr hd, rejectWord] at h
      rcases accept_cases false id s with ⟨-, he⟩ | ⟨hok, ⟨-, he⟩ | ⟨-, hf, -⟩ | ⟨-, -, he⟩⟩
      · rw [he] at h; cases h
      · rw [he] at h; cases h; exact ⟨hok, .inl rfl⟩
      · cases hf
      · rw [he] at h; cases h; exact ⟨hok, .inr (.inl rfl)⟩
    | some i =>
      rw [atCommandPort_of_decode hr hd] at h
      obtain ⟨hok, ⟨-, rfl⟩ | ⟨-, -, rfl⟩ | ⟨-, ha, rfl⟩⟩ := exec_cases i s t h
      · exact ⟨hok, .inl rfl⟩
      · exact ⟨hok, .inr (.inl rfl)⟩
      · exact ⟨hok, .inr (.inr ⟨i, rfl, ha, rfl⟩)⟩

theorem atCommandPort_inv {cw : CommandWord} {din : Nat} {s t : State} (h : Inv s) (ht : s.atCommandPort cw din = .next t) :
    Inv t := by
  rcases atCommandPort_answers ht with ⟨-, rfl⟩ | ⟨hr, hok, rfl | rfl | ⟨i, -, ha, rfl⟩⟩
  · exact h
  · exact refuse_inv h (h.ready_no_request hr) _ nofun
  · exact refuse_inv h (h.ready_no_request hr) _ nofun
  · exact bodyOf_inv (busy_inv h) (h.ready_no_request hr) (configOk_nSlots _ _ hok) rfl i ((allowedNow_busy s i).2 ha)

/-- Reset gives every register its reset value, so the invariant asks the store's form alone (R47). -/
theorem resetBlock_inv {s : State} (nv : NvOk s.cfg s.store.nv) (strap : Speed) : Inv (resetBlock strap s) := by
  have hc : (resetBlock strap s).cfg = s.cfg := (dropRequest_frame s).cfg
  obtain ⟨hwf, hwithin⟩ := dropRequest_nv s nv.wf nv.within
  refine Inv.of_parts (LinesOk.of_idle rfl rfl rfl (Nat.two_pow_pos _)) (LogOk.invalid rfl)
    ⟨nofun, fun _ => rfl, Nat.two_pow_pos _, rfl, nofun⟩ ?_ fun _ => rfl
  rw [hc]
  exact ⟨hwf, hwithin⟩

theorem freshEvents_of_emits {s t : State} {events : List TraceEvent} (h : Emits s t events) : freshEvents s t = events := by
  simp [freshEvents, show t.trace = events.reverse ++ s.trace from h]

/-- The store that a cut leaves is in canonical form: the events kept write inside the device only (R261). -/
theorem cutBack_nvOk {cw : CommandWord} {din : Nat} {s t : State} (h : Inv s) (ht : s.atCommandPort cw din = .next t)
    (cut : Nat) : NvOk (cutBack cut s t).cfg (cutBack cut s t).store.nv := by
  show NvOk s.cfg (((freshEvents s t).take cut).foldl storeEvent s).store.nv
  rcases atCommandPort_answers ht with ⟨-, rfl⟩ | ⟨hr, -⟩
  · rw [freshEvents_of_emits (events := []) rfl]
    simpa using h.nv
  · obtain ⟨events, he, hlen⟩ := atCommandPort_requests cw din s t ht
    rw [freshEvents_of_emits he]
    have hform := storeEvents_form (events.take cut) s (fun r hq => hlen r (requestsOf_take _ _ _ hq))
      (fun r hq => by simp [h.ready_no_request hr] at hq) h.store_wf h.store_within
    exact ⟨hform.1, hform.2⟩

/-- Settles O54, by what the host drives. -/
theorem everyStepKeepsTheInvariant : Obligations.EveryStepKeepsTheInvariant := by
  intro s t h hstep
  unfold step at hstep
  split at hstep
  · cases hstep
    exact openPort_inv h []
  · exact atCommandPort_inv (openPort_inv h _) hstep
  · cases hstep
    exact resetBlock_inv (openPort_inv h _).nv _
  · unfold State.cutCommand at hstep
    split at hstep
    · next after ha =>
      cases hstep
      exact resetBlock_inv (cutBack_nvOk (openPort_inv h _) ha _) _
    · cases hstep
    · cases hstep

/-- Settles O55. -/
theorem resetMeetsTheInvariant : Obligations.ResetMeetsTheInvariant :=
  Inv.of_parts (LinesOk.of_idle rfl rfl rfl (Nat.two_pow_pos _)) (LogOk.invalid rfl)
    ⟨nofun, fun _ => rfl, Nat.two_pow_pos _, rfl, nofun⟩ ⟨rfl, rfl⟩ fun _ => rfl

end Sys2Proof.Machine
end

section
/-! SUPPORT. Reset (R47, R260, R261): the values it leaves, what becomes of a write in flight, and a command that it cuts
off. -/

namespace Sys2Proof.Machine

theorem resetBlock_hasResetValues (strap : Speed) (s : State) : HasResetValues strap (resetBlock strap s) := by
  constructor <;> rfl

theorem resetBlock_cfg (strap : Speed) (s : State) : (resetBlock strap s).cfg = s.cfg := (dropRequest_frame s).cfg

theorem resetBlock_nv (strap : Speed) (s : State) : (resetBlock strap s).store.nv = (dropRequest s).store.nv := rfl

theorem resetBlock_trace (strap : Speed) (s : State) : (resetBlock strap s).trace = .reset strap :: s.trace :=
  congrArg (TraceEvent.reset strap :: ·) (dropRequest_trace s)

/-- A byte that no write in flight addresses is kept (R261). -/
theorem dropRequest_read_other (s : State) (a : Nat)
    (h : ∀ r, s.store.pending = some r → r.write = true → a < r.off ∨ r.off + r.len ≤ a) :
    Memory.read (dropRequest s).store.nv a = Memory.read s.store.nv a := by
  rcases dropRequest_cases s with he | ⟨r, bytes, hp, hw, -, hl, he⟩ <;> rw [he]
  exact Memory.read_writeBytes_other _ _ _ _ (by rw [hl]; exact h r hp hw)

theorem step_reset {s : State} {strap : Speed} {rest : List HostEvent} (h : s.host = .reset strap :: rest) :
    step s = .next (resetBlock strap (openPort rest s)) := by
  simp only [step, h]

/-- Settles O15. -/
theorem resetLeavesTheResetValues : Obligations.ResetLeavesTheResetValues := by
  refine ⟨fun s strap rest h => ⟨_, step_reset h, resetBlock_hasResetValues _ _, fun hp => ?_, fun a ha => ?_⟩, ?_⟩
  · rw [resetBlock_nv, dropRequest_none (openPort rest s) hp]
    rfl
  · exact dropRequest_read_other (openPort rest s) a ha
  · constructor <;> rfl

/-! A command cut off. -/

theorem cutBack_store {s t : State} {events : List TraceEvent} (h : Emits s t events) (cut : Nat) :
    (cutBack cut s t).store = { ((events.take cut).foldl storeEvent s).store with answers := t.store.answers } := by
  simp only [cutBack, freshEvents_of_emits h]

theorem cutBack_trace {s t : State} {events : List TraceEvent} (h : Emits s t events) (cut : Nat) :
    (cutBack cut s t).trace = (events.take cut).reverse ++ s.trace := by
  simp only [cutBack, freshEvents_of_emits h]

theorem cutBack_self (cut : Nat) (s : State) : cutBack cut s s = s := by
  simp [cutBack, freshEvents_of_emits (events := []) (s := s) (t := s) rfl]

/-- A byte that every request of the command spares is kept, wherever the cut falls (R261). -/
theorem cut_read {s t : State} {events : List TraceEvent} (h : Emits s t events) (hp : s.store.pending = none) {a : Nat}
    (hs : ∀ r ∈ requestsOf events, Spares s.cfg a r) (cut : Nat) :
    Memory.read (dropRequest (cutBack cut s t)).store.nv a = Memory.read s.store.nv a := by
  obtain ⟨-, hread, hleft⟩ := storeEvents_read (events.take cut) s a (fun r hr => hs r (requestsOf_take _ _ _ hr))
    (fun r hr => by simp [hp] at hr)
  rw [dropRequest_read _ a (by rw [cutBack_store h]; exact hleft), cutBack_store h]
  exact hread

/-- A cut after the whole of a command whose events account for the store it left leaves that store. -/
theorem cut_whole {s t : State} {events : List TraceEvent} (h : Emits s t events)
    (same : SameStore (events.foldl storeEvent s) t) (hp : t.store.pending = none) {cut : Nat} (hc : events.length ≤ cut) :
    (dropRequest (cutBack cut s t)).store.nv = t.store.nv := by
  have hstore := cutBack_store h cut
  rw [List.take_of_length_le hc] at hstore
  rw [dropRequest_none _ (by rw [hstore]; exact same.pending.trans hp), hstore]
  exact same.nv

/-- What a word at the port of a block with no request outstanding does to a byte of the store, cut off or whole: the events
of its trace spare the byte, and account for the store that a command with its response leaves. -/
structure CutSafe (s t : State) (spared : Nat → Prop) : Prop where
  events : ∃ events, Emits s t events ∧ (∀ a, spared a → ∀ r ∈ requestsOf events, Spares s.cfg a r) ∧
    (t.ctl.cmdReady = true → ∀ cut, events.length ≤ cut →
      (dropRequest (cutBack cut s t)).store.nv = t.store.nv)

/-- Events with no write among them are safe to cut, for every byte. -/
theorem CutSafe.of_reads {s t : State} {events : List TraceEvent} (h : Emits s t events) (hp : s.store.pending = none)
    (hr : ∀ r ∈ requestsOf events, r.write = false) (hnv : t.store.nv = s.store.nv) (spared : Nat → Prop) :
    CutSafe s t spared := by
  refine ⟨events, h, fun a _ r hq hw => by simp [hr r hq] at hw, fun _ cut _ => ?_⟩
  obtain ⟨hkeep, hleft⟩ := storeEvents_reads (events.take cut) s (fun r hq => hr r (requestsOf_take _ _ _ hq))
    (fun r hq => by simp [hp] at hq)
  rw [dropRequest_reads _ (by rw [cutBack_store h]; exact hleft), cutBack_store h, hnv]
  exact hkeep

/-- The bytes outside the slot that a LOGAPPEND writes, and, when the store breaks its contract, outside slot 0 (R210). -/
def OutsideAppend (s : State) (a : Nat) : Prop :=
  (a < s.cfg.slotOffset (appendSlot s) ∨ s.cfg.slotOffset (appendSlot s) + s.cfg.recordSize ≤ a) ∧
    (storeDraw s = .outOfRange → s.cfg.recordSize ≤ a)

/-- The first write of LOGAPPEND is past the capacity or addresses its slot. -/
theorem firstWrite_spares {s : State} {a : Nat} (h : OutsideAppend s a) (record : List Byte)
    (hl : record.length = s.cfg.recordSize) : Spares s.cfg a (slotWrite s.cfg s.als.writeOffset.toNat record) := by
  intro _ hr
  have hlt : s.als.writeOffset.toNat < s.cfg.nSlots := (slot_in_range _ _).1 (by rw [← hl]; exact hr)
  have hslot : appendSlot s = s.als.writeOffset.toNat := if_pos hlt
  have hout := h.1
  rw [hslot, ← hl] at hout
  exact ⟨rfl, hout⟩

/-- The retry addresses slot 0, which is the slot to write, or the second one of a store that breaks its contract. -/
theorem retryWrite_spares {s : State} {a : Nat} (h : OutsideAppend s a) (record : List Byte)
    (hl : record.length = s.cfg.recordSize) (hd : s.als.writeOffset.toNat < s.cfg.nSlots → storeDraw s = .outOfRange) :
    Spares s.cfg a (slotWrite s.cfg 0 record) := by
  have hzero : s.cfg.slotOffset 0 = 0 := Nat.zero_mul _
  refine slotWrite_spares _ _ _ _ _ ?_
  by_cases hlt : s.als.writeOffset.toNat < s.cfg.nSlots
  · have := h.2 (hd hlt)
    omega
  · have hslot : appendSlot s = 0 := if_neg hlt
    have hout := h.1
    rwa [hslot, ← hl] at hout

theorem logappendBody_cutSafe (din : Nat) (s : State) (hN : 1 ≤ s.cfg.nSlots) (hr : s.ctl.cmdReady = false) :
    CutSafe s (logappendBody din s) (OutsideAppend s) := by
  obtain ⟨requests, answer, ⟨events, he, -, -, hq, -⟩, hretry⟩ := logappendBody_requests din s
  refine ⟨events, he, fun a ha r hmem => ?_, fun hready cut hcut => ?_⟩
  · rw [hq] at hmem
    rcases List.mem_cons.1 hmem with rfl | hmem
    · exact firstWrite_spares ha _ (by simp)
    · obtain ⟨rfl, hd⟩ := hretry r hmem
      exact retryWrite_spares ha _ (by simp) hd
  · obtain ⟨events', he', same⟩ := logappendBody_storeReplays din s
    have hsame : events' = events := (freshEvents_of_emits he').symm.trans (freshEvents_of_emits he)
    rw [hsame] at same
    refine cut_whole he same ?_ hcut
    obtain ⟨s1, ha, ⟨hend, -, hnone⟩ | ⟨hend, hnone⟩ | ⟨hend, -⟩⟩ := logappendBody_cases din s hN
    · rw [hend]; exact hnone
    · rw [hend]; exact hnone
    · rw [hend, ha.ctl, hr] at hready
      cases hready

/-- A command cut off inside its body: all of NV is safe but for a LOGAPPEND's slots. -/
theorem bodyOf_cutSafe (i : Instr) (s : State) (hp : s.store.pending = none) (hN : 1 ≤ s.cfg.nSlots)
    (hr : s.ctl.cmdReady = false) :
    CutSafe s (bodyOf i s) (fun a => (∀ din, i ≠ .logappend din) ∨ OutsideAppend s a) := by
  by_cases hi : ∃ din, i = .logappend din
  · obtain ⟨din, rfl⟩ := hi
    obtain ⟨events, he, hspared, hwhole⟩ := logappendBody_cutSafe din s hN hr
    exact ⟨events, he, fun a ha => hspared a (ha.resolve_left fun hne => hne din rfl), hwhole⟩
  · obtain ⟨⟨lines, phases, requests, answer, ⟨events, he, -, -, hq, -⟩, hreads⟩, hnv⟩ :=
      bodyOf_reads i s (fun din he => hi ⟨din, he⟩) hN
    exact CutSafe.of_reads he hp (fun r hmem => hreads r (by rwa [hq] at hmem)) hnv _

/-- The acceptance of a word changes nothing that a cut looks at. -/
theorem CutSafe.of_busy {s t : State} {spared : Nat → Prop} (h : CutSafe (busy s) t spared) : CutSafe s t spared := by
  obtain ⟨events, he, hspared, hwhole⟩ := h
  have he' : Emits s t events := he
  refine ⟨events, he', hspared, fun hready cut hcut => ?_⟩
  have same : ∀ es : List TraceEvent, SameStore (es.foldl storeEvent s) (es.foldl storeEvent (busy s)) := fun es =>
    SameStore.storeEvents (by constructor <;> rfl) es
  have hcuts : SameStore (cutBack cut s t) (cutBack cut (busy s) t) := by
    have hkept := same (events.take cut)
    refine ⟨rfl, ?_, ?_, ?_⟩ <;> rw [cutBack_store he, cutBack_store he']
    · exact hkept.nv
    · exact hkept.debris
    · exact hkept.pending
  rw [← hwhole hready cut hcut]
  unfold dropRequest
  rw [hcuts.pending]
  split
  · exact hcuts.nv
  · exact (hcuts.settle _ _).nv

/-- The word of LOGAPPEND is 0xA000 (R103). -/
theorem cw_of_decode_logappend {cw : CommandWord} {din d : Nat} (h : decode cw din = some (.logappend d)) : cw = 0xA000 := by
  obtain ⟨r, hr, hits, he⟩ := decode_eq_some h
  have hcw := encode_make_cw hr hits din
  rw [← he] at hcw
  exact hcw.symm

/-- A word at the command port of a block with no request outstanding: what it does to NV, cut off or whole. -/
theorem atCommandPort_cutSafe {cw : CommandWord} {din : Nat} {s t : State} (h : s.atCommandPort cw din = .next t)
    (hp : s.store.pending = none) : CutSafe s t (fun a => cw ≠ 0xA000 ∨ OutsideAppend s a) := by
  have refusal (st : Status) : CutSafe s (refuse st s) (fun a => cw ≠ 0xA000 ∨ OutsideAppend s a) :=
    have he : Emits s (refuse st s) [.response st 0] := rfl
    CutSafe.of_reads he hp (by simp [requestsOf]) rfl _
  rcases atCommandPort_answers h with ⟨-, rfl⟩ | ⟨-, hok, rfl | rfl | ⟨i, hd, -, rfl⟩⟩
  · exact CutSafe.of_reads (events := []) rfl hp (by simp [requestsOf]) rfl _
  · exact refusal _
  · exact refusal _
  · obtain ⟨events, he, hspared, hwhole⟩ := (bodyOf_cutSafe i (busy s) hp (configOk_nSlots _ _ hok) rfl).of_busy
    refine ⟨events, he, fun a ha => hspared a ?_, hwhole⟩
    rcases ha with hcw | hout
    · refine .inl fun din' hi => hcw ?_
      rw [hi] at hd
      exact cw_of_decode_logappend hd
    · exact .inr hout

/-- What the host drives reaches the block through the port alone. -/
theorem openPort_host (rest events : List HostEvent) (s : State) :
    openPort rest { s with host := events } = openPort rest s := rfl

theorem step_resetDuring {s t : State} {cw : CommandWord} {din cut : Nat} {strap : Speed} {rest : List HostEvent}
    (h : s.host = .resetDuring cw din cut strap :: rest) (ht : (openPort rest s).atCommandPort cw din = .next t) :
    step s = .next (resetBlock strap (cutBack cut (openPort rest s) t)) := by
  simp only [step, h, State.cutCommand, ht]

/-- In a block that is stuck the driven word is not accepted, and the reset is any other (U19). -/
theorem step_resetDuring_not_ready {s : State} {cw : CommandWord} {din cut : Nat} {strap : Speed} {rest : List HostEvent}
    (h : s.host = .resetDuring cw din cut strap :: rest) (hr : s.ctl.cmdReady = false) :
    step s = .next (resetBlock strap (openPort rest s)) := by
  have hport := atCommandPort_not_ready (s := openPort rest s) hr cw din
  rw [step_resetDuring h hport, cutBack_self]

/-- Settles O16: the kept events of the command's trace decide the store, and reset the registers. -/
theorem resetDuringCommandKeepsTheStore : Obligations.ResetDuringCommandKeepsTheStore := by
  refine ⟨fun s cw din cut strap rest h hok hp => ?_, fun s cw din cut strap rest hr => ?_⟩
  · obtain ⟨u, hu⟩ := atCommandPort_total cw din (s := openPort rest s) hok
    obtain ⟨events, he, hspared, hwhole⟩ := atCommandPort_cutSafe hu hp
    have htrace : u.trace.reverse = events := by
      rw [show u.trace = events.reverse ++ [] from he]
      simp
    refine ⟨_, u, step_resetDuring h hu, ?_, resetBlock_hasResetValues _ _, ?_, ?_, fun a ha => ?_, fun hlen hready => ?_⟩
    · rw [step_command (s := { s with host := .command cw din :: rest }) rfl, openPort_host, hu]
    · rw [resetBlock_cfg]
      rfl
    · rw [resetBlock_trace, cutBack_trace he, htrace]
      simp [openPort, idleGap]
    · rw [resetBlock_nv]
      exact cut_read he hp (hspared a ha) cut
    · rw [resetBlock_nv]
      exact hwhole hready cut (by rw [← htrace]; simpa using hlen)
  · rw [step_resetDuring_not_ready (s := { s with host := .resetDuring cw din cut strap :: rest }) rfl hr,
      step_reset (s := { s with host := .reset strap :: rest }) rfl]
    rfl

end Sys2Proof.Machine
end

section
/-! SUPPORT. The status port (R33, R42): its fields, and that the trace of a step accounts for what the step leaves there. -/

namespace Sys2Proof.Machine

/-! The trace of a step. -/

theorem atCommandPort_replays {cw : CommandWord} {din : Nat} {s t : State} (h : s.atCommandPort cw din = .next t) :
    Replays s t := by
  rcases atCommandPort_answers h with ⟨-, rfl⟩ | ⟨-, -, rfl | rfl | ⟨i, -, -, rfl⟩⟩
  · exact Replays.of_view rfl SameView.rfl
  · exact respond_replays .halted 0 s rfl
  · exact respond_replays .illegal 0 s rfl
  · have hbusy : Replays s (busy s) := Replays.of_view rfl (by constructor <;> rfl)
    exact hbusy.trans (bodyOf_replays i (busy s))

theorem openPort_sameView (rest : List HostEvent) (s : State) : SameView s (openPort rest s) := by constructor <;> rfl

/-- Whatever came before, the registers after the event of a reset are those of the reset (R47). -/
theorem replay_reset_sameView (strap : Speed) (s u : State) : SameView (s.replay (.reset strap)) (resetBlock strap u) := by
  constructor <;> rfl

theorem resetBlock_sameView (strap : Speed) (s u : State) :
    SameView (replayAll (resetBlock strap u).trace.reverse s) (resetBlock strap u) := by
  rw [resetBlock_trace, List.reverse_cons, replayAll, List.foldl_append]
  exact replay_reset_sameView strap _ u

/-- The events of a step, replayed from the state before, show what the state after shows (R42). -/
theorem step_sameView {s t : State} (h : step s = .next t) : SameView (replayAll t.trace.reverse s) t := by
  cases he : s.host with
  | nil =>
    simp only [step, he] at h
    cases h
    exact openPort_sameView [] s
  | cons event rest =>
    cases event with
    | command cw din =>
      rw [step_command he] at h
      obtain ⟨events, hemits, hview⟩ := atCommandPort_replays h
      have htrace : t.trace.reverse = events := by
        rw [show t.trace = events.reverse ++ [] from hemits]
        simp
      rw [htrace]
      exact ((openPort_sameView rest s).replayAll events).trans hview
    | reset strap =>
      rw [step_reset he] at h
      cases h
      exact resetBlock_sameView strap s _
    | resetDuring cw din cut strap =>
      simp only [step, he, State.cutCommand] at h
      split at h
      · cases h
        exact resetBlock_sameView strap s _
      · cases h
      · cases h

theorem statusDuring_whole (sel : BitVec 2) (trace : List TraceEvent) (s : State) :
    statusDuring sel trace.length trace s = statusPort sel (replayAll trace.reverse s) := by
  rw [statusDuring, List.take_of_length_le (by simp)]

/-! The fields of STATUS. -/

section
variable {v w start len : Nat} (x : BitVec v) (y : BitVec w)

/-- A field of a concatenation that lies in its low part. -/
theorem extractLsb'_append_low (h : start + len ≤ w) : (x ++ y).extractLsb' start len = y.extractLsb' start len := by
  ext i hi
  simp [BitVec.getLsbD_append, show start + i < w by omega]

/-- A field of a concatenation that lies in its high part. -/
theorem extractLsb'_append_high (h : w ≤ start) :
    (x ++ y).extractLsb' start len = x.extractLsb' (start - w) len := by
  ext i hi
  simp [BitVec.getLsbD_append, show ¬ start + i < w by omega, show start + i - w = start - w + i by omega]

theorem getLsbD_append_low (h : start < w) : (x ++ y).getLsbD start = y.getLsbD start := by
  rw [BitVec.getLsbD_append, if_pos h]

theorem getLsbD_append_high (h : w ≤ start) : (x ++ y).getLsbD start = x.getLsbD (start - w) := by
  rw [BitVec.getLsbD_append, if_neg (by omega)]

end

/-- STATUS as the concatenation of its fields (R33). -/
theorem statusPort_zero (s : State) :
    statusPort 0 s =
      ((0 : BitVec 10) ++ s.ctl.lastStatus.code ++ s.ctl.faultCode ++ BitVec.ofBool s.als.logValid
        ++ BitVec.ofBool s.ctl.halt ++ BitVec.ofBool s.bbm.speed.bit ++ BitVec.ofBool s.bbm.sdaDrv
        ++ BitVec.ofBool s.bbm.sclDrv ++ s.bbm.txnAddr ++ BitVec.ofBool s.bbm.txnDir.bit ++ s.bbm.phase.code : BitVec 32) :=
  rfl

/-- Settles O17: the events of the step replayed, and each field read by peeling off the fields below it. -/
theorem statusPortMirrorsTheRegisters : Obligations.StatusPortMirrorsTheRegisters := by
  refine ⟨fun s t h sel => ?_, fun s => ?_⟩
  · rw [statusDuring_whole]
    exact (step_sameView h).statusPort sel
  · have hport := statusPort_zero s
    generalize statusPort 0 s = port at hport
    refine ⟨?phase, ?dir, ?addr, ?scl, ?sda, ?speed, ?halt, ?valid, ?fault, ?last, ?zero, rfl, rfl, rfl⟩ <;> rw [hport]
    case phase => rw [extractLsb'_append_low _ _ (by omega), BitVec.extractLsb'_eq_self]
    case addr | fault | last =>
      repeat rw [extractLsb'_append_high _ _ (by omega)]
      rw [extractLsb'_append_low _ _ (by omega), BitVec.extractLsb'_eq_self]
    case zero =>
      repeat rw [extractLsb'_append_high _ _ (by omega)]
      rfl
    all_goals
      repeat rw [getLsbD_append_high _ _ (by omega)]
      rw [getLsbD_append_low _ _ (by omega)]
      simp

end Sys2Proof.Machine
end

section
/-! SUPPORT. The commands of one bit, from the laws of their sequences (R131 to R145): times, samples and the bit read. -/

namespace Sys2Proof.Machine

/-- Settles O18: the advance is the amount that the read draws. -/
theorem nowAdvancesTime : Obligations.NowAdvancesTime := by
  intro s hok
  obtain ⟨-, hdt, -⟩ := configOk_waits _ _ hok
  refine ⟨advanceAmount s, advanceAmount_pos s, advanceAmount_le s hdt, rfl, ?_⟩
  show (s.line.ticks + advanceAmount s) % 2 ^ s.cfg.tw = (s.line.ticks % 2 ^ s.cfg.tw + advanceAmount s) % 2 ^ s.cfg.tw
  rw [Nat.mod_add_mod]

/-- Settles O19: the poll of the wait ends at its first read at or after the limit. -/
theorem waitLastsItsUnits : Obligations.WaitLastsItsUnits := by
  intro s n hok hn
  obtain ⟨hu, hdt, hw⟩ := configOk_waits _ _ hok
  have hlimit : s.cfg.unit s.bbm.speed ≤ n * s.unit ∧ n * s.unit ≤ 2 * s.cfg.unit s.bbm.speed := by
    simp only [unit_eq]
    rcases hn with rfl | rfl <;> omega
  exact waitPoll_spec (n * s.unit) (n * s.unit) (now s).line.ticks (stamp (now s)) hdt
    (by simp only [stamp_cfg, now_cfg]; omega) rfl (Nat.le_refl _) (by simp only [stamp_line]; omega)
    (by simp only [stamp_line]; omega)

/-- Settles O20. -/
theorem sampleReadsWireLevels : Obligations.SampleReadsWireLevels := fun _ => ⟨rfl, rfl, rfl, rfl, rfl⟩

/-- A response changes the response registers alone, and is the last event. -/
theorem respond_responded {s u : State} (h : u.ctl = s.ctl) (st : Status) (d : Nat) : Responded s (respond st d u) st d := by
  refine ⟨?_, rfl⟩
  rw [← h]
  rfl

/-- Between acceptance and response `cmd_ready` alone is another. -/
theorem Responded.of_busy {s t : State} {st : Status} {d : Nat} (h : Responded (busy s) t st d) : Responded s t st d := h

/-- The frame of a BBM command, from its acceptance. -/
theorem BbmFrame.of_busy {s t : State} (h : BbmFrame (busy s) t) : BbmFrame s t :=
  ⟨h.cfg, h.als, h.store, h.host, h.gaps, h.speed, h.halt, h.faultCode⟩

/-- What a sequence on the lines can write into the BBM registers. -/
theorem LineOnly.bbm_eq {s t : State} (h : LineOnly s t) :
    t.bbm =
      { s.bbm with
        bitacc := t.bbm.bitacc
        t0 := t.bbm.t0
        sclDrv := t.bbm.sclDrv
        sdaDrv := t.bbm.sdaDrv } := by
  simp only [← h.sr, ← h.phase, ← h.txnAddr, ← h.txnDir, ← h.speed]

/-- A sequence without samples moves TIME and its draws alone of the lines' environment. -/
theorem line_eq {s t : State} (hc : t.line.pScl = s.line.pScl) (hd : t.line.pSda = s.line.pSda)
    (hp : t.line.peers = s.line.peers) (hg : t.line.gaps = s.line.gaps) :
    t.line = { s.line with ticks := t.line.ticks, advances := t.line.advances } := by
  simp only [← hc, ← hd, ← hp, ← hg]

/-- The waits of `WriteBit`, one by one (R139). -/
theorem writeBit_times (v : Bool) (s : State) (h : s.cfg.ok s.bbm.speed = true) :
    ∃ up down, (writeBit v s).trace = .line .scl false down :: .line .scl true up :: .line .sda v s.line.ticks :: s.trace ∧
      s.line.ticks + s.unit ≤ up ∧ up + 2 * s.unit ≤ down ∧ down + s.unit ≤ (writeBit v s).line.ticks := by
  have h1 := wait_spec_ok (driveSda v s) 1 h (by omega) (by omega)
  have h2 := wait_spec_ok (driveScl true (wait 1 (driveSda v s))) 2 (by simpa using h) (by omega) (by omega)
  have h3 := wait_spec_ok (driveScl false (wait 2 (driveScl true (wait 1 (driveSda v s))))) 1 (by simpa using h)
    (by omega) (by omega)
  simp only [unit_eq, driveSda_cfg, driveScl_cfg, wait_cfg, driveSda_bbm_speed, driveScl_bbm_speed, wait_bbm_speed,
    driveSda_line, driveScl_line, Nat.one_mul] at h1 h2 h3
  refine ⟨_, _, writeBit_trace s v, ?_⟩
  simp only [writeBit, unit_eq]
  omega

/-- Settles O21: the frame of `WriteBit`, its three line writes and the waits between them. -/
theorem wrbitWritesOneBit : Obligations.WrbitWritesOneBit := by
  intro s v hready hphase
  have hexec : exec (.wrbit v) s = .next (wrbitBody v (busy s)) := exec_ready (.wrbit v) s hready hphase
  obtain ⟨up, down, htrace, h1, h2, h3⟩ := writeBit_times v (busy s) hready.config_ok
  have hbbm := (writeBit_lineOnly (busy s) v).bbm_eq
  simp only [writeBit_bbm_bitacc, writeBit_bbm_sclDrv, writeBit_bbm_sdaDrv, busy_bbm] at hbbm
  exact ⟨_, up, down, hexec, (respond_responded (by simp) .ok 0).of_busy, (wrbitBody_frame v (busy s)).of_busy, hbbm,
    line_eq (s := busy s) (writeBit_line_pScl _ v) (writeBit_line_pSda _ v) (writeBit_line_peers _ v)
      (writeBit_line_gaps _ v),
    congrArg (TraceEvent.response .ok 0 :: ·) htrace, h1, h2, h3⟩

/-! The bit read. -/

/-- Settles O22: the trace and the times of `ReadBit`. -/
theorem rdbitReadsOneBit : Obligations.RdbitReadsOneBit := by
  intro s hready hphase
  have hexec : exec .rdbit s = .next (rdbitBody (busy s)) := exec_ready .rdbit s hready hphase
  obtain ⟨clk, polls, last, hR⟩ := readBit_spec (busy s) hready.config_ok
  have hclk : s.line.ticks + s.unit < clk := hR.clk_after
  have hlast := hR.last_after
  have hbbm := (readBit_lineOnly (busy s)).bbm_eq
  simp only [readBit_sclDrv, readBit_sdaDrv, busy_bbm] at hbbm
  refine ⟨_, clk, polls, last, hexec, (respond_responded (by simp) .ok _).of_busy, (rdbitBody_frame (busy s)).of_busy,
    hbbm, ?_, Nat.le_of_lt hclk, by omega, hR.ticks⟩
  simp only [rdbitBody, respond_trace, respond_line, hR.trace, hR.ticks]
  simp

/-- The poll ends and goes on by the ticks since its start, within one turn of TIME (R140, R142). -/
theorem Sample.goesOn_iff {c : Config} {sp : Speed} {a t0 : Nat} {x : Sample} (h0 : t0 = a % 2 ^ c.tw) (ha : a ≤ x.ticks)
    (hlt : x.ticks < a + 2 ^ c.tw) :
    x.goesOn c sp t0 = true ↔
      x.ticks < a + c.bitWindow sp ∧ (x.scl = true ∨ x.ticks < a + c.stretch sp) := by
  have hsince := Sample.since_eq c a t0 x h0 ha hlt
  simp only [Sample.goesOn, hsince, Bool.and_eq_true, Bool.or_eq_true, decide_eq_true_eq,
    Nat.sub_lt_iff_lt_add' ha]

/-- Where the poll of `ReadBit` starts, and what its windows say of its samples (R142, R143). -/
theorem ReadsBit.windows {s : State} {clk : Nat} {polls : List Sample} {last : Sample} (h : ReadsBit s clk polls last)
    (hok : s.cfg.ok s.bbm.speed = true) :
    ∃ start, (readBit s).bbm.t0 = start % 2 ^ s.cfg.tw ∧ s.line.ticks + s.unit < start ∧
      (∀ x ∈ polls, start < x.ticks ∧ x.ticks < start + s.bitWindow ∧ (x.scl = true ∨ x.ticks < start + s.stretch)) ∧
      start < last.ticks ∧
      (start + s.bitWindow ≤ last.ticks ∨ last.scl = false ∧ start + s.stretch ≤ last.ticks) ∧
      last.ticks < start + s.bitWindow + s.cfg.dtMax ∧
      (last.ticks ≤ start + s.cfg.dtMax ∨ ∃ x ∈ polls, last.ticks ≤ x.ticks + s.cfg.dtMax) := by
  obtain ⟨-, -, hturn⟩ := configOk_windows _ _ hok
  obtain ⟨start, hclk, ht0, hafter, hbefore, hpolls, hfollows⟩ := h.stamped
  simp only [bitWindow_eq, stretch_eq] at *
  have hunit := h.clk_after
  refine ⟨start, ht0, by omega, fun x hx => ?_, hafter, ?_, hbefore, hfollows⟩
  · obtain ⟨hgt, hlt⟩ := hpolls x hx
    obtain ⟨-, hor⟩ := (Sample.goesOn_iff ht0 (by omega) (by omega)).1 (h.polls_go_on x hx)
    exact ⟨hgt, hlt, hor⟩
  · have hends : ¬ last.goesOn s.cfg s.bbm.speed (readBit s).bbm.t0 = true := by simp [h.last_ends]
    rw [Sample.goesOn_iff ht0 (by omega) (by omega)] at hends
    by_cases hbit : start + s.cfg.bitWindow s.bbm.speed ≤ last.ticks
    · exact .inl hbit
    · refine .inr ⟨?_, ?_⟩
      · by_contra hc
        exact hends ⟨by omega, .inl (by simpa using hc)⟩
      · by_contra hs
        exact hends ⟨by omega, .inr (by omega)⟩

theorem samplesOf_readBitEvents (start clk : Nat) (polls : List Sample) (last : Sample) :
    samplesOf (readBitEvents start clk polls last) = polls ++ [last] := by
  have heach : ∀ xs : List Sample, samplesOf (xs.map Sample.event) = xs := by
    intro xs
    induction xs with
    | nil => rfl
    | cons x xs ih => exact congrArg (x :: ·) ih
  simp only [samplesOf, readBitEvents, List.filterMap_append] at heach ⊢
  rw [heach]
  simp

/-- Settles O24: the windows of `ReadBit`, whose samples are those of RDBIT. -/
theorem rdbitPollEndsByAWindow : Obligations.RdbitPollEndsByAWindow := by
  intro s hready hphase
  have hexec : exec .rdbit s = .next (rdbitBody (busy s)) := exec_ready .rdbit s hready hphase
  obtain ⟨clk, polls, last, hR⟩ := readBit_spec (busy s) hready.config_ok
  obtain ⟨start, ht0, hstart, hpolls, hafter, hends, hbefore, -⟩ := hR.windows hready.config_ok
  refine ⟨_, _, polls, last, start, hexec, rdbitBody_emits hR, ?_, ht0, hstart, hpolls, hafter, hends, hbefore⟩
  rw [samplesOf, List.filterMap_append]
  exact (List.append_nil _).trans (samplesOf_readBitEvents _ _ _ _)

theorem rdbitBody_responded {s : State} {b : Bool} (h : (readBit (busy s)).bbm.bitacc = b) :
    Responded s (rdbitBody (busy s)) .ok b.toNat := by
  rw [← h]
  exact (respond_responded (by simp) .ok _).of_busy

/-- With the clock held low the last sample comes one read of TIME after T_STRETCH at the latest (R142). -/
theorem ReadsBit.stretched_ends {s : State} {clk : Nat} {polls : List Sample} {last : Sample} (h : ReadsBit s clk polls last)
    (hok : s.cfg.ok s.bbm.speed = true) (hp : PeerStretches s.bitWindow s) :
    ∃ start, (readBit s).bbm.t0 = start % 2 ^ s.cfg.tw ∧ start < last.ticks ∧
      last.ticks < start + s.stretch + s.cfg.dtMax := by
  obtain ⟨hstretch, -, -⟩ := configOk_windows _ _ hok
  obtain ⟨start, ht0, -, hpolls, hafter, -, -, hfollows⟩ := h.windows hok
  refine ⟨start, ht0, hafter, ?_⟩
  simp only [stretch_eq] at *
  rcases hfollows with hfirst | ⟨x, hx, hnext⟩
  · omega
  · obtain ⟨k, hk, hscl, -⟩ := h.levels x hx
    obtain ⟨-, -, hhigh | hlt⟩ := hpolls x hx
    · rw [hscl, hp k hk] at hhigh
      cases hhigh
    · omega

/-- Settles O25. -/
theorem rdbitIdleLineDefault : Obligations.RdbitIdleLineDefault := by
  intro s hready hphase
  have hok : (busy s).cfg.ok (busy s).bbm.speed = true := hready.config_ok
  have hexec : exec .rdbit s = .next (rdbitBody (busy s)) := exec_ready .rdbit s hready hphase
  refine ⟨fun hidle => ⟨_, hexec, rdbitBody_responded (readBit_idle (busy s) hok hidle)⟩, fun hlow => ?_⟩
  obtain ⟨clk, polls, last, hR⟩ := readBit_spec (busy s) hok
  obtain ⟨start, ht0, hafter, hbefore⟩ := hR.stretched_ends hok hlow
  rw [← hR.ticks] at hafter hbefore
  exact ⟨_, start, hexec, rdbitBody_responded (readBit_stretched (busy s) hok hlow), ht0, hafter, hbefore⟩

/-- The `k`-th sample of `ReadBit` shows what the peer draws then, and comes within `k + 1` reads of TIME. -/
theorem ReadsBit.nth_sample {s : State} {clk : Nat} {polls : List Sample} {last : Sample} (h : ReadsBit s clk polls last)
    {k : Nat} {x : Sample} (hx : (polls ++ [last])[k]? = some x) :
    x.scl = (s.line.peers.nth freePeer k).scl ∧ x.sda = (s.line.peers.nth freePeer k).sda ∧
      x.since s.cfg (readBit s).bbm.t0 ≤ (k + 1) * s.cfg.dtMax := by
  have hk : k < polls.length + 1 := by simpa using (List.getElem?_eq_some_iff.1 hx).1
  have hdraw := congrArg (·[k]?) h.draws
  rw [Draws.take_eq] at hdraw
  simp only [List.getElem?_map, hx, List.getElem?_range hk, Option.map_some, Option.some.injEq, Prod.mk.injEq] at hdraw
  exact ⟨hdraw.1, hdraw.2, h.since_le k x hx⟩

/-- A stretch of `n` samples inside T_STRETCH does not end the poll, nor does the sample after it (R142). -/
theorem ReadsBit.polls_through_stretch {s : State} {clk n : Nat} {polls : List Sample} {last : Sample}
    (h : ReadsBit s clk polls last) (hstretch : n * s.cfg.dtMax < s.stretch) (hbit : (n + 1) * s.cfg.dtMax < s.bitWindow)
    (hhigh : (s.line.peers.nth freePeer n).scl = true) : n < polls.length := by
  by_contra hle
  have hlen : polls.length ≤ n := by omega
  obtain ⟨hscl, -, hsince⟩ := h.nth_sample (k := polls.length) (x := last) (by simp)
  have hmono : (polls.length + 1) * s.cfg.dtMax ≤ (n + 1) * s.cfg.dtMax := Nat.mul_le_mul_right _ (by omega)
  simp only [bitWindow_eq, stretch_eq] at *
  have hends := h.last_ends
  simp only [Sample.goesOn, Bool.and_eq_false_iff, Bool.or_eq_false_iff, decide_eq_false_iff_not] at hends
  rcases hends with hwindow | ⟨hlow, htolerated⟩
  · omega
  · rcases Nat.lt_or_eq_of_le hlen with hlt | heq
    · have : (polls.length + 1) * s.cfg.dtMax ≤ n * s.cfg.dtMax := Nat.mul_le_mul_right _ hlt
      omega
    · rw [heq, hhigh] at hscl
      rw [hscl] at hlow
      cases hlow

/-- Settles O26: the poll reaches the sample after the stretch, and that sample is active with data low. -/
theorem rdbitToleratesAShortStretch : Obligations.RdbitToleratesAShortStretch := by
  intro s n hready hphase hstretch hbit _ hpull
  have hexec : exec .rdbit s = .next (rdbitBody (busy s)) := exec_ready .rdbit s hready hphase
  obtain ⟨clk, polls, last, hR⟩ := readBit_spec (busy s) hready.config_ok
  have hpull' : (busy s).line.peers.nth freePeer n = { scl := true, sda := false } := hpull
  have hn := hR.polls_through_stretch hstretch hbit (by rw [hpull'])
  obtain ⟨x, hx⟩ : ∃ x, polls[n]? = some x := ⟨_, List.getElem?_eq_getElem hn⟩
  obtain ⟨hscl, hsda, hsince⟩ := hR.nth_sample (k := n) (x := x) (by rw [List.getElem?_append_left hn, hx])
  rw [hpull'] at hscl hsda
  have hlow : (readBit (busy s)).bbm.bitacc = false := by
    rw [hR.bit, bitOf_eq_false_iff]
    refine ⟨x, List.mem_of_getElem? hx, ?_, hsda⟩
    simp only [Sample.active, hscl, Bool.and_true, decide_eq_true_eq]
    exact Nat.lt_of_le_of_lt hsince hbit
  exact ⟨_, hexec, rdbitBody_responded hlow⟩

end Sys2Proof.Machine
end

section
/-! SUPPORT. The transaction commands, from acceptance to response (R137, R138, R160 to R167, R285): what they show and leave,
who is acknowledged, and how long they last. -/

namespace Sys2Proof.Machine

/-! BEGIN, WRBYTE and END (R161, R163, R167). -/

/-- Settles O27, by the two ends of BEGIN. -/
theorem beginOpensATransaction : Obligations.BeginOpensATransaction := by
  intro s addr dir hready hphase
  have hexec : exec (.begin addr dir) s = .next (beginBody addr dir (busy s)) :=
    exec_ready (.begin addr dir) s hready hphase
  obtain ⟨hscl, hsda, haddr, hdir, hsr, -, -⟩ := addressFrame_bbm (busy s) addr dir
  refine ⟨_, hexec, (beginBody_frame addr dir (busy s)).of_busy, ?_⟩
  rcases beginBody_cases addr dir (busy s) with ⟨hack, he, hshows⟩ | ⟨hnack, he, hshows⟩ <;> rw [he] at hshows ⊢
  · exact ⟨by simpa using haddr, by simpa using hdir, by simpa using hsr,
      .inl ⟨by simpa using hack, (respond_responded (by simp) .ok 0).of_busy, by simp, by simpa using hscl,
        by simpa using hsda, hshows⟩⟩
  · exact ⟨by simpa using haddr, by simpa using hdir, by simpa using hsr,
      .inr ⟨by simpa using hnack, (respond_responded (by simp) .noAck 0).of_busy, by simp, by simp, by simp, hshows⟩⟩

/-- Settles O29, by the two ends of WRBYTE. -/
theorem wrbyteWritesOneByte : Obligations.WrbyteWritesOneByte := by
  intro s b hready hphase
  have hexec : exec (.wrbyte b) s = .next (wrbyteBody b (busy s)) := exec_ready (.wrbyte b) s hready hphase
  obtain ⟨hscl, hsda, hsr, haddr, hdir, -, hkept⟩ := byteFrame_bbm (busy s) b
  refine ⟨_, hexec, (wrbyteBody_frame b (busy s)).of_busy, ?_⟩
  rcases wrbyteBody_cases b (busy s) with ⟨hack, he, hshows⟩ | ⟨hnack, he, hshows⟩ <;> rw [he] at hshows ⊢
  · exact ⟨by simpa using haddr, by simpa using hdir, by simpa using hsr,
      .inl ⟨by simpa using hack, (respond_responded (by simp) .ok 0).of_busy, by simpa using hkept.trans hphase,
        by simpa using hscl, by simpa using hsda, hshows⟩⟩
  · exact ⟨by simpa using haddr, by simpa using hdir, by simpa using hsr,
      .inr ⟨by simpa using hnack, (respond_responded (by simp) .noAck 0).of_busy, by simp, by simp, by simp, hshows⟩⟩

/-- The waits of `StopCond`, one by one (R138). -/
theorem stopCond_times (s : State) (h : s.cfg.ok s.bbm.speed = true) :
    ∃ up, (stopCond s).trace = .line .sda true up :: .line .scl true s.line.ticks :: s.trace ∧
      s.line.ticks + s.unit ≤ up ∧ up + s.unit ≤ (stopCond s).line.ticks := by
  have h1 := wait_spec_ok (driveScl true s) 1 h (by omega) (by omega)
  have h2 := wait_spec_ok (driveSda true (wait 1 (driveScl true s))) 1 (by simpa using h) (by omega) (by omega)
  simp only [unit_eq, driveSda_cfg, driveScl_cfg, wait_cfg, driveSda_bbm_speed, driveScl_bbm_speed, wait_bbm_speed,
    driveSda_line, driveScl_line, Nat.one_mul] at h1 h2
  refine ⟨_, stopCond_trace s, ?_⟩
  simp only [stopCond, unit_eq]
  omega

theorem closeTransaction_bbm (s : State) :
    (closeTransaction s).bbm =
      { s.bbm with phase := .idle, sdaDrv := true, sclDrv := true, t0 := (closeTransaction s).bbm.t0 } := by
  have h := (stopCond_lineOnly (setPhase .stop s)).bbm_eq
  simp only [stopCond_bbm_bitacc, stopCond_bbm_sclDrv, stopCond_bbm_sdaDrv] at h
  simp only [closeTransaction, setPhase] at h ⊢
  rw [h]

/-- Settles O33: the stop sequence, its line writes and the waits between them. -/
theorem endClosesTheTransaction : Obligations.EndClosesTheTransaction := by
  intro s hready hphase
  have hexec : exec .end_ s = .next (endBody (busy s)) := exec_ready .end_ s hready hphase.symm
  obtain ⟨up, htrace, h1, h2⟩ := stopCond_times (setPhase .stop (busy s)) hready.config_ok
  refine ⟨_, up, hexec, (respond_responded (by simp) .ok 0).of_busy, (endBody_frame (busy s)).of_busy,
    closeTransaction_bbm (busy s),
    line_eq (s := busy s) (closeTransaction_pScl _) (closeTransaction_pSda _) (closeTransaction_peers _)
      (closeTransaction_gaps _), ?_, h1, h2⟩
  show TraceEvent.response .ok 0 :: .phase .idle _ :: (stopCond (setPhase .stop (busy s))).trace = _
  rw [htrace]
  rfl

/-! Who is acknowledged (R121). -/

@[simp] theorem writeBits_line_peers (s : State) (is : List Nat) : (writeBits is s).line.peers = s.line.peers := by
  induction is generalizing s with
  | nil => rfl
  | cons i is ih => rw [writeBits, ih, writeBit_line_peers]

/-- The acknowledgment is read in a state that shares configuration, speed and peer with the one before the frame. -/
structure AckFrom (s u : State) : Prop where
  cfg : u.cfg = s.cfg
  speed : u.bbm.speed = s.bbm.speed
  peers : u.line.peers = s.line.peers

theorem addressFrame_ack (addr : DeviceAddress) (dir : Direction) (s : State) :
    ∃ u, addressFrame addr dir s = readBit u ∧ AckFrom s u :=
  ⟨_, rfl, by simp, by simp, by simp⟩

theorem byteFrame_ack (b : Byte) (s : State) : ∃ u, byteFrame b s = readBit u ∧ AckFrom s u :=
  ⟨_, rfl, by simp, by simp, by simp⟩

section
variable {s u : State} (ack : AckFrom s u) (hok : s.cfg.ok s.bbm.speed = true)
include ack

theorem AckFrom.bitWindow : u.bitWindow = s.bitWindow := by simp only [bitWindow_eq, ack.cfg, ack.speed]

include hok

theorem AckFrom.pulled (hd : s.cfg.dtMax < s.bitWindow) (hp : PeerPullsData s.bitWindow s) :
    (readBit u).bbm.bitacc = false := by
  refine readBit_pulled u (by rw [ack.cfg, ack.speed]; exact hok) (by rw [ack.cfg, ack.bitWindow]; exact hd) fun k hk => ?_
  rw [ack.peers]
  exact hp k (ack.bitWindow ▸ hk)

theorem AckFrom.released (hp : PeerIdle s.bitWindow s ∨ PeerStretches s.bitWindow s) : (readBit u).bbm.bitacc = true := by
  have hok' : u.cfg.ok u.bbm.speed = true := by rw [ack.cfg, ack.speed]; exact hok
  rcases hp with hidle | hlow
  · refine readBit_idle u hok' fun k hk => ?_
    rw [ack.peers]
    exact hidle k (ack.bitWindow ▸ hk)
  · refine readBit_stretched u hok' fun k hk => ?_
    rw [ack.peers]
    exact hlow k (ack.bitWindow ▸ hk)

end

/-- A command whose acknowledgment, read from `u`, gives OK in phase DATA, or NO_ACK in phase IDLE. -/
structure AnswersAck (i : Instr) (s u : State) : Prop where
  ack : AckFrom s u
  low : (readBit u).bbm.bitacc = false → ∃ t, exec i s = .next t ∧ Responded s t .ok 0 ∧ t.bbm.phase = .data
  high : (readBit u).bbm.bitacc = true → ∃ t, exec i s = .next t ∧ Responded s t .noAck 0 ∧ t.bbm.phase = .idle

theorem begin_answersAck (s : State) (addr : DeviceAddress) (dir : Direction) (hready : Ready s) (hphase : s.bbm.phase = .idle) :
    ∃ u, AnswersAck (.begin addr dir) s u := by
  have hexec : exec (.begin addr dir) s = .next (beginBody addr dir (busy s)) :=
    exec_ready (.begin addr dir) s hready hphase
  obtain ⟨u, hu, ack⟩ := addressFrame_ack addr dir (busy s)
  refine ⟨u, ⟨ack.cfg, ack.speed, ack.peers⟩, fun h => ⟨_, hexec, ?_⟩, fun h => ⟨_, hexec, ?_⟩⟩ <;>
    rcases beginBody_cases addr dir (busy s) with ⟨hb, he, -⟩ | ⟨hb, he, -⟩ <;> rw [hu, h] at hb <;> cases hb <;> rw [he]
  · exact ⟨(respond_responded (by simp) .ok 0).of_busy, by simp⟩
  · exact ⟨(respond_responded (by simp) .noAck 0).of_busy, by simp⟩

theorem wrbyte_answersAck (s : State) (b : Byte) (hready : Ready s) (hphase : s.bbm.phase = .data) :
    ∃ u, AnswersAck (.wrbyte b) s u := by
  have hexec : exec (.wrbyte b) s = .next (wrbyteBody b (busy s)) := exec_ready (.wrbyte b) s hready hphase
  have hkept := (byteFrame_bbm (busy s) b).2.2.2.2.2.2
  obtain ⟨u, hu, ack⟩ := byteFrame_ack b (busy s)
  refine ⟨u, ⟨ack.cfg, ack.speed, ack.peers⟩, fun h => ⟨_, hexec, ?_⟩, fun h => ⟨_, hexec, ?_⟩⟩ <;>
    rcases wrbyteBody_cases b (busy s) with ⟨hb, he, -⟩ | ⟨hb, he, -⟩ <;> rw [hu, h] at hb <;> cases hb <;> rw [he]
  · exact ⟨(respond_responded (by simp) .ok 0).of_busy, by simpa using hkept.trans hphase⟩
  · exact ⟨(respond_responded (by simp) .noAck 0).of_busy, by simp⟩

/-- Settles O28: the peer decides the bit read, and the bit the answer. -/
theorem acknowledgmentDecidesTheAnswer : Obligations.AcknowledgmentDecidesTheAnswer := by
  intro i s hready hi
  obtain ⟨u, hu⟩ : ∃ u, AnswersAck i s u := by
    rcases hi with ⟨⟨addr, dir, rfl⟩, hphase⟩ | ⟨⟨b, rfl⟩, hphase⟩
    · exact begin_answersAck s addr dir hready hphase
    · exact wrbyte_answersAck s b hready hphase
  exact ⟨fun hp hd => hu.low (hu.ack.pulled hready.config_ok hd hp), fun hp => hu.high (hu.ack.released hready.config_ok hp)⟩

/-! How long they last (R285). -/

theorem Timed.lastsAtLeast {n k : Nat} {s t : State} {events : List TraceEvent} (h : Timed n k s t events) :
    LastsAtLeast n k s t := by
  have hanchor := h.anchored s.line.ticks 0
  refine ⟨events, h.emits, ?_, ?_, ?_⟩ <;> rw [hanchor]
  · exact h.lasts
  · exact h.polls_ge
  · exact h.polls_le

/-- The end of BEGIN and of WRBYTE after `n` units and a poll: at once, or with the stop sequence, two units later. -/
theorem Timed.acknowledged {n k : Nat} {s u : State} {events : List TraceEvent} (h : Timed n k s u events)
    (hok : s.cfg.ok s.bbm.speed = true) : ∃ es, Timed (n + 2) k s (respond .noAck 0 (closeTransaction u)) es := by
  obtain ⟨e1, h1⟩ := closeTransaction_timed u (by rw [h.cfg, h.speed]; exact hok)
  obtain ⟨e2, h2⟩ := respond_timed .noAck 0 (closeTransaction u)
  exact ⟨_, (h.trans h1).trans h2⟩

theorem beginBody_timed (addr : DeviceAddress) (dir : Direction) (s : State) (hok : s.cfg.ok s.bbm.speed = true) :
    ∃ es, Timed (if (beginBody addr dir s).bbm.bitacc then 37 else 35) 1 s (beginBody addr dir s) es := by
  obtain ⟨e0, h0⟩ := addressFrame_timed addr dir s hok
  rcases beginBody_cases addr dir s with ⟨hack, he, -⟩ | ⟨hnack, he, -⟩ <;> rw [he]
  · rw [if_neg (by simp [hack])]
    obtain ⟨e1, h1⟩ := setPhase_timed .data (addressFrame addr dir s)
    obtain ⟨e2, h2⟩ := respond_timed .ok 0 (setPhase .data (addressFrame addr dir s))
    exact ⟨_, (h0.trans h1).trans h2⟩
  · rw [if_pos (by simp [hnack])]
    exact h0.acknowledged hok

theorem wrbyteBody_timed (b : Byte) (s : State) (hok : s.cfg.ok s.bbm.speed = true) :
    ∃ es, Timed (if (wrbyteBody b s).bbm.bitacc then 35 else 33) 1 s (wrbyteBody b s) es := by
  obtain ⟨e0, h0⟩ := byteFrame_timed b s hok
  rcases wrbyteBody_cases b s with ⟨hack, he, -⟩ | ⟨hnack, he, -⟩ <;> rw [he]
  · rw [if_neg (by simp [hack])]
    obtain ⟨e1, h1⟩ := respond_timed .ok 0 (byteFrame b s)
    exact ⟨_, h0.trans h1⟩
  · rw [if_pos (by simp [hnack])]
    exact h0.acknowledged hok

theorem rdbyteBody_timed (wantAck : Bool) (s : State) (hok : s.cfg.ok s.bbm.speed = true) :
    ∃ es, Timed (if wantAck then 12 else 8) 8 s (rdbyteBody wantAck s) es := by
  obtain ⟨u, hu⟩ : ∃ u, u = readBits [7, 6, 5, 4, 3, 2, 1, 0] s := ⟨_, rfl⟩
  obtain ⟨e0, h0⟩ := readBits_timed [7, 6, 5, 4, 3, 2, 1, 0] s hok
  simp only [rdbyteBody, ← hu] at h0 ⊢
  cases wantAck with
  | false =>
    obtain ⟨e1, h1⟩ := respond_timed .ok u.bbm.sr.toNat u
    exact ⟨_, h0.trans h1⟩
  | true =>
    obtain ⟨e1, h1⟩ := writeBit_timed false u (by rw [h0.cfg, h0.speed]; exact hok)
    obtain ⟨e2, h2⟩ := respond_timed .ok u.bbm.sr.toNat (writeBit false u)
    exact ⟨_, (h0.trans h1).trans h2⟩

/-- A timed run from acceptance is one from the state before. -/
theorem LastsAtLeast.of_busy {n k : Nat} {s t : State} (h : LastsAtLeast n k (busy s) t) : LastsAtLeast n k s t := h

/-- What an accepted command leaves is what its body does. -/
theorem exec_eq_body (i : Instr) (s t : State) (h : Ready s) (ha : allowedNow s i) (ht : exec i s = .next t) :
    t = bodyOf i (busy s) := by
  rw [exec_ready i s h ha] at ht
  cases ht
  rfl

/-- Settles O36. -/
theorem beginWrbyteAndRdbyteDurations : Obligations.BeginWrbyteAndRdbyteDurations := by
  intro s t hready
  have hok : (busy s).cfg.ok (busy s).bbm.speed = true := hready.config_ok
  refine ⟨fun addr dir hphase ht => ?_, fun b hphase ht => ?_, fun wantAck hphase ht => ?_⟩
  · have hbody : t = beginBody addr dir (busy s) := exec_eq_body (.begin addr dir) s t hready hphase ht
    rw [hbody]
    obtain ⟨es, h⟩ := beginBody_timed addr dir (busy s) hok
    exact h.lastsAtLeast.of_busy
  · have hbody : t = wrbyteBody b (busy s) := exec_eq_body (.wrbyte b) s t hready hphase ht
    rw [hbody]
    obtain ⟨es, h⟩ := wrbyteBody_timed b (busy s) hok
    exact h.lastsAtLeast.of_busy
  · have hbody : t = rdbyteBody wantAck (busy s) := exec_eq_body (.rdbyte wantAck) s t hready hphase ht
    rw [hbody]
    obtain ⟨es, h⟩ := rdbyteBody_timed wantAck (busy s) hok
    exact h.lastsAtLeast.of_busy

end Sys2Proof.Machine
end

section
/-! SUPPORT. What every command leaves alone and shows, whichever way it ends (R41, R48, R160, R164, R212, R236). -/

namespace Sys2Proof.Machine

/-! The frames of the two units. -/

theorem bodyOf_bbmFrame (i : Instr) (s : State) (h : isBbm i = true) : BbmFrame s (bodyOf i s) := by
  cases i with
  | begin addr dir => exact beginBody_frame addr dir s
  | wrbit v => exact wrbitBody_frame v s
  | rdbit => exact rdbitBody_frame s
  | wrbyte b => exact wrbyteBody_frame b s
  | rdbyte wantAck => exact rdbyteBody_frame wantAck s
  | end_ => exact endBody_frame s
  | loginit => cases h
  | loglast => cases h
  | logappend din => cases h

theorem bodyOf_alsFrame (i : Instr) (s : State) (h : isBbm i = false) : AlsFrame s (bodyOf i s) := by
  cases i with
  | loginit => exact (loginitBody_frame s).1
  | loglast => exact (loglastBody_frame s).1
  | logappend din => exact logappendBody_alsFrame din s
  | _ => cases h

theorem AlsFrame.of_busy {s t : State} (h : AlsFrame (busy s) t) : AlsFrame s t := ⟨h.cfg, h.bbm, h.line, h.host⟩

theorem refuse_bbmFrame (st : Status) (s : State) : BbmFrame s (refuse st s) := by constructor <;> rfl

/-- Settles O37: a refusal meets both frames, a body that of its unit. -/
theorem unitsLeaveEachOtherAlone : Obligations.UnitsLeaveEachOtherAlone := by
  intro i s t h
  obtain ⟨-, ⟨-, rfl⟩ | ⟨-, -, rfl⟩ | ⟨-, -, rfl⟩⟩ := exec_cases i s t h
  · exact ⟨fun _ => refuse_bbmFrame _ s, fun _ => respond_alsFrame _ _ s⟩
  · exact ⟨fun _ => refuse_bbmFrame _ s, fun _ => respond_alsFrame _ _ s⟩
  · exact ⟨fun hb => (bodyOf_bbmFrame i (busy s) hb).of_busy, fun hb => (bodyOf_alsFrame i (busy s) hb).of_busy⟩

/-! The phases (R160) and the data line (R48 (c)). -/

/-- From the phases a command may be accepted in, its phases follow the table, and the last one stands. -/
def PhasesMove (s t : State) : Prop :=
  ∃ lines phases requests answer, Shows s t lines phases requests answer ∧ phasesFollow s.bbm.phase phases = true ∧
    (s.bbm.phase :: phases).getLast? = some t.bbm.phase

theorem PhasesMove.of_kept {s t : State} {lines : List (Line × Bool)} {requests : List StoreRequest}
    {answer : List (Status × Nat)} (h : Shows s t lines [] requests answer) (hp : t.bbm.phase = s.bbm.phase) :
    PhasesMove s t :=
  ⟨_, _, _, _, h, rfl, by rw [hp]; rfl⟩

theorem beginBody_phases (addr : DeviceAddress) (dir : Direction) (s : State) (h : s.bbm.phase = .idle) :
    PhasesMove s (beginBody addr dir s) := by
  rcases beginBody_cases addr dir s with ⟨-, he, hshows⟩ | ⟨-, he, hshows⟩
  · exact ⟨_, _, _, _, hshows, by rw [h]; rfl, by rw [h, he]; rfl⟩
  · exact ⟨_, _, _, _, hshows, by rw [h]; rfl, by rw [h, he]; rfl⟩

theorem wrbyteBody_phases (b : Byte) (s : State) (h : s.bbm.phase = .data) : PhasesMove s (wrbyteBody b s) := by
  have hkept := (byteFrame_bbm s b).2.2.2.2.2.2
  rcases wrbyteBody_cases b s with ⟨-, he, hshows⟩ | ⟨-, he, hshows⟩
  · exact PhasesMove.of_kept hshows (by rw [he]; exact hkept)
  · exact ⟨_, _, _, _, hshows, by rw [h]; rfl, by rw [h, he]; rfl⟩

theorem rdbyteBody_bbm (wantAck : Bool) (s : State) :
    (rdbyteBody wantAck s).bbm.sclDrv = false ∧ (rdbyteBody wantAck s).bbm.sdaDrv = false ∧
      (rdbyteBody wantAck s).bbm.phase = s.bbm.phase ∧ (rdbyteBody wantAck s).bbm.txnAddr = s.bbm.txnAddr ∧
      (rdbyteBody wantAck s).bbm.txnDir = s.bbm.txnDir ∧
      (rdbyteBody wantAck s).bbm.sr = (readBits [7, 6, 5, 4, 3, 2, 1, 0] s).bbm.sr := by
  have frame := readBits_shiftsIn [7, 6, 5, 4, 3, 2, 1, 0] s
  have lines := readBits_lines 7 [6, 5, 4, 3, 2, 1, 0] s
  cases wantAck <;> simp [rdbyteBody, frame.phase, frame.txnAddr, frame.txnDir, lines]

theorem endBody_phases (s : State) (h : s.bbm.phase = .idle ∨ s.bbm.phase = .data) : PhasesMove s (endBody s) :=
  ⟨_, _, _, _, endBody_shows s, by rcases h with h | h <;> rw [h] <;> rfl, rfl⟩

/-- What each way a scan can end shows (R206, R241). -/
theorem ScanEnds.shows {result s1 : State} (h : ScanEnds result s1) : ∃ answer, Shows s1 result [] [] [] answer := by
  rcases h with ⟨offset, seq, rfl, -⟩ | ⟨rfl, -⟩ | ⟨rfl, -⟩
  · exact ⟨_, finishScan_shows _ _ _⟩
  · exact ⟨_, raise_shows _ _⟩
  · exact ⟨_, Shows.of_trace_eq rfl⟩

/-- An ALS command shows requests and its response, and no line or phase (R236). -/
theorem bodyOf_als_shows (i : Instr) (s : State) (h : isBbm i = false) (hN : 1 ≤ s.cfg.nSlots) :
    ∃ requests answer, Shows s (bodyOf i s) [] [] requests answer := by
  cases i with
  | loginit =>
    rw [bodyOf]
    rcases loginitBody_cases s hN with ⟨-, he⟩ | ⟨-, n, s1, -, hs, hends⟩
    · rw [he]
      exact ⟨_, _, (setLogValid_shows false s).trans (raise_shows _ _)⟩
    · obtain ⟨answer, ha⟩ := hends.shows
      exact ⟨_, _, ((setLogValid_shows false s).trans hs.shows).trans ha⟩
  | loglast =>
    rw [bodyOf]
    rcases loglastBody_cases s with ⟨-, he⟩ | ⟨-, s1, hs, ⟨data, he, -⟩ | ⟨he, -⟩ | ⟨he, -⟩⟩ <;> rw [he]
    · exact ⟨_, _, respond_shows _ _ _⟩
    · exact ⟨_, _, hs.shows.trans (respond_shows _ _ _)⟩
    · exact ⟨_, _, hs.shows.trans (raise_shows _ _)⟩
    · exact ⟨_, _, hs.shows⟩
  | logappend din =>
    obtain ⟨requests, answer, hs, -⟩ := logappendBody_requests din s
    exact ⟨_, _, hs⟩
  | _ => cases h

theorem bodyOf_phases (i : Instr) (s : State) (h : allowedNow s i) (hN : 1 ≤ s.cfg.nSlots) : PhasesMove s (bodyOf i s) := by
  have als (hb : isBbm i = false) : PhasesMove s (bodyOf i s) := by
    obtain ⟨requests, answer, hs⟩ := bodyOf_als_shows i s hb hN
    exact PhasesMove.of_kept hs (congrArg Bbm.phase (bodyOf_alsFrame i s hb).bbm)
  cases i with
  | begin addr dir => exact beginBody_phases addr dir s h
  | wrbit v => exact PhasesMove.of_kept (wrbitBody_shows v s) (writeBit_bbm_phase s v)
  | rdbit => exact PhasesMove.of_kept (rdbitBody_shows s) (readBit_bbm_phase s)
  | wrbyte b => exact wrbyteBody_phases b s h
  | rdbyte wantAck => exact PhasesMove.of_kept (rdbyteBody_shows wantAck s) (rdbyteBody_bbm wantAck s).2.2.1
  | end_ => exact endBody_phases s h
  | loginit => exact als rfl
  | loglast => exact als rfl
  | logappend din => exact als rfl

/-- Settles O34. -/
theorem phaseFollowsTheTable : Obligations.PhaseFollowsTheTable := by
  intro i s t h
  suffices hm : PhasesMove s t by
    obtain ⟨lines, phases, requests, answer, ⟨events, he, -, hp, -⟩, hfollow, hlast⟩ := hm
    exact ⟨events, he, by rw [hp]; exact hfollow, by rw [hp]; exact hlast⟩
  obtain ⟨hok, ⟨-, rfl⟩ | ⟨-, -, rfl⟩ | ⟨-, ha, rfl⟩⟩ := exec_cases i s t h
  · exact PhasesMove.of_kept (respond_shows .halted 0 s) rfl
  · exact PhasesMove.of_kept (respond_shows .illegal 0 s) rfl
  · exact bodyOf_phases i (busy s) ((allowedNow_busy s i).2 ha) (configOk_nSlots _ _ hok)

/-- What a command leaves on the data line in phase DATA (R48 (c)). -/
theorem bodyOf_data_line (i : Instr) (s : State) (h : (bodyOf i s).bbm.phase = .data) :
    (bodyOf i s).bbm.sdaDrv = false ∨ i = .wrbit true ∨ (bodyOf i s).bbm = s.bbm := by
  have als (hb : isBbm i = false) : (bodyOf i s).bbm = s.bbm := (bodyOf_alsFrame i s hb).bbm
  cases i with
  | begin addr dir =>
    obtain ⟨-, hsda, -⟩ := addressFrame_bbm s addr dir
    rw [bodyOf] at h ⊢
    rcases beginBody_cases addr dir s with ⟨-, he, -⟩ | ⟨-, he, -⟩ <;> rw [he] at h ⊢
    · exact .inl (by simpa using hsda)
    · simp at h
  | wrbit v =>
    cases v with
    | true => exact .inr (.inl rfl)
    | false => exact .inl (writeBit_bbm_sdaDrv s false)
  | rdbit => exact .inl rfl
  | wrbyte b =>
    obtain ⟨-, hsda, -⟩ := byteFrame_bbm s b
    rw [bodyOf] at h ⊢
    rcases wrbyteBody_cases b s with ⟨-, he, -⟩ | ⟨-, he, -⟩ <;> rw [he] at h ⊢
    · exact .inl (by simpa using hsda)
    · simp at h
  | rdbyte wantAck => exact .inl (rdbyteBody_bbm wantAck s).2.1
  | end_ => simp [bodyOf, endBody] at h
  | loginit => exact .inr (.inr (als rfl))
  | loglast => exact .inr (.inr (als rfl))
  | logappend din => exact .inr (.inr (als rfl))

/-- Settles O35. -/
theorem dataLineLowInDataPhase : Obligations.DataLineLowInDataPhase := by
  intro i s t h hphase
  obtain ⟨-, ⟨-, rfl⟩ | ⟨-, -, rfl⟩ | ⟨-, -, rfl⟩⟩ := exec_cases i s t h
  · exact .inr (.inr rfl)
  · exact .inr (.inr rfl)
  · exact bodyOf_data_line i (busy s) hphase

/-! The response (R41, R164, R212). -/

/-- NO_ACK is the answer of these two alone (R164). -/
def mayNack : Instr → Prop
  | .begin _ _ => True
  | .wrbyte _ => True
  | _ => False

/-- The three ways a command can end: a response, OK or NO_ACK; a fatal error of unit ALS; or not at all, waiting for a store
that never answers (R41, R236, U7). -/
inductive Ends (i : Instr) (s t : State) (answer : List (Status × Nat)) : Prop where
  | responds (st : Status) (d : Nat) (hst : st = .ok ∨ st = .noAck ∧ mayNack i) (ha : answer = [(st, d)])
      (ht : Responded s t st d)
  | traps (e : FatalError) (hi : isBbm i = false) (ha : answer = [(e.status, 0)]) (ht : Trapped t e)
  | waits (hi : isBbm i = false) (ha : answer = []) (hx : t.ctl = s.ctl) (hp : t.store.pending ≠ none)

theorem raise_trapped (e : FatalError) (s : State) : Trapped (raise e s) e := ⟨rfl, rfl⟩

theorem ScanEnds.ends {s result s1 : State} (h : ScanEnds result s1) (hx : s1.ctl = s.ctl) :
    ∃ answer, Shows s1 result [] [] [] answer ∧ Ends .loginit s result answer := by
  rcases h with ⟨offset, seq, rfl, -⟩ | ⟨rfl, -⟩ | ⟨rfl, hp⟩
  · exact ⟨_, finishScan_shows _ _ _, .responds .ok 0 (.inl rfl) rfl (respond_responded hx .ok 0)⟩
  · exact ⟨_, raise_shows _ _, .traps .busError rfl rfl (raise_trapped _ _)⟩
  · exact ⟨_, Shows.of_trace_eq rfl, .waits rfl rfl hx hp⟩

theorem loginitBody_ends (s : State) (hN : 1 ≤ s.cfg.nSlots) :
    ∃ requests answer, Shows s (loginitBody s) [] [] requests answer ∧ Ends .loginit s (loginitBody s) answer := by
  have hclear := setLogValid_shows false s
  rcases loginitBody_cases s hN with ⟨-, he⟩ | ⟨-, n, s1, -, hs, hends⟩
  · rw [he]
    exact ⟨_, _, hclear.trans (raise_shows _ _), .traps .invariantViolation rfl rfl (raise_trapped _ _)⟩
  · obtain ⟨answer, ha, hend⟩ := hends.ends (s := s) hs.only.ctl
    exact ⟨_, answer, (hclear.trans hs.shows).trans ha, hend⟩

theorem loglastBody_ends (s : State) :
    ∃ requests answer, Shows s (loglastBody s) [] [] requests answer ∧ Ends .loglast s (loglastBody s) answer := by
  rcases loglastBody_cases s with ⟨-, he⟩ | ⟨-, s1, hs, ⟨data, he, -⟩ | ⟨he, -⟩ | ⟨he, hp⟩⟩ <;> rw [he]
  · exact ⟨_, _, respond_shows _ _ _, .responds .ok 0 (.inl rfl) rfl (respond_responded rfl _ _)⟩
  · exact ⟨_, _, hs.shows.trans (respond_shows _ _ _),
      .responds .ok data (.inl rfl) rfl (respond_responded hs.only.ctl _ _)⟩
  · exact ⟨_, _, hs.shows.trans (raise_shows _ _), .traps .busError rfl rfl (raise_trapped _ _)⟩
  · exact ⟨_, _, hs.shows, .waits rfl rfl hs.only.ctl hp⟩

theorem logappendBody_ends (din : Nat) (s : State) (hN : 1 ≤ s.cfg.nSlots) :
    ∃ requests answer, Shows s (logappendBody din s) [] [] requests answer ∧
      Ends (.logappend din) s (logappendBody din s) answer := by
  obtain ⟨s1, ha, hends⟩ := logappendBody_cases din s hN
  obtain ⟨requests, hs⟩ := ha.shows
  rcases hends with ⟨he, -⟩ | ⟨he, -⟩ | ⟨he, hp⟩ <;> rw [he]
  · exact ⟨_, _, hs.trans (finishAppend_shows _), .responds .ok _ (.inl rfl) rfl (respond_responded ha.ctl _ _)⟩
  · exact ⟨_, _, hs.trans (raise_shows _ _), .traps .busError rfl rfl (raise_trapped _ _)⟩
  · exact ⟨_, _, hs, .waits rfl rfl ha.ctl hp⟩

theorem rdbyteBody_responded (wantAck : Bool) (s : State) :
    Responded s (rdbyteBody wantAck s) .ok (readBits [7, 6, 5, 4, 3, 2, 1, 0] s).bbm.sr.toNat := by
  obtain ⟨u, hu⟩ : ∃ u, u = readBits [7, 6, 5, 4, 3, 2, 1, 0] s := ⟨_, rfl⟩
  have hx := (readBits_shiftsIn [7, 6, 5, 4, 3, 2, 1, 0] s).ctl
  simp only [rdbyteBody, ← hu] at hx ⊢
  cases wantAck with
  | false => exact respond_responded hx _ _
  | true => exact respond_responded ((writeBit_ctl u false).trans hx) _ _

/-- Every command ends in one of the three ways. -/
theorem bodyOf_ends (i : Instr) (s : State) (hN : 1 ≤ s.cfg.nSlots) :
    ∃ lines phases requests answer, Shows s (bodyOf i s) lines phases requests answer ∧ Ends i s (bodyOf i s) answer := by
  cases i with
  | begin addr dir =>
    rw [bodyOf]
    rcases beginBody_cases addr dir s with ⟨-, he, hs⟩ | ⟨-, he, hs⟩ <;> rw [he] at hs ⊢
    · exact ⟨_, _, _, _, hs, .responds .ok 0 (.inl rfl) rfl (respond_responded (by simp) _ _)⟩
    · exact ⟨_, _, _, _, hs, .responds .noAck 0 (.inr ⟨rfl, trivial⟩) rfl (respond_responded (by simp) _ _)⟩
  | wrbit v =>
    exact ⟨_, _, _, _, wrbitBody_shows v s, .responds .ok 0 (.inl rfl) rfl (respond_responded (by simp) _ _)⟩
  | rdbit => exact ⟨_, _, _, _, rdbitBody_shows s, .responds .ok _ (.inl rfl) rfl (respond_responded (by simp) _ _)⟩
  | wrbyte b =>
    rw [bodyOf]
    rcases wrbyteBody_cases b s with ⟨-, he, hs⟩ | ⟨-, he, hs⟩ <;> rw [he] at hs ⊢
    · exact ⟨_, _, _, _, hs, .responds .ok 0 (.inl rfl) rfl (respond_responded (by simp) _ _)⟩
    · exact ⟨_, _, _, _, hs, .responds .noAck 0 (.inr ⟨rfl, trivial⟩) rfl (respond_responded (by simp) _ _)⟩
  | rdbyte wantAck =>
    exact ⟨_, _, _, _, rdbyteBody_shows wantAck s, .responds .ok _ (.inl rfl) rfl (rdbyteBody_responded wantAck s)⟩
  | end_ => exact ⟨_, _, _, _, endBody_shows s, .responds .ok 0 (.inl rfl) rfl (respond_responded (by simp) _ _)⟩
  | loginit => exact ⟨_, _, loginitBody_ends s hN⟩
  | loglast => exact ⟨_, _, loglastBody_ends s⟩
  | logappend din => exact ⟨_, _, logappendBody_ends din s hN⟩

/-- What every meaning shows with a next state: a refusal, or one of the three ends of a command. -/
theorem exec_ends {i : Instr} {s t : State} (h : exec i s = .next t) :
    ∃ events, Emits s t events ∧
      ((∃ st, (st = .halted ∨ st = .illegal) ∧ responsesOf events = [(st, 0)] ∧ t = refuse st s) ∨
        Ends i (busy s) t (responsesOf events)) := by
  obtain ⟨hok, ⟨-, rfl⟩ | ⟨-, -, rfl⟩ | ⟨-, -, rfl⟩⟩ := exec_cases i s t h
  · exact ⟨[.response .halted 0], rfl, .inl ⟨_, .inl rfl, rfl, rfl⟩⟩
  · exact ⟨[.response .illegal 0], rfl, .inl ⟨_, .inr rfl, rfl, rfl⟩⟩
  · obtain ⟨lines, phases, requests, answer, ⟨events, he, -, -, -, rfl⟩, hends⟩ :=
      bodyOf_ends i (busy s) (configOk_nSlots _ _ hok)
    exact ⟨events, he, .inr hends⟩

theorem Emits.unique {s t : State} {events events' : List TraceEvent} (h : Emits s t events) (h' : Emits s t events') :
    events = events' :=
  (freshEvents_of_emits h).symm.trans (freshEvents_of_emits h')

/-- Settles O30, by the ways a command can end. -/
theorem statusesNeverGiven : Obligations.StatusesNeverGiven := by
  intro i s t events st d h he hmem
  obtain ⟨events', he', hend⟩ := exec_ends h
  rw [he.unique he'] at hmem
  rcases hend with ⟨st', hst, hr, -⟩ | ⟨st', d', hst, hr, ht⟩ | ⟨e, -, hr, -⟩ | ⟨-, hr, -⟩ <;> rw [hr] at hmem
  · obtain ⟨rfl, -⟩ := Prod.mk.inj (List.mem_singleton.1 hmem)
    rcases hst with rfl | rfl <;> exact ⟨nofun, nofun⟩
  · obtain ⟨rfl, rfl⟩ := Prod.mk.inj (List.mem_singleton.1 hmem)
    refine ⟨by rcases hst with rfl | ⟨rfl, -⟩ <;> nofun, fun hn => ?_⟩
    obtain ⟨-, hi⟩ := hst.resolve_left (by rw [hn]; nofun)
    refine ⟨?_, by rw [ht.1]; rfl⟩
    cases i with
    | begin addr dir => exact .inl ⟨addr, dir, rfl⟩
    | wrbyte b => exact .inr ⟨b, rfl⟩
    | _ => exact hi.elim
  · obtain ⟨rfl, -⟩ := Prod.mk.inj (List.mem_singleton.1 hmem)
    cases e <;> exact ⟨nofun, nofun⟩
  · cases hmem

/-- Settles O50, by the ways a command can end. -/
theorem oneResponsePerCommand : Obligations.OneResponsePerCommand := by
  intro i s t h
  obtain ⟨events, he, hend⟩ := exec_ends h
  refine ⟨events, he, ?_⟩
  rcases hend with ⟨st, -, hr, rfl⟩ | ⟨st, d, -, hr, hctl, -⟩ | ⟨e, -, hr, hctl, -⟩ | ⟨hi, hr, hctl, hp⟩ <;> rw [hr]
  · exact .inl ⟨rfl, rfl, rfl⟩
  · rw [hctl]
    exact .inl ⟨rfl, rfl, rfl⟩
  · rw [hctl]
    exact .inl ⟨rfl, rfl, rfl⟩
  · rw [hctl]
    exact .inr ⟨rfl, rfl, hp, hi⟩

end Sys2Proof.Machine
end

section
/-! SUPPORT. Changes of the state that the sequences on the lines do not notice: what commutes with time, with a bit read and
with a whole BBM command, and what an ALS command carries through. -/

namespace Sys2Proof.Machine

/-- A change of the state that commutes with reading the time and with writing the lines, and that no wait notices. -/
structure TimeSym (φ : State → State) : Prop where
  now : ∀ s, now (φ s) = φ (now s)
  stamp : ∀ s, stamp (φ s) = φ (stamp s)
  since : ∀ s, sinceStamp (φ s) = sinceStamp s
  unit : ∀ s, (φ s).unit = s.unit
  scl : ∀ v s, driveScl v (φ s) = φ (driveScl v s)
  sda : ∀ v s, driveSda v (φ s) = φ (driveSda v s)

namespace TimeSym
variable {φ : State → State} (h : TimeSym φ)
include h

theorem waitPoll (fuel limit : Nat) (s : State) : waitPoll fuel limit (φ s) = φ (waitPoll fuel limit s) := by
  induction fuel generalizing s with
  | zero => rfl
  | succ fuel ih =>
    simp only [Machine.waitPoll, h.now, h.since, ih]
    split <;> rfl

theorem wait (n : Nat) (s : State) : wait n (φ s) = φ (wait n s) := by
  rw [Machine.wait, Machine.wait, h.unit, h.now, h.stamp, h.waitPoll]

theorem writeBit (v : Bool) (s : State) : writeBit v (φ s) = φ (writeBit v s) := by
  simp only [Machine.writeBit, h.wait, h.scl, h.sda]

theorem startCond (s : State) : startCond (φ s) = φ (startCond s) := by
  simp only [Machine.startCond, h.wait, h.scl, h.sda]

theorem stopCond (s : State) : stopCond (φ s) = φ (stopCond s) := by
  simp only [Machine.stopCond, h.wait, h.scl, h.sda]

/-- Shifting out reads SR, and nothing else of the state (R21). -/
theorem writeBits (hsr : ∀ s, (φ s).bbm.sr = s.bbm.sr) (is : List Nat) (s : State) :
    writeBits is (φ s) = φ (writeBits is s) := by
  induction is generalizing s with
  | nil => rfl
  | cons i is ih => simp only [Machine.writeBits, hsr, h.writeBit, ih]

end TimeSym

/-- A change that commutes with a whole bit read too. -/
structure LineSym (φ : State → State) : Prop extends TimeSym φ where
  sample : ∀ s, sample (φ s) = φ (sample s)
  setBitacc : ∀ v s, setBitacc v (φ s) = φ (setBitacc v s)
  sclLevel : ∀ s, sclLevel (φ s) = sclLevel s
  sdaLevel : ∀ s, sdaLevel (φ s) = sdaLevel s
  bitWindow : ∀ s, (φ s).bitWindow = s.bitWindow
  stretch : ∀ s, (φ s).stretch = s.stretch

namespace LineSym
variable {φ : State → State} (h : LineSym φ)
include h

theorem readPoll (fuel : Nat) (s : State) : readPoll fuel (φ s) = φ (readPoll fuel s) := by
  induction fuel generalizing s with
  | zero => rfl
  | succ fuel ih =>
    have hgo : (if Machine.sdaLevel (Machine.sample s) then φ (Machine.sample s)
        else φ (Machine.setBitacc false (Machine.sample s))) =
        φ (if Machine.sdaLevel (Machine.sample s) then Machine.sample s
          else Machine.setBitacc false (Machine.sample s)) := by split <;> rfl
    simp only [Machine.readPoll, h.sample, h.bitWindow, h.since, h.sclLevel, h.sdaLevel, h.setBitacc, h.stretch, hgo, ih]
    split
    · rfl
    · split
      · rfl
      · split <;> rfl

theorem readBitOpen (s : State) : readBitOpen (φ s) = φ (readBitOpen s) := by
  simp only [Machine.readBitOpen, h.scl, h.sda, h.wait, h.now, h.stamp, h.setBitacc]

theorem readBit (s : State) : readBit (φ s) = φ (readBit s) := by
  simp only [Machine.readBit, h.bitWindow, h.readBitOpen, h.readPoll, h.scl, h.sda]

theorem afterReads (n : Nat) (s : State) : afterReads n (φ s) = φ (afterReads n s) := by
  induction n with
  | zero => rfl
  | succ n ih => simp only [Machine.afterReads, ih, h.readBit]

end LineSym

/-- A change that commutes with every BBM command. -/
structure BusSym (φ : State → State) : Prop extends LineSym φ where
  sr : ∀ s, (φ s).bbm.sr = s.bbm.sr
  bitacc : ∀ s, (φ s).bbm.bitacc = s.bbm.bitacc
  setSr : ∀ v s, setSr v (φ s) = φ (setSr v s)
  setPhase : ∀ p s, setPhase p (φ s) = φ (setPhase p s)
  respond : ∀ st d s, respond st d (φ s) = φ (respond st d s)

namespace BusSym
variable {φ : State → State} (h : BusSym φ)
include h

theorem readBits (is : List Nat) (s : State) : readBits is (φ s) = φ (readBits is s) := by
  induction is generalizing s with
  | nil => rfl
  | cons i is ih => simp only [Machine.readBits, h.readBit, h.sr, h.bitacc, h.setSr, ih]

theorem closeTransaction (s : State) : closeTransaction (φ s) = φ (closeTransaction s) := by
  simp only [Machine.closeTransaction, h.setPhase, h.stopCond]

theorem wrbitBody (v : Bool) (s : State) : wrbitBody v (φ s) = φ (wrbitBody v s) := by
  simp only [Machine.wrbitBody, h.writeBit, h.respond]

theorem rdbitBody (s : State) : rdbitBody (φ s) = φ (rdbitBody s) := by
  simp only [Machine.rdbitBody, h.readBit, h.bitacc, h.respond]

theorem byteFrame (b : Byte) (s : State) : byteFrame b (φ s) = φ (byteFrame b s) := by
  simp only [Machine.byteFrame, h.setSr, h.writeBits h.sr, h.readBit]

/-- The two ends of BEGIN and WRBYTE, chosen by a bit read that the change does not touch. -/
theorem acknowledged (data : State → State) (hdata : ∀ s, data (φ s) = φ (data s)) (u : State) :
    (if (φ u).bbm.bitacc then Machine.respond .noAck 0 (Machine.closeTransaction (φ u))
      else Machine.respond .ok 0 (data (φ u))) =
      φ (if u.bbm.bitacc then Machine.respond .noAck 0 (Machine.closeTransaction u)
        else Machine.respond .ok 0 (data u)) := by
  rw [h.bitacc, h.closeTransaction, hdata, h.respond, h.respond]
  split <;> rfl

theorem wrbyteBody (b : Byte) (s : State) : wrbyteBody b (φ s) = φ (wrbyteBody b s) := by
  have hend := h.acknowledged id (fun _ => rfl) (Machine.byteFrame b s)
  rw [← h.byteFrame] at hend
  simp only [Machine.wrbyteBody]
  exact hend

theorem rdbyteBody (wantAck : Bool) (s : State) : rdbyteBody wantAck (φ s) = φ (rdbyteBody wantAck s) := by
  simp only [Machine.rdbyteBody, h.readBits, h.sr, h.writeBit, ← apply_ite φ, h.respond]

theorem endBody (s : State) : endBody (φ s) = φ (endBody s) := by
  simp only [Machine.endBody, h.closeTransaction, h.respond]

/-- BEGIN looks at the state through its loading of the frame alone. -/
theorem beginBody (addr : DeviceAddress) (dir : Direction) {s s' : State}
    (hl : loadFrame addr dir s' = φ (loadFrame addr dir s)) : beginBody addr dir s' = φ (beginBody addr dir s) := by
  have hframe : addressFrame addr dir s' = φ (addressFrame addr dir s) := by
    simp only [addressFrame, hl, h.setPhase, h.startCond, h.writeBits h.sr, h.readBit]
  have hend := h.acknowledged (Machine.setPhase .data) (h.setPhase .data) (addressFrame addr dir s)
  rw [← hframe] at hend
  simp only [Machine.beginBody]
  exact hend

end BusSym

/-- A change that the commands of unit ALS carry through. -/
structure AlsSym (φ : State → State) : Prop where
  cfg : ∀ s, (φ s).cfg = s.cfg
  als : ∀ s, (φ s).als = s.als
  read : ∀ off n s, memRead off n (φ s) = ((memRead off n s).1, φ (memRead off n s).2)
  write : ∀ off bytes s, memWrite off bytes (φ s) = ((memWrite off bytes s).1, φ (memWrite off bytes s).2)
  respond : ∀ st d s, respond st d (φ s) = φ (respond st d s)
  raise : ∀ e s, raise e (φ s) = φ (raise e s)
  setLogValid : ∀ v s, setLogValid v (φ s) = φ (setLogValid v s)
  setWriteOffset : ∀ i s, setWriteOffset i (φ s) = φ (setWriteOffset i s)
  setWriteSequence : ∀ n s, setWriteSequence n (φ s) = φ (setWriteSequence n s)

namespace AlsSym
variable {φ : State → State} (h : AlsSym φ)
include h

theorem readSlot (i : Nat) (s : State) : readSlot i (φ s) = ((readSlot i s).1, φ (readSlot i s).2) := by
  rw [Machine.readSlot, Machine.readSlot, h.cfg, h.read]

theorem writeSlot (i : Nat) (record : List Byte) (s : State) :
    writeSlot i record (φ s) = ((writeSlot i record s).1, φ (writeSlot i record s).2) := by
  rw [Machine.writeSlot, Machine.writeSlot, h.cfg, h.write]

theorem finishScan (i : IndexWord) (n : SeqWord) (s : State) : finishScan i n (φ s) = φ (finishScan i n s) := by
  simp only [Machine.finishScan, h.setWriteOffset, h.setWriteSequence, h.setLogValid, h.respond]

theorem scanFrom (fuel i : Nat) (prev : SeqWord) (s : State) :
    scanFrom fuel i prev (φ s) = φ (scanFrom fuel i prev s) := by
  induction fuel generalizing i prev s with
  | zero => rfl
  | succ fuel ih =>
    simp only [Machine.scanFrom, h.readSlot]
    rcases Machine.readSlot i s with ⟨bytes | _ | _ | _, s1⟩ <;> simp only [h.raise, h.finishScan, ih]
    split <;> rfl

theorem scanStore (s : State) : scanStore (φ s) = φ (scanStore s) := by
  simp only [Machine.scanStore, h.readSlot]
  rcases Machine.readSlot 0 s with ⟨bytes | _ | _ | _, s1⟩ <;> simp only [h.raise, h.finishScan, h.scanFrom, h.cfg]
  split <;> rfl

theorem loginitBody (s : State) : loginitBody (φ s) = φ (loginitBody s) := by
  simp only [Machine.loginitBody, h.cfg, h.setLogValid, h.scanStore, h.raise]
  split <;> rfl

theorem loglastBody (s : State) : loglastBody (φ s) = φ (loglastBody s) := by
  simp only [Machine.loglastBody, h.als, h.readSlot, h.respond]
  split
  · rfl
  · rcases Machine.readSlot (s.als.writeOffset.toNat - 1) s with ⟨bytes | _ | _ | _, s1⟩ <;>
      simp only [h.raise, h.respond]
    split <;> rfl

theorem finishAppend (s : State) : finishAppend (φ s) = φ (finishAppend s) := by
  simp only [Machine.finishAppend, h.als, h.setWriteSequence, h.setWriteOffset, h.respond]

theorem retryAppend (record : List Byte) (s : State) : retryAppend record (φ s) = φ (retryAppend record s) := by
  simp only [Machine.retryAppend, h.setWriteOffset, h.writeSlot]
  rcases Machine.writeSlot 0 record (Machine.setWriteOffset 0 s) with ⟨bytes | _ | _ | _, s1⟩ <;>
    simp only [h.raise, h.finishAppend]

theorem logappendBody (din : Nat) (s : State) : logappendBody din (φ s) = φ (logappendBody din s) := by
  simp only [Machine.logappendBody, h.cfg, h.als, h.writeSlot]
  rcases Machine.writeSlot s.als.writeOffset.toNat (s.cfg.encodeRecord s.als.writeSequence din) s with
    ⟨bytes | _ | _ | _, s1⟩ <;> simp only [h.raise, h.finishAppend, h.retryAppend]

/-- Every ALS command carries the change through. -/
theorem bodyOf {i : Instr} (hi : isBbm i = false) (s : State) : bodyOf i (φ s) = φ (bodyOf i s) := by
  cases i with
  | loginit => exact h.loginitBody s
  | loglast => exact h.loglastBody s
  | logappend din => exact h.logappendBody din s
  | _ => cases hi

end AlsSym

/-- What acceptance looks at, and what it does, does not notice the change (R112, R116). -/
structure PortSym (φ : State → State) : Prop where
  cfg : ∀ s, (φ s).cfg = s.cfg
  speed : ∀ s, (φ s).bbm.speed = s.bbm.speed
  phase : ∀ s, (φ s).bbm.phase = s.bbm.phase
  valid : ∀ s, (φ s).als.logValid = s.als.logValid
  halt : ∀ s, (φ s).ctl.halt = s.ctl.halt
  busy : ∀ s, busy (φ s) = φ (busy s)
  respond : ∀ st d s, respond st d (φ s) = φ (respond st d s)

namespace PortSym
variable {φ : State → State} (h : PortSym φ)
include h

theorem allowedNow (i : Instr) (s : State) : allowedNow (φ s) i ↔ allowedNow s i := by
  cases i <;> simp only [Machine.allowedNow, h.phase, h.valid]

/-- A command accepted in the changed state does what its body does there; a refusal carries the change through. -/
theorem exec {i : Instr} {s t : State} (ht : exec i s = .next t) :
    exec i (φ s) = .next (φ t) ∨ t = bodyOf i (Machine.busy s) ∧ exec i (φ s) = .next (bodyOf i (φ (Machine.busy s))) := by
  obtain ⟨hok, ⟨hh, rfl⟩ | ⟨hh, ha, rfl⟩ | ⟨hh, ha, rfl⟩⟩ := exec_cases i s t ht
  · left
    rw [exec_halted i (by rw [h.cfg, h.speed]; exact hok) (by rw [h.halt]; exact hh), refuse_eq, refuse_eq, h.respond]
  · left
    rw [exec_illegal (by rw [h.cfg, h.speed]; exact hok) (by rw [h.halt]; exact hh) (by rw [h.allowedNow]; exact ha),
      refuse_eq, refuse_eq, h.respond]
  · right
    refine ⟨rfl, ?_⟩
    rw [exec_ready i (φ s) ⟨by rw [h.cfg, h.speed]; exact hok, by rw [h.halt]; exact hh⟩ ((h.allowedNow i s).2 ha), h.busy]

end PortSym

end Sys2Proof.Machine
end

section
/-! SUPPORT. The changes themselves: the whole run later, another frame in TXN_ADDR and TXN_DIR, `cmd_ready` 0, and other
values in SR, BITACC and T0 (R21, R22, R26, D30). -/

namespace Sys2Proof.Machine

/-! A run begun later (R22, D30). -/

theorem advanceAmount_later (d : Nat) (s : State) : advanceAmount (s.later d) = advanceAmount s := rfl

theorem now_later (d : Nat) (s : State) : now (s.later d) = (now s).later d := by
  simp only [now, advanceAmount_later]
  simp only [State.later, Nat.add_right_comm]

theorem stamp_later (d : Nat) (s : State) : stamp (s.later d) = (stamp s).later d := by
  simp only [stamp, State.later, State.time, Nat.mod_add_mod]

/-- Elapsed time does not depend on when the count began. -/
theorem elapsed_later (tw a t d : Nat) : elapsed tw ((a + d) % 2 ^ tw) ((t + d) % 2 ^ tw) = elapsed tw (a % 2 ^ tw) t := by
  have hm := Nat.two_pow_pos tw
  obtain ⟨q, hq⟩ : ∃ q, t % 2 ^ tw + q = 2 ^ tw := ⟨2 ^ tw - t % 2 ^ tw, by have := Nat.mod_lt t hm; omega⟩
  have hleft : elapsed tw ((a + d) % 2 ^ tw) ((t + d) % 2 ^ tw) = (a + q) % 2 ^ tw := by
    have hsum : (a + d) % 2 ^ tw = ((t + d) + (a + q)) % 2 ^ tw := by
      have : t + d + (a + q) = (a + d) + 2 ^ tw * (t / 2 ^ tw + 1) := by
        have := Nat.div_add_mod t (2 ^ tw)
        rw [Nat.mul_add, Nat.mul_one]
        omega
      rw [this, Nat.add_mul_mod_self_left]
    rw [hsum]
    exact elapsed_add tw (t + d) (a + q)
  have hright : elapsed tw (a % 2 ^ tw) t = (a + q) % 2 ^ tw := by
    rw [elapsed, show 2 ^ tw - t % 2 ^ tw = q by omega, Nat.mod_add_mod]
  rw [hleft, hright]

theorem sinceStamp_later (d : Nat) (s : State) : sinceStamp (s.later d) = sinceStamp s :=
  elapsed_later s.cfg.tw s.line.ticks s.bbm.t0 d

theorem later_sample (d : Nat) (s : State) : sample (s.later d) = (sample s).later d := by
  simp only [sample, now_later]
  rfl

theorem later_busSym (d : Nat) : BusSym (State.later d) where
  now := now_later d
  stamp := stamp_later d
  since := sinceStamp_later d
  unit _ := rfl
  scl _ _ := rfl
  sda _ _ := rfl
  sample := later_sample d
  setBitacc _ _ := rfl
  sclLevel _ := rfl
  sdaLevel _ := rfl
  bitWindow _ := rfl
  stretch _ := rfl
  sr _ := rfl
  bitacc _ := rfl
  setSr _ _ := rfl
  setPhase _ _ := rfl
  respond _ _ _ := rfl

/-- A change that leaves configuration and store alone, and commutes with every event of the store port, passes through a
store request (R45). -/
theorem memRead_sym {φ : State → State} (hc : ∀ s, (φ s).cfg = s.cfg) (hs : ∀ s, (φ s).store = s.store)
    (hreq : ∀ r s, sendRequest r (φ s) = φ (sendRequest r s)) (hans : ∀ a s, takeAnswer a (φ s) = φ (takeAnswer a s))
    (hnext : ∀ s, nextStoreDraw (φ s) = φ (nextStoreDraw s)) (off n : Nat) (s : State) :
    memRead off n (φ s) = ((memRead off n s).1, φ (memRead off n s).2) := by
  have hdraw : storeAnswer (φ s) = storeAnswer s := by simp only [storeAnswer, storeDraw, hs]
  simp only [memRead, hc, hs, hdraw, hreq, hans, hnext]
  split
  · rfl
  · split <;> rfl

theorem memWrite_sym {φ : State → State} (hc : ∀ s, (φ s).cfg = s.cfg) (hs : ∀ s, (φ s).store = s.store)
    (hreq : ∀ r s, sendRequest r (φ s) = φ (sendRequest r s)) (hans : ∀ a s, takeAnswer a (φ s) = φ (takeAnswer a s))
    (hnext : ∀ s, nextStoreDraw (φ s) = φ (nextStoreDraw s))
    (hscramble : ∀ off n s, scramble off n (φ s) = φ (scramble off n s))
    (hbytes : ∀ off bytes s, storeBytes off bytes (φ s) = φ (storeBytes off bytes s)) (off : Nat) (bytes : List Byte)
    (s : State) : memWrite off bytes (φ s) = ((memWrite off bytes s).1, φ (memWrite off bytes s).2) := by
  have hdraw : storeAnswer (φ s) = storeAnswer s := by simp only [storeAnswer, storeDraw, hs]
  simp only [memWrite, hc, hdraw, hreq, hans, hnext, hscramble, hbytes]
  split
  · rfl
  · split
    · rfl
    · split <;> rfl

theorem later_alsSym (d : Nat) : AlsSym (State.later d) where
  cfg _ := rfl
  als _ := rfl
  read := memRead_sym (fun _ => rfl) (fun _ => rfl) (fun _ _ => rfl) (fun _ _ => rfl) (fun _ => rfl)
  write := memWrite_sym (fun _ => rfl) (fun _ => rfl) (fun _ _ => rfl) (fun _ _ => rfl) (fun _ => rfl) (fun _ _ _ => rfl)
    (fun _ _ _ => rfl)
  respond _ _ _ := rfl
  raise _ _ := rfl
  setLogValid _ _ := rfl
  setWriteOffset _ _ := rfl
  setWriteSequence _ _ := rfl

theorem later_portSym (d : Nat) : PortSym (State.later d) where
  cfg _ := rfl
  speed _ := rfl
  phase _ := rfl
  valid _ := rfl
  halt _ := rfl
  busy _ := rfl
  respond _ _ _ := rfl

/-- The body of every command but BEGIN carries a change through that commutes with the operations of both units. -/
theorem bodyOf_sym {φ : State → State} (bus : BusSym φ) (als : AlsSym φ) {i : Instr} (hi : ∀ addr dir, i ≠ .begin addr dir)
    (s : State) : bodyOf i (φ s) = φ (bodyOf i s) := by
  cases i with
  | begin addr dir => exact absurd rfl (hi addr dir)
  | wrbit v => exact bus.wrbitBody v s
  | rdbit => exact bus.rdbitBody s
  | wrbyte b => exact bus.wrbyteBody b s
  | rdbyte wantAck => exact bus.rdbyteBody wantAck s
  | end_ => exact bus.endBody s
  | loginit => exact als.bodyOf rfl s
  | loglast => exact als.bodyOf rfl s
  | logappend din => exact als.bodyOf rfl s

theorem bodyOf_later (i : Instr) (d : Nat) (s : State) : bodyOf i (s.later d) = (bodyOf i s).later d := by
  by_cases hi : ∃ addr dir, i = .begin addr dir
  · obtain ⟨addr, dir, rfl⟩ := hi
    exact (later_busSym d).beginBody addr dir (s := s) (s' := s.later d) rfl
  · exact bodyOf_sym (later_busSym d) (later_alsSym d) (fun addr dir he => hi ⟨addr, dir, he⟩) s

/-- Settles O56: every operation of the block commutes with the passing of `d` ticks. -/
theorem startTimeHasNoEffect : Obligations.StartTimeHasNoEffect := by
  intro i s t d h
  rcases (later_portSym d).exec h with he | ⟨rfl, he⟩
  · exact he
  · rw [he, bodyOf_later]

/-! Another frame (R26). -/

/-- The state with other values in TXN_ADDR and TXN_DIR. -/
def withFrame (addr : DeviceAddress) (dir : Direction) (s : State) : State :=
  { s with bbm := { s.bbm with txnAddr := addr, txnDir := dir } }

section
variable (addr : DeviceAddress) (dir : Direction)

theorem withFrame_busSym : BusSym (withFrame addr dir) where
  now _ := rfl
  stamp _ := rfl
  since _ := rfl
  unit _ := rfl
  scl _ _ := rfl
  sda _ _ := rfl
  sample _ := rfl
  setBitacc _ _ := rfl
  sclLevel _ := rfl
  sdaLevel _ := rfl
  bitWindow _ := rfl
  stretch _ := rfl
  sr _ := rfl
  bitacc _ := rfl
  setSr _ _ := rfl
  setPhase _ _ := rfl
  respond _ _ _ := rfl

theorem withFrame_alsSym : AlsSym (withFrame addr dir) where
  cfg _ := rfl
  als _ := rfl
  read := memRead_sym (fun _ => rfl) (fun _ => rfl) (fun _ _ => rfl) (fun _ _ => rfl) (fun _ => rfl)
  write := memWrite_sym (fun _ => rfl) (fun _ => rfl) (fun _ _ => rfl) (fun _ _ => rfl) (fun _ => rfl) (fun _ _ _ => rfl)
    (fun _ _ _ => rfl)
  respond _ _ _ := rfl
  raise _ _ := rfl
  setLogValid _ _ := rfl
  setWriteOffset _ _ := rfl
  setWriteSequence _ _ := rfl

theorem withFrame_portSym : PortSym (withFrame addr dir) where
  cfg _ := rfl
  speed _ := rfl
  phase _ := rfl
  valid _ := rfl
  halt _ := rfl
  busy _ := rfl
  respond _ _ _ := rfl

end

/-- BEGIN looks at the state through its loading of the frame alone (R161). -/
theorem beginBody_congr {addr : DeviceAddress} {dir : Direction} {s s' : State}
    (h : loadFrame addr dir s' = loadFrame addr dir s) : beginBody addr dir s' = beginBody addr dir s := by
  unfold beginBody addressFrame
  rw [h]

/-- BEGIN writes the frame before anything else, so the old one is gone (R161). -/
theorem bodyOf_begin_withFrame (addr : DeviceAddress) (dir : Direction) (a : DeviceAddress) (d : Direction) (s : State) :
    bodyOf (.begin a d) (withFrame addr dir s) = bodyOf (.begin a d) s := by
  have hload : loadFrame a d (withFrame addr dir s) = loadFrame a d s := rfl
  rw [bodyOf, beginBody_congr hload]

/-- BEGIN alone writes TXN_ADDR and TXN_DIR. -/
theorem bodyOf_keeps_frame {i : Instr} (hi : ∀ a d, i ≠ .begin a d) (s : State) :
    (bodyOf i s).bbm.txnAddr = s.bbm.txnAddr ∧ (bodyOf i s).bbm.txnDir = s.bbm.txnDir := by
  have als (hb : isBbm i = false) : (bodyOf i s).bbm = s.bbm := (bodyOf_alsFrame i s hb).bbm
  cases i with
  | begin a d => exact absurd rfl (hi a d)
  | wrbit v => exact ⟨writeBit_bbm_txnAddr s v, writeBit_bbm_txnDir s v⟩
  | rdbit => exact ⟨readBit_bbm_txnAddr s, readBit_bbm_txnDir s⟩
  | wrbyte b =>
    obtain ⟨-, -, -, haddr, hdir, -⟩ := byteFrame_bbm s b
    rw [bodyOf]
    rcases wrbyteBody_cases b s with ⟨-, he, -⟩ | ⟨-, he, -⟩ <;> rw [he]
    · exact ⟨haddr, hdir⟩
    · exact ⟨by simpa using haddr, by simpa using hdir⟩
  | rdbyte wantAck =>
    obtain ⟨-, -, -, haddr, hdir, -⟩ := rdbyteBody_bbm wantAck s
    exact ⟨haddr, hdir⟩
  | end_ => exact ⟨closeTransaction_txnAddr s, closeTransaction_txnDir s⟩
  | loginit => rw [als rfl]; exact ⟨rfl, rfl⟩
  | loglast => rw [als rfl]; exact ⟨rfl, rfl⟩
  | logappend din => rw [als rfl]; exact ⟨rfl, rfl⟩

/-- Settles O58: another frame passes through every command, and BEGIN overwrites it. -/
theorem directionIsNotChecked : Obligations.DirectionIsNotChecked := by
  intro i s t addr dir h
  have hkeeps : (∀ a d, i ≠ .begin a d) → t.bbm.txnAddr = s.bbm.txnAddr ∧ t.bbm.txnDir = s.bbm.txnDir := by
    intro hi
    obtain ⟨-, ⟨-, rfl⟩ | ⟨-, -, rfl⟩ | ⟨-, -, rfl⟩⟩ := exec_cases i s t h
    · exact ⟨rfl, rfl⟩
    · exact ⟨rfl, rfl⟩
    · exact bodyOf_keeps_frame hi (busy s)
  rcases (withFrame_portSym addr dir).exec h with he | ⟨ht, he⟩
  · exact ⟨_, he, rfl, hkeeps⟩
  · by_cases hi : ∃ a d, i = .begin a d
    · obtain ⟨a, d, rfl⟩ := hi
      rw [bodyOf_begin_withFrame, ← ht] at he
      exact ⟨t, he, rfl, hkeeps⟩
    · rw [bodyOf_sym (withFrame_busSym addr dir) (withFrame_alsSym addr dir) (fun a d hb => hi ⟨a, d, hb⟩), ← ht] at he
      exact ⟨withFrame addr dir t, he, rfl, hkeeps⟩

end Sys2Proof.Machine
end

section
/-! SUPPORT. The working registers SR, BITACC and T0 (R21, R22): a command writes each before it reads it, and RDBYTE writes
every bit of SR (R165). -/

namespace Sys2Proof.Machine

/-! What does not notice SR, BITACC or T0. -/

theorem setSr_lineSym (v : Byte) : LineSym (setSr v) := by
  constructor
  case toTimeSym => constructor <;> intros <;> rfl
  all_goals intros; rfl

theorem busy_lineSym : LineSym busy := by
  constructor
  case toTimeSym => constructor <;> intros <;> rfl
  all_goals intros; rfl

theorem setBitacc_timeSym (v : Bool) : TimeSym (setBitacc v) := by constructor <;> intros <;> rfl

/-- `T0 <- t`, of a stale stamp. -/
def setT0 (t : Nat) (s : State) : State := { s with bbm := { s.bbm with t0 := t } }

/-- A wait stamps its own start (R13). -/
theorem wait_setT0 (n t : Nat) (s : State) : wait n (setT0 t s) = wait n s := rfl

theorem writeBit_setT0 (v : Bool) (t : Nat) (s : State) : writeBit v (setT0 t s) = writeBit v s := by
  have h : driveSda v (setT0 t s) = setT0 t (driveSda v s) := rfl
  simp only [writeBit, h, wait_setT0]

theorem startCond_setT0 (t : Nat) (s : State) : startCond (setT0 t s) = startCond s := by
  have h : driveSda false (setT0 t s) = setT0 t (driveSda false s) := rfl
  simp only [startCond, h, wait_setT0]

theorem stopCond_setT0 (t : Nat) (s : State) : stopCond (setT0 t s) = stopCond s := by
  have h : driveScl true (setT0 t s) = setT0 t (driveScl true s) := rfl
  simp only [stopCond, h, wait_setT0]

/-- A bit read stamps its own start, and its bit begins at 1 (R140). -/
theorem readBitOpen_stale (b : Bool) (t : Nat) (s : State) : readBitOpen (setBitacc b (setT0 t s)) = readBitOpen s := by
  have h : driveSda true (driveScl false (setBitacc b (setT0 t s))) =
      setBitacc b (setT0 t (driveSda true (driveScl false s))) := rfl
  have hopen (u : State) : setBitacc true (stamp (now (driveScl true (setBitacc b u)))) =
      setBitacc true (stamp (now (driveScl true u))) := rfl
  simp only [readBitOpen, h, (setBitacc_timeSym b).wait, wait_setT0, hopen]

theorem readBit_stale (b : Bool) (t : Nat) (s : State) : readBit (setBitacc b (setT0 t s)) = readBit s := by
  have h : (setBitacc b (setT0 t s)).bitWindow = s.bitWindow := rfl
  simp only [readBit, h, readBitOpen_stale]

theorem readBit_setBitacc (b : Bool) (s : State) : readBit (setBitacc b s) = readBit s := readBit_stale b s.bbm.t0 s

theorem writeBits_setT0 (i : Nat) (is : List Nat) (t : Nat) (s : State) :
    writeBits (i :: is) (setT0 t s) = writeBits (i :: is) s := by
  have h : (setT0 t s).bbm.sr = s.bbm.sr := rfl
  simp only [writeBits, h, writeBit_setT0]

/-! The eight bits of RDBYTE (R165). -/

/-- `SR[i] <- b` writes bit `i` and no other. -/
theorem getLsbD_setBit (v : Byte) (b : Bool) {i : Nat} (hi : i < 8) (j : Nat) :
    (setBit v i b).getLsbD j = if j = i then b else v.getLsbD j := by
  have hone : ((1 : Byte) <<< i).getLsbD j = decide (j = i) := by
    rw [BitVec.getLsbD_shiftLeft]
    by_cases h : j = i
    · simp [h, hi]
    · have : j < i ∨ 1 ≤ j - i := by omega
      rcases this with h' | h' <;> simp [h', h, BitVec.getLsbD_one]
      omega
  cases b with
  | true =>
    rw [setBit, if_pos rfl, BitVec.getLsbD_or, hone]
    by_cases h : j = i <;> simp [h]
  | false =>
    rw [setBit, if_neg (by simp), BitVec.getLsbD_and, BitVec.getLsbD_not, hone]
    by_cases h : j = i
    · simp [h]
    · simp only [h, decide_false, Bool.not_false, Bool.and_true, if_false]
      by_cases hj : j < 8
      · simp [hj]
      · simp [hj, BitVec.getLsbD_of_ge v j (by omega)]

theorem afterReads_readBit (n : Nat) (s : State) : afterReads n (readBit s) = afterReads (n + 1) s := by
  induction n with
  | zero => rfl
  | succ n ih => rw [afterReads, ih]; rfl

/-- The bits that `readBits` writes into SR are those of its bit reads in turn; the others stay. -/
theorem readBits_sr (is : List Nat) (hlt : ∀ i ∈ is, i < 8) (hnodup : is.Nodup) (s : State) :
    (∀ j, j ∉ is → (readBits is s).bbm.sr.getLsbD j = s.bbm.sr.getLsbD j) ∧
      ∀ k i, is[k]? = some i → (readBits is s).bbm.sr.getLsbD i = (afterReads (k + 1) s).bbm.bitacc := by
  induction is generalizing s with
  | nil => exact ⟨fun _ _ => rfl, fun k i h => by simp at h⟩
  | cons a is ih =>
    obtain ⟨v, hv⟩ : ∃ v, v = setBit (readBit s).bbm.sr a (readBit s).bbm.bitacc := ⟨_, rfl⟩
    obtain ⟨hfresh, hnodup'⟩ := List.nodup_cons.1 hnodup
    obtain ⟨hkept, hwritten⟩ := ih (fun i hi => hlt i (List.mem_cons_of_mem _ hi)) hnodup' (setSr v (readBit s))
    have hbit := getLsbD_setBit (readBit s).bbm.sr (readBit s).bbm.bitacc (hlt a List.mem_cons_self)
    rw [readBits, ← hv]
    refine ⟨fun j hj => ?_, fun k i hk => ?_⟩
    · rw [hkept j (fun h => hj (List.mem_cons_of_mem _ h)), setSr_bbm_sr, hv, hbit,
        if_neg (fun h : j = a => hj (by rw [h]; exact List.mem_cons_self)), readBit_bbm_sr]
    · cases k with
      | zero =>
        obtain rfl : a = i := by simpa using hk
        rw [hkept a hfresh, setSr_bbm_sr, hv, hbit, if_pos rfl]
        rfl
      | succ k =>
        rw [hwritten k i (by simpa using hk), (setSr_lineSym v).afterReads, setSr_bbm_bitacc, afterReads_readBit]

/-- The byte read, bit by bit: the first bit read is the most significant (R165). -/
theorem readByte_bits (s : State) {k : Nat} (hk : k < 8) :
    (readBits [7, 6, 5, 4, 3, 2, 1, 0] s).bbm.sr.getLsbD (7 - k) = (afterReads (k + 1) s).bbm.bitacc := by
  refine (readBits_sr [7, 6, 5, 4, 3, 2, 1, 0] (by decide) (by decide) s).2 k (7 - k) ?_
  interval_cases k <;> rfl

/-- Two bytes whose bits agree from the top are the same. -/
theorem byte_eq_of_bits {v w : Byte} (h : ∀ k, k < 8 → v.getLsbD (7 - k) = w.getLsbD (7 - k)) : v = w := by
  refine BitVec.eq_of_getLsbD_eq fun i hi => ?_
  have := h (7 - i) (by omega)
  rwa [show 7 - (7 - i) = i by omega] at this

/-- Settles O31: the bits of SR, the frame and what it shows. -/
theorem rdbyteReadsOneByte : Obligations.RdbyteReadsOneByte := by
  intro s wantAck hready hphase
  have hexec : exec (.rdbyte wantAck) s = .next (rdbyteBody wantAck (busy s)) :=
    exec_ready (.rdbyte wantAck) s hready hphase
  obtain ⟨hscl, hsda, hkept, haddr, hdir, hsr⟩ := rdbyteBody_bbm wantAck (busy s)
  have hresp := rdbyteBody_responded wantAck (busy s)
  have hshows := rdbyteBody_shows wantAck (busy s)
  have hbits (k : Nat) (hk : k < 8) :
      (rdbyteBody wantAck (busy s)).bbm.sr.getLsbD (7 - k) = (afterReads (k + 1) s).bbm.bitacc := by
    rw [hsr, readByte_bits (busy s) hk, busy_lineSym.afterReads, busy_bbm]
  rw [← hsr] at hresp hshows
  exact ⟨_, hexec, hresp.of_busy, (rdbyteBody_frame wantAck (busy s)).of_busy, hbits, hkept.trans hphase, hscl, hsda, haddr,
    hdir, hshows⟩

/-! A constant peer (R143, R165). -/

theorem afterReads_lineOnly (n : Nat) (s : State) : LineOnly s (afterReads n s) := by
  induction n with
  | zero => exact LineOnly.rfl
  | succ n ih => exact ih.trans (readBit_lineOnly _)

theorem afterReads_bitWindow (n : Nat) (s : State) : (afterReads n s).bitWindow = s.bitWindow := by
  have h := afterReads_lineOnly n s
  simp only [bitWindow_eq, h.cfg, h.speed]

/-- Each bit read uses at most T_BIT samples of the peer (R140). -/
theorem afterReads_peers (n : Nat) (s : State) (hok : s.cfg.ok s.bbm.speed = true) :
    ∃ m, m ≤ n * s.bitWindow ∧ ∀ k, (afterReads n s).line.peers.nth freePeer k = s.line.peers.nth freePeer (m + k) := by
  induction n with
  | zero => exact ⟨0, Nat.zero_le _, fun k => by rw [Nat.zero_add]; rfl⟩
  | succ n ih =>
    obtain ⟨m, hm, hpeers⟩ := ih
    have frame := afterReads_lineOnly n s
    obtain ⟨clk, polls, last, hR⟩ := readBit_spec (afterReads n s) (by rw [frame.cfg, frame.speed]; exact hok)
    have hlen := hR.length
    rw [afterReads_bitWindow] at hlen
    refine ⟨m + (polls.length + 1), by rw [Nat.add_mul, Nat.one_mul]; omega, fun k => ?_⟩
    rw [afterReads, hR.peers, Draws.nth_drop, hpeers, Nat.add_assoc m]

/-- A peer that does one thing at each of the samples of eight bit reads does it at each bit read. -/
theorem constantPeer_reads {P : PeerPair → Prop} {s : State} (hok : s.cfg.ok s.bbm.speed = true)
    (h : ∀ k, k < 8 * s.bitWindow → P (s.line.peers.nth freePeer k)) {n : Nat} (hn : n < 8) :
    ∀ k, k < (afterReads n s).bitWindow → P ((afterReads n s).line.peers.nth freePeer k) := by
  obtain ⟨m, hm, hpeers⟩ := afterReads_peers n s hok
  intro k hk
  rw [afterReads_bitWindow] at hk
  have hmul : (n + 1) * s.bitWindow ≤ 8 * s.bitWindow := Nat.mul_le_mul_right _ hn
  rw [Nat.add_mul, Nat.one_mul] at hmul
  rw [hpeers]
  exact h (m + k) (by omega)

/-- When each of the eight bit reads gives `b`, RDBYTE answers the byte of `b`s. -/
theorem rdbyte_constant {s : State} {wantAck b : Bool} (hready : Ready s) (hphase : s.bbm.phase = .data)
    (h : ∀ n, n < 8 → (readBit (afterReads n s)).bbm.bitacc = b) {v : Byte} (hv : ∀ k, k < 8 → v.getLsbD (7 - k) = b) :
    ∃ t, exec (.rdbyte wantAck) s = .next t ∧ Responded s t .ok v.toNat := by
  obtain ⟨t, hexec, hresp, -, hbits, -⟩ := rdbyteReadsOneByte s wantAck hready hphase
  have hsr : t.bbm.sr = v := byte_eq_of_bits fun k hk => by rw [hbits k hk, hv k hk]; exact h k hk
  rw [hsr] at hresp
  exact ⟨t, hexec, hresp⟩

/-- Settles O32: each bit read is the one a constant peer gives. -/
theorem rdbyteOfAConstantPeer : Obligations.RdbyteOfAConstantPeer := by
  intro s wantAck hready hphase
  have hok := hready.config_ok
  have hok' (n : Nat) : (afterReads n s).cfg.ok (afterReads n s).bbm.speed = true := by
    rw [(afterReads_lineOnly n s).cfg, (afterReads_lineOnly n s).speed]
    exact hok
  refine ⟨fun hidle => ?_, fun hpull hd => ?_⟩
  · exact rdbyte_constant (v := 0xFF) hready hphase
      (fun n hn => readBit_idle _ (hok' n) (constantPeer_reads (P := (· = { scl := true, sda := true })) hok hidle hn))
      (by decide)
  · exact rdbyte_constant (v := 0x00) hready hphase
      (fun n hn => readBit_pulled _ (hok' n)
        (by rw [afterReads_bitWindow, (afterReads_lineOnly n s).cfg]; exact hd)
        (constantPeer_reads (P := (· = { scl := true, sda := false })) hok hpull hn))
      (by decide)

/-! Stale registers (R47). -/

/-- The state with other values in SR, BITACC and T0. -/
def stale (sr : Byte) (bit : Bool) (t0 : Nat) (s : State) : State := setSr sr (setBitacc bit (setT0 t0 s))

section
variable (sr : Byte) (bit : Bool) (t0 : Nat)

theorem stale_alsSym : AlsSym (stale sr bit t0) where
  cfg _ := rfl
  als _ := rfl
  read := memRead_sym (fun _ => rfl) (fun _ => rfl) (fun _ _ => rfl) (fun _ _ => rfl) (fun _ => rfl)
  write := memWrite_sym (fun _ => rfl) (fun _ => rfl) (fun _ _ => rfl) (fun _ _ => rfl) (fun _ => rfl) (fun _ _ _ => rfl)
    (fun _ _ _ => rfl)
  respond _ _ _ := rfl
  raise _ _ := rfl
  setLogValid _ _ := rfl
  setWriteOffset _ _ := rfl
  setWriteSequence _ _ := rfl

theorem stale_portSym : PortSym (stale sr bit t0) where
  cfg _ := rfl
  speed _ := rfl
  phase _ := rfl
  valid _ := rfl
  halt _ := rfl
  busy _ := rfl
  respond _ _ _ := rfl

/-- A wait leaves SR and BITACC stale, and T0 fresh. -/
theorem writeBit_stale (v : Bool) (s : State) : writeBit v (stale sr bit t0 s) = setSr sr (setBitacc bit (writeBit v s)) := by
  rw [stale, (setSr_lineSym sr).writeBit, (setBitacc_timeSym bit).writeBit, writeBit_setT0]

theorem closeTransaction_stale (s : State) :
    closeTransaction (stale sr bit t0 s) = setSr sr (setBitacc bit (closeTransaction s)) := by
  have hstop : setPhase .stop (stale sr bit t0 s) = setSr sr (setBitacc bit (setT0 t0 (setPhase .stop s))) := rfl
  have hidle (u : State) : setPhase .idle (setSr sr (setBitacc bit u)) = setSr sr (setBitacc bit (setPhase .idle u)) := rfl
  rw [closeTransaction, hstop, (setSr_lineSym sr).stopCond, (setBitacc_timeSym bit).stopCond, stopCond_setT0, hidle,
    closeTransaction]

theorem readBit_ofStale (s : State) : readBit (stale sr bit t0 s) = setSr sr (readBit s) := by
  rw [stale, (setSr_lineSym sr).readBit, readBit_stale]

/-- WRBYTE loads SR, and its first wait and its bit read write the others (R163). -/
theorem byteFrame_stale (b : Byte) (s : State) : byteFrame b (stale sr bit t0 s) = byteFrame b s := by
  have hload : setSr b (stale sr bit t0 s) = setBitacc bit (setT0 t0 (setSr b s)) := rfl
  rw [byteFrame, hload, (setBitacc_timeSym bit).writeBits (fun _ => rfl), writeBits_setT0, readBit_setBitacc, byteFrame]

/-- BEGIN likewise (R161). -/
theorem addressFrame_stale (addr : DeviceAddress) (dir : Direction) (s : State) :
    addressFrame addr dir (stale sr bit t0 s) = addressFrame addr dir s := by
  have hload : setPhase .start (loadFrame addr dir (stale sr bit t0 s)) =
      setBitacc bit (setT0 t0 (setPhase .start (loadFrame addr dir s))) := rfl
  have hphase (p : Phase) (u : State) : setPhase p (setBitacc bit u) = setBitacc bit (setPhase p u) := rfl
  simp only [addressFrame, hload, (setBitacc_timeSym bit).startCond, startCond_setT0, hphase,
    (setBitacc_timeSym bit).writeBits (fun _ => rfl), readBit_setBitacc]

/-- What SR held before shows in SR alone. -/
theorem readBits_setSr (is : List Nat) (v : Byte) (s : State) : ∃ w, readBits is (setSr v s) = setSr w (readBits is s) := by
  induction is generalizing v s with
  | nil => exact ⟨v, rfl⟩
  | cons i is ih =>
    obtain ⟨w, hw⟩ := ih (setBit v i (readBit s).bbm.bitacc)
      (setSr (setBit (readBit s).bbm.sr i (readBit s).bbm.bitacc) (readBit s))
    refine ⟨w, ?_⟩
    rw [readBits, readBits, (setSr_lineSym v).readBit, ← hw]
    rfl

omit sr bit t0 in
/-- Shifting in looks at the state through its first bit read alone. -/
theorem readBits_congr (i : Nat) (is : List Nat) {u u' : State} (h : readBit u = readBit u') :
    readBits (i :: is) u = readBits (i :: is) u' := by
  rw [readBits, readBits, h]

/-- RDBYTE writes every bit of SR (R165). -/
theorem readByte_stale (s : State) :
    readBits [7, 6, 5, 4, 3, 2, 1, 0] (stale sr bit t0 s) = readBits [7, 6, 5, 4, 3, 2, 1, 0] s := by
  have hfirst : readBits [7, 6, 5, 4, 3, 2, 1, 0] (stale sr bit t0 s) =
      readBits [7, 6, 5, 4, 3, 2, 1, 0] (setSr sr s) :=
    readBits_congr _ _ (by rw [readBit_ofStale, (setSr_lineSym sr).readBit])
  obtain ⟨w, hw⟩ := readBits_setSr [7, 6, 5, 4, 3, 2, 1, 0] sr s
  have hsr : w = (readBits [7, 6, 5, 4, 3, 2, 1, 0] s).bbm.sr := by
    have hbits := fun k hk => readByte_bits (setSr sr s) (k := k) hk
    rw [hw] at hbits
    refine byte_eq_of_bits fun k hk => ?_
    rw [readByte_bits s hk]
    refine (hbits k hk).trans ?_
    rw [(setSr_lineSym sr).afterReads, setSr_bbm_bitacc]
  rw [hfirst, hw, hsr]
  rfl

end

/-- The same state but for SR, BITACC and T0. -/
def Alike (t t' : State) : Prop := t' = stale t'.bbm.sr t'.bbm.bitacc t'.bbm.t0 t

theorem Alike.rfl {t : State} : Alike t t := Eq.refl t

theorem alike_overlay (sr : Byte) (bit : Bool) (t : State) : Alike t (setSr sr (setBitacc bit t)) := Eq.refl _

theorem alike_stale (sr : Byte) (bit : Bool) (t0 : Nat) (t : State) : Alike t (stale sr bit t0 t) := Eq.refl _

theorem bodyOf_stale (i : Instr) (sr : Byte) (bit : Bool) (t0 : Nat) (s : State) :
    Alike (bodyOf i s) (bodyOf i (stale sr bit t0 s)) := by
  have same (h : bodyOf i (stale sr bit t0 s) = bodyOf i s) : Alike (bodyOf i s) (bodyOf i (stale sr bit t0 s)) := by
    rw [h]
    exact Alike.rfl
  have als (hi : isBbm i = false) : Alike (bodyOf i s) (bodyOf i (stale sr bit t0 s)) := by
    rw [(stale_alsSym sr bit t0).bodyOf hi]
    exact alike_stale _ _ _ _
  cases i with
  | begin addr dir =>
    refine same ?_
    simp only [bodyOf, beginBody, addressFrame_stale]
  | wrbit v =>
    simp only [bodyOf, wrbitBody, writeBit_stale]
    exact alike_overlay sr bit (respond .ok 0 (writeBit v s))
  | rdbit =>
    simp only [bodyOf, rdbitBody, readBit_ofStale, setSr_bbm_bitacc]
    exact alike_overlay sr _ (respond .ok (readBit s).bbm.bitacc.toNat (readBit s))
  | wrbyte b =>
    refine same ?_
    simp only [bodyOf, wrbyteBody, byteFrame_stale]
  | rdbyte wantAck =>
    refine same ?_
    simp only [bodyOf, rdbyteBody, readByte_stale]
  | end_ =>
    simp only [bodyOf, endBody, closeTransaction_stale]
    exact alike_overlay sr bit (respond .ok 0 (closeTransaction s))
  | loginit => exact als rfl
  | loglast => exact als rfl
  | logappend din => exact als rfl

/-- Settles O57, command by command. -/
theorem staleWorkingRegistersHaveNoEffect : Obligations.StaleWorkingRegistersHaveNoEffect := by
  intro i s t sr bit t0 h
  rcases (stale_portSym sr bit t0).exec h with he | ⟨rfl, he⟩
  · exact ⟨_, he, alike_stale sr bit t0 t⟩
  · exact ⟨_, he, bodyOf_stale i sr bit t0 (busy s)⟩

end Sys2Proof.Machine
end

section
/-! SUPPORT. What a store request does to the store, byte by byte (R61 to R63), and what a record's bytes are (R66, R67). -/

namespace Sys2Proof.Machine

/-- Settles O39, by what a write can do to NV. -/
theorem storeRequestsTouchTheirRangeOnly : Obligations.StoreRequestsTouchTheirRangeOnly := by
  intro s off n bytes hwf
  refine ⟨memRead_nv off n s, fun bs h => (memRead_ok off n s bs h).2, fun h => ?_, fun h => ?_, fun hr h => ?_,
    fun a ha => memWrite_read_other off bytes s a ha, memWrite_wf off bytes s hwf⟩ <;>
    rcases memWrite_nv off bytes s with ⟨hnv, hend⟩ | ⟨hin, hok, hnv⟩ | ⟨hin, hfail, hnv⟩
  · rcases hend with ⟨-, he⟩ | he <;> rw [he] at h <;> cases h
  · rw [hnv, Memory.readBytes_writeBytes_same bytes _ off hwf]
  · rcases hfail with he | he <;> rw [he] at h <;> cases h
  · exact hnv
  · rcases h with h | h
    · omega
    · rw [hok] at h
      cases h
  · rcases h with h | h
    · omega
    · rcases hfail with he | he <;> rw [he] at h <;> cases h
  · rcases hend with ⟨hpast, -⟩ | he
    · omega
    · rcases h with h | h <;> rw [he] at h <;> cases h
  · rcases h with h | h <;> rw [hok] at h <;> cases h
  · have hsame := Memory.readBytes_writeBytes_same (s.store.debris.take Config.freeByte bytes.length) _ off hwf
    rw [Draws.take_length] at hsame
    rw [hnv, hsame]

/-- The bytes of a number, the least significant first (R67). -/
theorem leBytes_getElem? {n k : Nat} (v : Nat) (h : k < n) :
    (leBytes n v)[k]? = some (BitVec.ofNat 8 (v / 2 ^ (8 * k))) := by
  induction n generalizing k v with
  | zero => omega
  | succ n ih =>
    cases k with
    | zero => simp [leBytes]
    | succ k =>
      have hdiv : v / 256 / 2 ^ (8 * k) = v / 2 ^ (8 * (k + 1)) := by
        rw [Nat.div_div_eq_div_mul, show 256 * 2 ^ (8 * k) = 2 ^ (8 * (k + 1)) by rw [Nat.mul_succ, Nat.pow_add]; ring]
      rw [leBytes, List.getElem?_cons_succ, ih (v / 256) (by omega), hdiv]

theorem extractLsb'_eq_ofNat (seq : SeqWord) (start : Nat) :
    seq.extractLsb' start 8 = BitVec.ofNat 8 (seq.toNat / 2 ^ start) := by
  rw [BitVec.extractLsb', Nat.shiftRight_eq_div_pow]

/-- Settles O40: the two fields of the record are the bytes of its two numbers. -/
theorem recordsAreLittleEndian : Obligations.RecordsAreLittleEndian := by
  intro c seq payload hfit
  refine ⟨encodeRecord_length c seq payload, fun k hk => ?_, fun k hk => ?_, decodeSeq_encodeRecord c seq payload, ?_⟩
  · rw [Config.encodeRecord, List.getElem?_append_left (by simpa [seqBytes] using hk), leBytes_getElem? (n := seqBytes) _ hk,
      extractLsb'_eq_ofNat]
  · rw [Config.encodeRecord, List.getElem?_append_right (by simp [seqBytes]), leBytes_length,
      show 4 + k - seqBytes = k by simp [seqBytes], leBytes_getElem? _ hk]
  · rw [decodePayload_encodeRecord, Nat.mod_eq_of_lt hfit]

end Sys2Proof.Machine
end

section
/-! SUPPORT. The requests of the sequencer, draw by draw (R62, R63, R203), and the parts of LOGINIT, LOGLAST and LOGAPPEND
that stand between two of them. -/

namespace Sys2Proof.Machine

/-! A slot is read. -/

section
variable {i : Nat} {s : State}

theorem readSlot_beyond (hi : s.cfg.nSlots ≤ i) : readSlot i s = (.outOfRange, beyond (slotRead s.cfg i) s) := by
  rcases readSlot_cases i s with ⟨-, h⟩ | ⟨hlt, -⟩
  · exact h
  · omega

theorem readSlot_ok (hi : i < s.cfg.nSlots) (hd : storeDraw s = .ok) :
    readSlot i s = (.ok (slotBytes s.cfg s.store.nv i), answered .ok (slotRead s.cfg i) s) := by
  rcases readSlot_cases i s with ⟨h, -⟩ | ⟨-, ⟨-, h⟩ | ⟨h, -⟩ | ⟨h, -⟩ | ⟨h, -⟩⟩
  · omega
  · exact h
  all_goals simp [hd] at h

theorem readSlot_fault (hi : i < s.cfg.nSlots) (hd : storeDraw s = .busError ∨ storeDraw s = .reserved) :
    readSlot i s = (.busError, answered .busError (slotRead s.cfg i) s) := by
  rcases readSlot_cases i s with ⟨h, -⟩ | ⟨-, ⟨h, -⟩ | ⟨-, h⟩ | ⟨h, -⟩ | ⟨h, -⟩⟩
  · omega
  · simp [h] at hd
  · exact h
  all_goals simp [h] at hd

theorem readSlot_silent (hi : i < s.cfg.nSlots) (hd : storeDraw s = .silent) :
    readSlot i s = (.silent, unanswered (slotRead s.cfg i) s) := by
  rcases readSlot_cases i s with ⟨h, -⟩ | ⟨-, ⟨h, -⟩ | ⟨h, -⟩ | ⟨h, -⟩ | ⟨-, h⟩⟩
  · omega
  · simp [hd] at h
  · simp [hd] at h
  · simp [hd] at h
  · exact h

/-! A record is written to a slot. -/

variable {record : List Byte} (hl : record.length = s.cfg.recordSize)
include hl

theorem writeSlot_beyond (hi : s.cfg.nSlots ≤ i) :
    writeSlot i record s = (.outOfRange, beyond (slotWrite s.cfg i record) s) := by
  rcases writeSlot_cases i record s hl with ⟨-, h⟩ | ⟨hlt, -⟩
  · exact h
  · omega

theorem writeSlot_ok (hi : i < s.cfg.nSlots) (hfit : s.cfg.sizesFit = true) (hd : storeDraw s = .ok) :
    writeSlot i record s =
      (.ok [], storeBytes (s.cfg.slotOffset i) record (answered .ok (slotWrite s.cfg i record) s)) := by
  rcases writeSlot_cases i record s hl with ⟨h, -⟩ | ⟨-, ⟨h, -⟩ | ⟨-, h⟩ | ⟨h, -⟩ | ⟨h, -⟩ | ⟨h, -⟩⟩
  · omega
  · simp [hfit] at h
  · exact h
  all_goals simp [hd] at h

/-- A fault may come from the draw or from the page (U6); either way it is answered, and the slot may hold any bytes. -/
theorem writeSlot_fault (hi : i < s.cfg.nSlots) (hd : storeDraw s = .busError ∨ storeDraw s = .reserved) :
    (writeSlot i record s).1 = .busError := by
  rcases writeSlot_cases i record s hl with ⟨h, -⟩ | ⟨-, ⟨-, h⟩ | ⟨h, -⟩ | ⟨-, h⟩ | ⟨h, -⟩ | ⟨h, -⟩⟩
  · omega
  · rw [h]
  · simp [h] at hd
  · rw [h]
  all_goals simp [h] at hd

theorem writeSlot_broken (hi : i < s.cfg.nSlots) (hfit : s.cfg.sizesFit = true) (hd : storeDraw s = .outOfRange) :
    writeSlot i record s =
      (.outOfRange,
        scramble (s.cfg.slotOffset i) s.cfg.recordSize (answered .outOfRange (slotWrite s.cfg i record) s)) := by
  rcases writeSlot_cases i record s hl with ⟨h, -⟩ | ⟨-, ⟨h, -⟩ | ⟨h, -⟩ | ⟨h, -⟩ | ⟨-, h⟩ | ⟨h, -⟩⟩
  · omega
  · simp [hfit] at h
  · simp [hd] at h
  · simp [hd] at h
  · exact h
  · simp [hd] at h

theorem writeSlot_silent (hi : i < s.cfg.nSlots) (hfit : s.cfg.sizesFit = true) (hd : storeDraw s = .silent) :
    writeSlot i record s = (.silent, unanswered (slotWrite s.cfg i record) s) := by
  rcases writeSlot_cases i record s hl with ⟨h, -⟩ | ⟨-, ⟨h, -⟩ | ⟨h, -⟩ | ⟨h, -⟩ | ⟨h, -⟩ | ⟨-, h⟩⟩
  · omega
  · simp [hfit] at h
  · simp [hd] at h
  · simp [hd] at h
  · simp [hd] at h
  · exact h

end

end Sys2Proof.Machine
end

section
/-! SUPPORT. LOGINIT and LOGLAST, from acceptance to response (R205 to R209, R234, D24): the run of consecutive counters that a
scan reads, and the ways it ends. -/

namespace Sys2Proof.Machine

/-! The reads of a scan. -/

theorem Scanned.none (i : Nat) (s : State) : Scanned i 0 s s :=
  ⟨⟨rfl, rfl, rfl, rfl, rfl, rfl⟩, rfl, Shows.of_trace_eq rfl⟩

/-- One more slot is read at the end of a scan. -/
theorem Scanned.snoc {i n : Nat} {s s1 s2 : State} (h : Scanned i n s s1) (h' : SlotWasRead (i + n) s1 s2) :
    Scanned i (n + 1) s s2 where
  only := ⟨h'.only.cfg.trans h.only.cfg, h'.only.bbm.trans h.only.bbm, h'.only.als.trans h.only.als,
    h'.only.ctl.trans h.only.ctl, h'.only.line.trans h.only.line, h'.only.host.trans h.only.host⟩
  nv := h'.nv.trans h.nv
  shows := by
    have hs := h.shows.trans h'.shows
    rw [h.only.cfg] at hs
    simpa [List.range_succ] using hs

/-- While each slot carries the counter after that of the slot before, the loop reads on (R206 step 3). -/
theorem scanFrom_run (n fuel a : Nat) (s : State) (hN : a + n < s.cfg.nSlots) (hworks : StoreWorks n s)
    (hrun : ∀ j, a ≤ j → j < a + n → slotSeq s.cfg s.store.nv (j + 1) = incSeq (slotSeq s.cfg s.store.nv j)) :
    ∃ s1, Scanned (a + 1) n s s1 ∧ s1.store.answers = s.store.answers.drop n ∧
      scanFrom (fuel + n) (a + 1) (slotSeq s.cfg s.store.nv a) s =
        scanFrom fuel (a + n + 1) (slotSeq s.cfg s.store.nv (a + n)) s1 := by
  induction n generalizing a s with
  | zero => exact ⟨s, Scanned.none _ s, rfl, rfl⟩
  | succ n ih =>
    obtain ⟨s1, hs1⟩ : ∃ s1, s1 = answered .ok (slotRead s.cfg (a + 1)) s := ⟨_, rfl⟩
    have hread : readSlot (a + 1) s = (.ok (slotBytes s.cfg s.store.nv (a + 1)), s1) := by
      rw [hs1]
      exact readSlot_ok (by omega) (hworks 0 (by omega))
    have hwas : SlotWasRead (a + 1) s s1 := hs1 ▸ answered_wasRead .ok (a + 1) s
    have htail : s1.store.answers = s.store.answers.tail := by rw [hs1]; rfl
    have hnext := ih (a + 1) s1 (by rw [hwas.only.cfg]; omega)
      (fun k hk => by rw [htail]; exact hworks (k + 1) (by omega))
      (fun j hj hlt => by rw [hwas.only.cfg, hwas.nv]; exact hrun j (by omega) (by omega))
    rw [hwas.only.cfg, hwas.nv] at hnext
    obtain ⟨s2, hscan, hdrop, hfrom⟩ := hnext
    refine ⟨s2, hwas.trans hscan, by rw [hdrop, htail, Draws.drop_succ], ?_⟩
    have hmatch := hrun a (Nat.le_refl a) (by omega)
    rw [show a + (n + 1) = a + 1 + n by omega, ← hfrom, ← Nat.add_assoc, scanFrom, hread]
    exact if_pos hmatch

/-- LOGINIT of a written device reads the slots of a run and stands at the next one (R206). -/
theorem loginitBody_run (m : Nat) (s : State) (hfit : s.cfg.sizesFit = true) (hN : m < s.cfg.nSlots)
    (hworks : StoreWorks (m + 1) s) (hwritten : slotSeq s.cfg s.store.nv 0 ≠ sentinel)
    (hrun : ∀ j, j < m → slotSeq s.cfg s.store.nv (j + 1) = incSeq (slotSeq s.cfg s.store.nv j)) :
    ∃ s1, Scanned 0 (m + 1) (setLogValid false s) s1 ∧ s1.store.answers = s.store.answers.drop (m + 1) ∧
      loginitBody s = scanFrom (s.cfg.nSlots - m) (m + 1) (slotSeq s.cfg s.store.nv m) s1 := by
  obtain ⟨s0, hs0⟩ : ∃ s0, s0 = answered .ok (slotRead s.cfg 0) (setLogValid false s) := ⟨_, rfl⟩
  have hread : readSlot 0 (setLogValid false s) = (.ok (slotBytes s.cfg s.store.nv 0), s0) := by
    rw [hs0]
    exact readSlot_ok (s := setLogValid false s) (show 0 < s.cfg.nSlots by omega) (hworks 0 (by omega))
  have hwas : SlotWasRead 0 (setLogValid false s) s0 := hs0 ▸ answered_wasRead .ok 0 (setLogValid false s)
  have hcfg : s0.cfg = s.cfg := hwas.only.cfg
  have hnv : s0.store.nv = s.store.nv := hwas.nv
  have htail : s0.store.answers = s.store.answers.tail := by rw [hs0]; rfl
  have hnext := scanFrom_run m (s.cfg.nSlots - m) 0 s0 (by rw [hcfg]; omega)
    (fun k hk => by rw [htail]; exact hworks (k + 1) (by omega))
    (fun j _ hlt => by rw [hcfg, hnv]; exact hrun j (by omega))
  simp only [hcfg, hnv, Nat.zero_add, Nat.sub_add_cancel (Nat.le_of_lt hN)] at hnext
  obtain ⟨s1, hscan, hdrop, hfrom⟩ := hnext
  refine ⟨s1, hwas.trans hscan, by rw [hdrop, htail, Draws.drop_succ], ?_⟩
  rw [← hfrom, loginitBody, if_pos hfit, scanStore, hread]
  exact if_neg hwritten

/-! The ends of a scan. -/

/-- What LOGINIT leaves when it found the break after `n` reads. -/
structure LoginitFinds (n : Nat) (offset : IndexWord) (seq : SeqWord) (s t : State) : Prop where
  responded : Responded s t .ok 0
  als : t.als = { writeOffset := offset, writeSequence := seq, logValid := true }
  nv : t.store.nv = s.store.nv
  shows : Shows s t [] [] ((List.range n).map (slotRead s.cfg)) [(.ok, 0)]

/-- What LOGINIT leaves when a fatal error ended it after `n` reads. -/
structure LoginitTraps (n : Nat) (e : FatalError) (s t : State) : Prop where
  trapped : Trapped t e
  als : t.als = { s.als with logValid := false }
  nv : t.store.nv = s.store.nv
  shows : Shows s t [] [] ((List.range n).map (slotRead s.cfg)) [(e.status, 0)]

section
variable {n : Nat} {s s1 : State} (h : Scanned 0 n (setLogValid false s) s1)
include h

theorem Scanned.fromLoginit : Shows s s1 [] [] ((List.range n).map (slotRead s.cfg)) [] := by
  simpa using (setLogValid_shows false s).trans h.shows

theorem Scanned.finds (offset : IndexWord) (seq : SeqWord) : LoginitFinds n offset seq s (finishScan offset seq s1) where
  responded := respond_responded h.only.ctl .ok 0
  als := rfl
  nv := h.nv
  shows := by simpa using h.fromLoginit.trans (finishScan_shows offset seq s1)

theorem Scanned.traps (e : FatalError) : LoginitTraps n e s (raise e s1) where
  trapped := raise_trapped e s1
  als := h.only.als
  nv := h.nv
  shows := by simpa using h.fromLoginit.trans (raise_shows e s1)

end

theorem loginitBody_virgin (s : State) (hfit : s.cfg.sizesFit = true) (hN : 0 < s.cfg.nSlots)
    (hvirgin : slotSeq s.cfg s.store.nv 0 = sentinel) (hd : storeDraw s = .ok) : LoginitFinds 1 0 0 s (loginitBody s) := by
  have hread := readSlot_ok (s := setLogValid false s) (i := 0) hN hd
  have hbody : loginitBody s = finishScan 0 0 (answered .ok (slotRead s.cfg 0) (setLogValid false s)) := by
    rw [loginitBody, if_pos hfit, scanStore, hread]
    exact if_pos hvirgin
  rw [hbody]
  exact (answered_wasRead .ok 0 (setLogValid false s)).scanned.finds 0 0

/-- The run ends before slot `m + 1`, at a break or at the end of the device (R206, R207). -/
theorem loginitBody_break (m : Nat) (s : State) (hfit : s.cfg.sizesFit = true) (hN : m < s.cfg.nSlots)
    (hworks : StoreWorks (m + 2) s) (hwritten : slotSeq s.cfg s.store.nv 0 ≠ sentinel)
    (hrun : ∀ j, j < m → slotSeq s.cfg s.store.nv (j + 1) = incSeq (slotSeq s.cfg s.store.nv j))
    (hbreak : m + 1 < s.cfg.nSlots → slotSeq s.cfg s.store.nv (m + 1) ≠ incSeq (slotSeq s.cfg s.store.nv m)) :
    LoginitFinds (m + 2) (if m + 1 < s.cfg.nSlots then BitVec.ofNat 32 (m + 1) else 0)
      (incSeq (slotSeq s.cfg s.store.nv m)) s (loginitBody s) := by
  obtain ⟨s1, hscan, hdrop, hbody⟩ := loginitBody_run m s hfit hN (fun k hk => hworks k (by omega)) hwritten hrun
  have hcfg : s1.cfg = s.cfg := hscan.only.cfg
  have hnv : s1.store.nv = s.store.nv := hscan.nv
  obtain ⟨fuel, hfuel⟩ : ∃ fuel, s.cfg.nSlots - m = fuel + 1 := ⟨s.cfg.nSlots - m - 1, by omega⟩
  rw [hbody, hfuel]
  by_cases hlt : m + 1 < s.cfg.nSlots
  · have hdraw : storeDraw s1 = .ok := by
      rw [storeDraw, hdrop]
      exact hworks (m + 1) (by omega)
    have hread := readSlot_ok (hcfg ▸ hlt) hdraw
    rw [hcfg, hnv] at hread
    have hend : scanFrom (fuel + 1) (m + 1) (slotSeq s.cfg s.store.nv m) s1 =
        finishScan (BitVec.ofNat 32 (m + 1)) (incSeq (slotSeq s.cfg s.store.nv m))
          (answered .ok (slotRead s.cfg (m + 1)) s1) := by
      rw [scanFrom, hread]
      exact if_neg (hbreak hlt)
    rw [hend, if_pos hlt]
    have hwas := answered_wasRead .ok (m + 1) s1
    rw [hcfg] at hwas
    exact (hscan.snoc (by rw [Nat.zero_add]; exact hwas)).finds _ _
  · have hread := readSlot_beyond (i := m + 1) (s := s1) (by rw [hcfg]; omega)
    rw [scanFrom, hread]
    simp only [if_neg hlt]
    exact (hscan.snoc (by rw [Nat.zero_add]; exact beyond_wasRead (m + 1) s1)).finds _ _

/-! LOGINIT, by these. -/

/-- Settles O41. -/
theorem loginitOfAVirginDevice : Obligations.LoginitOfAVirginDevice := by
  intro s hready hfit hvirgin hd
  have h := loginitBody_virgin (busy s) hfit (nSlots_pos _ _ hready.config_ok) hvirgin hd
  exact ⟨_, exec_ready .loginit s hready trivial, h.responded.of_busy, h.als, (loginitBody_frame (busy s)).1.of_busy, h.nv,
    h.shows⟩

/-- Settles O42: the run of `b` slots, and the read that ends it. -/
theorem loginitFindsTheFirstBreak : Obligations.LoginitFindsTheFirstBreak := by
  intro s b hready hfit hb hbN hwritten hrun hbreak hworks
  obtain ⟨m, rfl⟩ : ∃ m, b = m + 1 := ⟨b - 1, by omega⟩
  have h := loginitBody_break m (busy s) hfit hbN hworks hwritten (fun j hj => hrun j (by omega)) hbreak
  exact ⟨_, exec_ready .loginit s hready trivial, h.responded.of_busy, h.als, (loginitBody_frame (busy s)).1.of_busy, h.nv,
    h.shows⟩

/-- Settles O43, by the ways a scan can end. -/
theorem loginitIsBounded : Obligations.LoginitIsBounded := by
  intro s t hready ht
  rw [exec_eq_body .loginit s t hready trivial ht]
  obtain ⟨hframe, hnv⟩ := loginitBody_frame (busy s)
  refine ⟨hframe.of_busy, hnv, ?_⟩
  rcases loginitBody_cases (busy s) (nSlots_pos _ _ hready.config_ok) with ⟨-, he⟩ | ⟨-, n, s1, hn, hscan, hends⟩
  · have h := (Scanned.none 0 (setLogValid false (busy s))).traps .invariantViolation
    rw [bodyOf, he]
    exact ⟨0, _, Nat.zero_le _, h.shows, .inr (.inl ⟨⟨_, h.trapped, rfl⟩, h.als⟩)⟩
  · rcases hends with ⟨offset, seq, he, -⟩ | ⟨he, -⟩ | ⟨he, hp⟩ <;> rw [bodyOf, he]
    · have h := hscan.finds offset seq
      exact ⟨n, _, hn, h.shows, .inl ⟨rfl, h.responded.of_busy, by rw [h.als]⟩⟩
    · have h := hscan.traps .busError
      exact ⟨n, _, hn, h.shows, .inr (.inl ⟨⟨_, h.trapped, rfl⟩, h.als⟩)⟩
    · exact ⟨n, _, hn, hscan.fromLoginit, .inr (.inr ⟨rfl, congrArg Ctl.cmdReady hscan.only.ctl, hp, hscan.only.als⟩)⟩

/-- Settles O44. -/
theorem loginitChecksTheSizes : Obligations.LoginitChecksTheSizes := by
  intro s hready hsizes
  have hfit : s.cfg.sizesFit ≠ true := by simpa [Config.sizesFit] using hsizes
  have hbody : loginitBody (busy s) = raise .invariantViolation (setLogValid false (busy s)) := if_neg hfit
  refine ⟨_, exec_ready .loginit s hready trivial, ?_⟩
  rw [bodyOf, hbody]
  exact ⟨rfl, rfl, rfl, rfl, rfl, ⟨rfl, rfl, rfl, rfl⟩, rfl,
    ((Scanned.none 0 (setLogValid false (busy s))).traps .invariantViolation).shows⟩

/-! LOGLAST (R208). -/

/-- The newest record is read (R208, R209). -/
theorem loglastBody_reads (s : State) (h0 : s.als.writeOffset ≠ 0) (hN : s.als.writeOffset.toNat ≤ s.cfg.nSlots)
    (hd : storeDraw s = .ok) :
    loglastBody s =
      respond .ok
        (if slotSeq s.cfg s.store.nv (s.als.writeOffset.toNat - 1) = sentinel then 0
          else slotPayload s.cfg s.store.nv (s.als.writeOffset.toNat - 1))
        (answered .ok (slotRead s.cfg (s.als.writeOffset.toNat - 1)) s) := by
  have hpos : s.als.writeOffset.toNat ≠ 0 := fun h => h0 (BitVec.eq_of_toNat_eq h)
  rw [loglastBody, if_neg h0, readSlot_ok (by omega) hd]
  by_cases hz : slotSeq s.cfg s.store.nv (s.als.writeOffset.toNat - 1) = sentinel
  · rw [if_pos hz]
    exact if_pos hz
  · rw [if_neg hz]
    exact if_neg hz

/-- Settles O45. -/
theorem loglastReturnsTheNewest : Obligations.LoglastReturnsTheNewest := by
  intro s hready hvalid hN
  have hexec := exec_ready .loglast s hready hvalid
  have hframe := (loglastBody_frame (busy s)).1.of_busy
  constructor
  · intro h0
    have hbody : loglastBody (busy s) = respond .ok 0 (busy s) := if_pos h0
    rw [bodyOf, hbody] at hexec
    rw [hbody] at hframe
    exact ⟨_, hexec, respond_responded (s := s) (u := s) rfl .ok 0, rfl, hframe, rfl, respond_shows .ok 0 (busy s)⟩
  · intro h0 hd
    have hbody := loglastBody_reads (busy s) h0 hN hd
    rw [bodyOf, hbody] at hexec
    rw [hbody] at hframe
    have hwas := answered_wasRead .ok (s.als.writeOffset.toNat - 1) (busy s)
    exact ⟨_, _, hexec, (respond_responded hwas.only.ctl .ok _).of_busy, hwas.only.als, hframe, hwas.nv,
      hwas.shows.trans (respond_shows .ok _ _), rfl⟩

/-! Failed reads (R234, D24). -/

/-- The first read of LOGINIT and the read of LOGLAST fail with either answer but Ok. -/
theorem readSlot_fails (i : Nat) (s : State)
    (hd : storeDraw s = .busError ∨ storeDraw s = .reserved ∨ storeDraw s = .outOfRange) :
    ∃ s1, SlotWasRead i s s1 ∧ (readSlot i s = (.busError, s1) ∨ readSlot i s = (.outOfRange, s1)) := by
  rcases readSlot_cases i s with ⟨-, h⟩ | ⟨-, ⟨hok, -⟩ | ⟨-, h⟩ | ⟨-, h⟩ | ⟨hsilent, -⟩⟩
  · exact ⟨_, beyond_wasRead i s, .inr h⟩
  · simp [hok] at hd
  · exact ⟨_, answered_wasRead _ i s, .inl h⟩
  · exact ⟨_, answered_wasRead _ i s, .inr h⟩
  · simp [hsilent] at hd

theorem loginitBody_fails_first (s : State) (hfit : s.cfg.sizesFit = true)
    (hd : storeDraw s = .busError ∨ storeDraw s = .reserved ∨ storeDraw s = .outOfRange) :
    LoginitTraps 1 .busError s (loginitBody s) := by
  obtain ⟨s1, hwas, hread⟩ := readSlot_fails 0 (setLogValid false s) hd
  have hbody : loginitBody s = raise .busError s1 := by
    rw [loginitBody, if_pos hfit, scanStore]
    rcases hread with hread | hread <;> rw [hread]
  rw [hbody]
  exact hwas.scanned.traps .busError

theorem loginitBody_fails_later (m : Nat) (s : State) (hfit : s.cfg.sizesFit = true) (hN : m + 1 < s.cfg.nSlots)
    (hworks : StoreWorks (m + 1) s) (hwritten : slotSeq s.cfg s.store.nv 0 ≠ sentinel)
    (hrun : ∀ j, j < m → slotSeq s.cfg s.store.nv (j + 1) = incSeq (slotSeq s.cfg s.store.nv j))
    (hd : s.store.answers.nth freeStoreDraw (m + 1) = .busError ∨ s.store.answers.nth freeStoreDraw (m + 1) = .reserved) :
    LoginitTraps (m + 2) .busError s (loginitBody s) := by
  obtain ⟨s1, hscan, hdrop, hbody⟩ := loginitBody_run m s hfit (by omega) hworks hwritten hrun
  have hcfg : s1.cfg = s.cfg := hscan.only.cfg
  have hdraw : storeDraw s1 = .busError ∨ storeDraw s1 = .reserved := by
    rw [storeDraw, hdrop]
    exact hd
  obtain ⟨fuel, hfuel⟩ : ∃ fuel, s.cfg.nSlots - m = fuel + 1 := ⟨s.cfg.nSlots - m - 1, by omega⟩
  rw [hbody, hfuel, scanFrom, readSlot_fault (by rw [hcfg]; omega) hdraw]
  exact (hscan.snoc (by rw [Nat.zero_add]; exact answered_wasRead .busError (m + 1) s1)).traps .busError

theorem loglastBody_fails (s : State) (h0 : s.als.writeOffset ≠ 0)
    (hd : storeDraw s = .busError ∨ storeDraw s = .reserved ∨ storeDraw s = .outOfRange) :
    ∃ s1, loglastBody s = raise .busError s1 := by
  obtain ⟨s1, -, hread⟩ := readSlot_fails (s.als.writeOffset.toNat - 1) s hd
  refine ⟨s1, ?_⟩
  rw [loglastBody, if_neg h0]
  rcases hread with hread | hread <;> rw [hread]

/-- Settles O48: LOGINIT by the read that fails, the first or a later one; LOGLAST by its one read. -/
theorem readFailureIsFatal : Obligations.ReadFailureIsFatal := by
  intro s hready
  refine ⟨fun k hfit hk hworks hd hwritten hrun => ?_, fun hd hvalid h0 => ?_⟩
  · have h : LoginitTraps (k + 1) .busError (busy s) (loginitBody (busy s)) := by
      cases k with
      | zero =>
        refine loginitBody_fails_first (busy s) hfit ?_
        rcases hd with hd | hd | ⟨-, hd⟩
        · exact .inl hd
        · exact .inr (.inl hd)
        · exact .inr (.inr hd)
      | succ m =>
        refine loginitBody_fails_later m (busy s) hfit hk hworks (hwritten (by omega)) (fun j hj => hrun j (by omega)) ?_
        rcases hd with hd | hd | ⟨h0, -⟩
        · exact .inl hd
        · exact .inr hd
        · omega
    exact ⟨_, exec_ready .loginit s hready trivial, h.trapped, by rw [bodyOf, h.trapped.1]; rfl, h.als,
      (loginitBody_frame (busy s)).1.of_busy, h.nv, h.shows⟩
  · obtain ⟨hframe, hnv, hals⟩ := loglastBody_frame (busy s)
    obtain ⟨s1, hbody⟩ := loglastBody_fails (busy s) h0 hd
    refine ⟨_, exec_ready .loglast s hready hvalid, ?_, ?_, hals, hframe.of_busy, hnv⟩ <;> rw [bodyOf, hbody]
    · exact raise_trapped .busError s1
    · rfl

end Sys2Proof.Machine
end

section
/-! SUPPORT. LOGAPPEND, from acceptance to its end (R210, R211, R234, D24, U7): the write that carries the record, at the slot
WRITE_OFFSET names or at slot 0 after one retry, the writes that fail, and the requests that are never answered. -/

namespace Sys2Proof.Machine

/-! The first write is answered AddressOutOfRange. -/

/-- What that answer to the write of slot `i` leaves. -/
structure WriteRefused (i : Nat) (record : List Byte) (s u : State) : Prop where
  write : writeSlot i record s = (.outOfRange, u)
  only : StoreOnly s u
  wf : Memory.wf s.store.nv = true → Memory.wf u.store.nv = true
  others : ∀ a, (a < s.cfg.slotOffset i ∨ s.cfg.slotOffset i + s.cfg.recordSize ≤ a) →
    Memory.read u.store.nv a = Memory.read s.store.nv a
  shows : Shows s u [] [] [slotWrite s.cfg i record] []

section
variable {i : Nat} {record : List Byte} {s u : State} (hl : record.length = s.cfg.recordSize)
include hl

theorem WriteRefused.of_write (h : writeSlot i record s = (.outOfRange, u)) : WriteRefused i record s u := by
  have hu : u = (writeSlot i record s).2 := by rw [h]
  subst hu
  exact ⟨h, memWrite_storeOnly _ record s, memWrite_wf _ record s,
    fun a ha => memWrite_read_other _ record s a (by rw [hl]; exact ha), writeSlot_shows i record s⟩

theorem refused_beyond (hge : s.cfg.nSlots ≤ i) :
    ∃ u, WriteRefused i record s u ∧ u.store.nv = s.store.nv ∧ u.store.answers = s.store.answers :=
  ⟨_, WriteRefused.of_write hl (writeSlot_beyond hl hge), rfl, rfl⟩

theorem refused_broken (hfit : s.cfg.sizesFit = true) (hlt : i < s.cfg.nSlots) (hd : storeDraw s = .outOfRange) :
    ∃ u, WriteRefused i record s u ∧ u.store.answers = s.store.answers.tail :=
  ⟨_, WriteRefused.of_write hl (writeSlot_broken hl hlt hfit hd), rfl⟩

end

/-! The record is written. -/

/-- The last write of an append that succeeds, from the state in which WRITE_OFFSET names its slot (R210). -/
def appendedAt (record : List Byte) (u : State) : State :=
  finishAppend
    (storeBytes (u.cfg.slotOffset u.als.writeOffset.toNat) record
      (answered .ok (slotWrite u.cfg u.als.writeOffset.toNat record) u))

theorem logappendBody_ok (din : Nat) (s : State) (hfit : s.cfg.sizesFit = true)
    (hlt : s.als.writeOffset.toNat < s.cfg.nSlots) (hd : storeDraw s = .ok) :
    logappendBody din s = appendedAt (s.cfg.encodeRecord s.als.writeSequence din) s := by
  simp only [logappendBody, writeSlot_ok (encodeRecord_length _ _ _) hlt hfit hd]
  rfl

theorem logappendBody_retry {din : Nat} {s u : State}
    (h : writeSlot s.als.writeOffset.toNat (s.cfg.encodeRecord s.als.writeSequence din) s = (.outOfRange, u)) :
    logappendBody din s = retryAppend (s.cfg.encodeRecord s.als.writeSequence din) u := by
  simp only [logappendBody, h]

theorem retryAppend_ok {record : List Byte} {u : State} (hl : record.length = u.cfg.recordSize)
    (hfit : u.cfg.sizesFit = true) (hN : 0 < u.cfg.nSlots) (hd : storeDraw u = .ok) :
    retryAppend record u = appendedAt record (setWriteOffset 0 u) := by
  have hwrite := writeSlot_ok (s := setWriteOffset 0 u) (i := 0) hl hN hfit hd
  simp only [retryAppend, hwrite]
  rfl

/-- What an append leaves: `slot` is where the record went, `u` the state in which its write began. -/
structure Appended (record : List Byte) (slot : Nat) (s u t : State) : Prop where
  responded : Responded s t .ok slot
  als : t.als =
    { writeOffset := BitVec.ofNat 32 (slot + 1)
      writeSequence := incSeq s.als.writeSequence
      logValid := s.als.logValid }
  bytes : slotBytes s.cfg t.store.nv slot = record
  others : ∀ a, (a < s.cfg.slotOffset slot ∨ s.cfg.slotOffset slot + s.cfg.recordSize ≤ a) →
    Memory.read t.store.nv a = Memory.read u.store.nv a
  answers : t.store.answers = u.store.answers.tail
  shows : Shows u t [] [] [slotWrite s.cfg slot record] [(.ok, slot)]

/-- An append whose last write begins where the log registers name the slot. -/
theorem appendedAt_appended {record : List Byte} {slot : Nat} {s u : State} (hcfg : u.cfg = s.cfg) (hctl : u.ctl = s.ctl)
    (hals : u.als = { s.als with writeOffset := BitVec.ofNat 32 slot }) (hslot : slot < 2 ^ 32)
    (hl : record.length = s.cfg.recordSize) (hwf : Memory.wf u.store.nv = true) :
    Appended record slot s u (appendedAt record u) := by
  have hoff : u.als.writeOffset = BitVec.ofNat 32 slot := by rw [hals]
  have hnat : u.als.writeOffset.toNat = slot := by rw [hoff, BitVec.toNat_ofNat, Nat.mod_eq_of_lt hslot]
  have hnv : (appendedAt record u).store.nv = Memory.writeBytes u.store.nv (s.cfg.slotOffset slot) record := by
    rw [← hcfg, ← hnat]
    rfl
  refine ⟨?_, ?_, ?_, fun a ha => ?_, rfl, ?_⟩
  · rw [← hnat]
    exact respond_responded hctl .ok _
  · have hnext : (appendedAt record u).als =
        { u.als with writeOffset := u.als.writeOffset + 1, writeSequence := incSeq u.als.writeSequence } := rfl
    rw [hnext, hals, BitVec.ofNat_add]
    rfl
  · rw [hnv, slotBytes, ← hl, Memory.readBytes_writeBytes_same record _ _ hwf]
  · rw [hnv, Memory.read_writeBytes_other _ _ _ _ (by rw [hl]; exact ha)]
  · have hrequest : Shows u (answered .ok (slotWrite u.cfg u.als.writeOffset.toNat record) u) [] []
        [slotWrite u.cfg u.als.writeOffset.toNat record] [] := ⟨[.request _, .answer .ok], rfl, rfl, rfl, rfl, rfl⟩
    rw [← hcfg, ← hnat]
    exact hrequest.trans (finishAppend_shows _)

section
variable {s : State} (din : Nat) (hok : s.cfg.ok s.bbm.speed = true) (hfit : s.cfg.sizesFit = true)
  (hwf : Memory.wf s.store.nv = true)
include hok hfit hwf

/-- With a working store the record goes to the slot WRITE_OFFSET names, or to slot 0 when it names none (R210, R211). -/
theorem logappendBody_appended (hd : storeDraw s = .ok) :
    ∃ u, Appended (s.cfg.encodeRecord s.als.writeSequence din) (appendSlot s) s u (logappendBody din s) ∧
      u.store.nv = s.store.nv ∧ u.store.answers = s.store.answers ∧
      Shows s u [] []
        (if s.als.writeOffset.toNat < s.cfg.nSlots then []
          else [slotWrite s.cfg s.als.writeOffset.toNat (s.cfg.encodeRecord s.als.writeSequence din)]) [] := by
  by_cases hlt : s.als.writeOffset.toNat < s.cfg.nSlots
  · rw [logappendBody_ok din s hfit hlt hd, appendSlot, if_pos hlt, if_pos hlt]
    exact ⟨s, appendedAt_appended rfl rfl (by rw [BitVec.ofNat_toNat, BitVec.setWidth_eq]) s.als.writeOffset.isLt
      (encodeRecord_length _ _ _) hwf, rfl, rfl, Shows.of_trace_eq rfl⟩
  · obtain ⟨u, hrefused, hnv, hanswers⟩ :=
      refused_beyond (encodeRecord_length s.cfg s.als.writeSequence din) (Nat.not_lt.1 hlt)
    have hcfg := hrefused.only.cfg
    rw [logappendBody_retry hrefused.write, appendSlot, if_neg hlt, if_neg hlt,
      retryAppend_ok (by rw [hcfg, encodeRecord_length]) (hcfg ▸ hfit) (hcfg ▸ nSlots_pos _ _ hok)
        (by rw [storeDraw, hanswers]; exact hd)]
    exact ⟨setWriteOffset 0 u,
      appendedAt_appended hcfg hrefused.only.ctl (by rw [setWriteOffset, hrefused.only.als]; rfl) (Nat.two_pow_pos 32)
        (encodeRecord_length _ _ _) (hrefused.wf hwf),
      hnv, hanswers, hrefused.shows.trans (setWriteOffset_shows 0 u)⟩

/-- A store that breaks its contract and answers the first write AddressOutOfRange in range (R210, D24). -/
theorem logappendBody_appended_broken (hlt : s.als.writeOffset.toNat < s.cfg.nSlots) (hd : storeDraw s = .outOfRange)
    (hd' : s.store.answers.nth freeStoreDraw 1 = .ok) :
    ∃ u, Appended (s.cfg.encodeRecord s.als.writeSequence din) 0 s u (logappendBody din s) ∧
      (∀ a, (a < s.cfg.slotOffset s.als.writeOffset.toNat ∨
          s.cfg.slotOffset s.als.writeOffset.toNat + s.cfg.recordSize ≤ a) →
        Memory.read u.store.nv a = Memory.read s.store.nv a) ∧
      Shows s u [] [] [slotWrite s.cfg s.als.writeOffset.toNat (s.cfg.encodeRecord s.als.writeSequence din)] [] := by
  obtain ⟨u, hrefused, hanswers⟩ :=
    refused_broken (encodeRecord_length s.cfg s.als.writeSequence din) hfit hlt hd
  have hcfg := hrefused.only.cfg
  rw [logappendBody_retry hrefused.write,
    retryAppend_ok (by rw [hcfg, encodeRecord_length]) (hcfg ▸ hfit) (hcfg ▸ nSlots_pos _ _ hok)
      (by rw [storeDraw, hanswers]; exact hd')]
  exact ⟨setWriteOffset 0 u,
    appendedAt_appended hcfg hrefused.only.ctl (by rw [setWriteOffset, hrefused.only.als]; rfl) (Nat.two_pow_pos 32)
      (encodeRecord_length _ _ _) (hrefused.wf hwf),
    hrefused.others, hrefused.shows.trans (setWriteOffset_shows 0 u)⟩

end

theorem slotOffset_zero (c : Config) : c.slotOffset 0 = 0 := Nat.zero_mul _

/-- Settles O46: the append of a store that breaks its contract once, and that of a working store. -/
theorem logappendWritesOneRecord : Obligations.LogappendWritesOneRecord := by
  intro s din hready hvalid hfit hwf
  have hexec := exec_ready (.logappend din) s hready hvalid
  have hframe := (logappendBody_alsFrame din (busy s)).of_busy
  refine ⟨fun hd hlt hd' => ⟨_, hexec, ?_⟩, fun hd => ⟨_, hexec, ?_⟩⟩
  · obtain ⟨u, h, hothers, hshows⟩ := logappendBody_appended_broken (s := busy s) din hready.config_ok hfit hwf hlt hd hd'
    refine ⟨h.responded.of_busy, h.als.trans (by rw [← hvalid]; rfl), hframe, h.bytes, fun a ha hout => ?_,
      hshows.trans h.shows⟩
    rw [appendSlot, if_pos hlt] at hout
    have hslot0 : s.cfg.slotOffset 0 + s.cfg.recordSize ≤ a := by rwa [slotOffset_zero, Nat.zero_add]
    exact (h.others a (.inr hslot0)).trans (hothers a hout)
  · obtain ⟨u, h, hnv, -, hshows⟩ := logappendBody_appended (s := busy s) din hready.config_ok hfit hwf hd
    exact ⟨h.responded.of_busy, h.als.trans (by rw [← hvalid]; rfl), hframe, h.bytes,
      fun a ha => (h.others a ha).trans (by rw [hnv]; rfl), hshows.trans h.shows⟩

/-! Failed writes (R210, R234, D24). -/

/-- What the fatal error of a failed write of slot `i` leaves, from the state `u` in which the write began. -/
structure WriteTraps (i : Nat) (u t : State) : Prop where
  trapped : Trapped t .busError
  als : t.als = u.als
  others : ∀ a, (a < u.cfg.slotOffset i ∨ u.cfg.slotOffset i + u.cfg.recordSize ≤ a) →
    Memory.read t.store.nv a = Memory.read u.store.nv a

theorem raise_writeSlot (i : Nat) {record : List Byte} {u : State} (hl : record.length = u.cfg.recordSize) :
    WriteTraps i u (raise .busError (writeSlot i record u).2) :=
  ⟨raise_trapped _ _, (memWrite_storeOnly _ record u).als, fun a ha => memWrite_read_other _ record u a (by rw [hl]; exact ha)⟩

/-- A write that meets a fault or a broken contract is not carried out. -/
theorem writeSlot_fails (i : Nat) {record : List Byte} {s : State} (hl : record.length = s.cfg.recordSize)
    (hd : storeDraw s ∈ [StoreDraw.busError, .reserved, .outOfRange]) :
    (writeSlot i record s).1 = .busError ∨ (writeSlot i record s).1 = .outOfRange := by
  rcases writeSlot_cases i record s hl with ⟨-, h⟩ | ⟨-, ⟨-, h⟩ | ⟨hok, -⟩ | ⟨-, h⟩ | ⟨-, h⟩ | ⟨hsilent, -⟩⟩
  · rw [h]; exact .inr rfl
  · rw [h]; exact .inl rfl
  · simp [hok] at hd
  · rw [h]; exact .inl rfl
  · rw [h]; exact .inr rfl
  · simp [hsilent] at hd

/-- The retry fails with either answer but Ok (R210, D24). -/
theorem retryAppend_fails {record : List Byte} {u : State} (hl : record.length = u.cfg.recordSize)
    (hd : storeDraw u ∈ [StoreDraw.busError, .reserved, .outOfRange]) :
    WriteTraps 0 (setWriteOffset 0 u) (retryAppend record u) := by
  have htraps := raise_writeSlot 0 (u := setWriteOffset 0 u) hl
  have hfails := writeSlot_fails 0 (s := setWriteOffset 0 u) hl hd
  obtain ⟨⟨reply, v⟩, hv⟩ : ∃ p, writeSlot 0 record (setWriteOffset 0 u) = p := ⟨_, rfl⟩
  rw [hv] at htraps hfails
  rcases hfails with rfl | rfl <;> simpa only [retryAppend, hv] using htraps

/-- The first write fails in range: a bus fault (R210). -/
theorem logappendBody_fault (din : Nat) (s : State) (hlt : s.als.writeOffset.toNat < s.cfg.nSlots)
    (hd : storeDraw s = .busError ∨ storeDraw s = .reserved) :
    WriteTraps s.als.writeOffset.toNat s (logappendBody din s) := by
  have hl := encodeRecord_length s.cfg s.als.writeSequence din
  have htraps := raise_writeSlot s.als.writeOffset.toNat hl
  have hfault := writeSlot_fault hl hlt hd
  obtain ⟨⟨reply, v⟩, hv⟩ :
    ∃ p, writeSlot s.als.writeOffset.toNat (s.cfg.encodeRecord s.als.writeSequence din) s = p := ⟨_, rfl⟩
  rw [hv] at htraps hfault
  obtain rfl : reply = .busError := hfault
  simpa only [logappendBody, hv] using htraps

/-- What an append leaves whose first write, of slot `i`, is answered AddressOutOfRange and whose retry fails. -/
theorem logappendBody_retry_fails {din : Nat} {s u : State}
    (hrefused : WriteRefused s.als.writeOffset.toNat (s.cfg.encodeRecord s.als.writeSequence din) s u)
    (hd : storeDraw u ∈ [StoreDraw.busError, .reserved, .outOfRange]) :
    Trapped (logappendBody din s) .busError ∧ (logappendBody din s).als = { s.als with writeOffset := 0 } ∧
      ∀ a, s.cfg.recordSize ≤ a → Memory.read (logappendBody din s).store.nv a = Memory.read u.store.nv a := by
  have hcfg := hrefused.only.cfg
  have hl : (s.cfg.encodeRecord s.als.writeSequence din).length = u.cfg.recordSize := by rw [hcfg, encodeRecord_length]
  have h := retryAppend_fails hl hd
  rw [← logappendBody_retry hrefused.write] at h
  refine ⟨h.trapped, h.als.trans (by rw [setWriteOffset, hrefused.only.als]), fun a ha => h.others a (.inr ?_)⟩
  rw [setWriteOffset_cfg, hcfg, slotOffset_zero, Nat.zero_add]
  exact ha

/-- Settles O47: the fault on the first write, the wrap whose retry fails, and the broken contract whose retry fails. -/
theorem logappendBusFaultIsFatal : Obligations.LogappendBusFaultIsFatal := by
  have hl (s : State) (din : Nat) := encodeRecord_length s.cfg s.als.writeSequence din
  intro s din hready hvalid
  have hexec := exec_ready (.logappend din) s hready hvalid
  have hframe := (logappendBody_alsFrame din (busy s)).of_busy
  refine ⟨fun hd => ⟨_, hexec, ?_⟩, fun hd hfit hd' => ⟨_, hexec, ?_⟩⟩ <;> rw [bodyOf] <;>
    by_cases hlt : s.als.writeOffset.toNat < s.cfg.nSlots
  · have h := logappendBody_fault din (busy s) hlt hd
    rw [appendSlot, if_pos hlt, if_pos hlt]
    exact ⟨h.trapped, by rw [h.trapped.1]; rfl, h.als, hframe, h.others⟩
  · obtain ⟨u, hrefused, hnv, hanswers⟩ := refused_beyond (s := busy s) (hl s din) (Nat.not_lt.1 hlt)
    have hfails : storeDraw s ∈ [StoreDraw.busError, .reserved, .outOfRange] := by rcases hd with hd | hd <;> simp [hd]
    obtain ⟨htrapped, hals, hothers⟩ := logappendBody_retry_fails (s := busy s) hrefused
      (by rw [storeDraw, hanswers]; exact hfails)
    rw [appendSlot, if_neg hlt, if_neg hlt, slotOffset_zero, Nat.zero_add]
    refine ⟨htrapped, by rw [htrapped.1]; rfl, hals, hframe, fun a ha => (hothers a ?_).trans (by rw [hnv]; rfl)⟩
    exact ha.resolve_left (Nat.not_lt_zero a)
  · obtain ⟨u, hrefused, hanswers⟩ := refused_broken (s := busy s) (hl s din) hfit hlt hd
    obtain ⟨htrapped, hals, hothers⟩ := logappendBody_retry_fails (s := busy s) hrefused
      (by rw [storeDraw, hanswers]; exact hd' hlt)
    rw [appendSlot, if_pos hlt]
    exact ⟨htrapped, by rw [htrapped.1]; rfl, hals, hframe,
      fun a ha hout => (hothers a ha).trans (hrefused.others a hout)⟩
  · obtain ⟨u, hrefused, hnv, hanswers⟩ := refused_beyond (s := busy s) (hl s din) (Nat.not_lt.1 hlt)
    have hfails : storeDraw s ∈ [StoreDraw.busError, .reserved, .outOfRange] := by simp [hd]
    obtain ⟨htrapped, hals, hothers⟩ := logappendBody_retry_fails (s := busy s) hrefused
      (by rw [storeDraw, hanswers]; exact hfails)
    exact ⟨htrapped, by rw [htrapped.1]; rfl, hals, hframe, fun a ha _ => (hothers a ha).trans (by rw [hnv]; rfl)⟩

/-! A store that never answers (R241, U7). -/

/-- No response, the request outstanding, NV as it was. -/
structure Stuck (s t : State) : Prop where
  ctl : t.ctl = s.ctl
  pending : t.store.pending ≠ none
  nv : t.store.nv = s.store.nv

theorem unanswered_stuck (r : StoreRequest) {s u : State} (hctl : u.ctl = s.ctl) (hnv : u.store.nv = s.store.nv) :
    Stuck s (unanswered r u) :=
  ⟨hctl, nofun, hnv⟩

section
variable {s : State} (hN : 0 < s.cfg.nSlots) (hfit : s.cfg.sizesFit = true) (hd : storeDraw s = .silent)
include hd

theorem loglastBody_stuck (h0 : s.als.writeOffset ≠ 0) (hle : s.als.writeOffset.toNat ≤ s.cfg.nSlots) :
    Stuck s (loglastBody s) := by
  have hpos : s.als.writeOffset.toNat ≠ 0 := fun h => h0 (BitVec.eq_of_toNat_eq h)
  rw [loglastBody, if_neg h0, readSlot_silent (by omega) hd]
  exact unanswered_stuck _ rfl rfl

include hN hfit

theorem loginitBody_stuck : Stuck s (loginitBody s) := by
  rw [loginitBody, if_pos hfit, scanStore, readSlot_silent (s := setLogValid false s) hN hd]
  exact unanswered_stuck _ rfl rfl

theorem logappendBody_stuck (din : Nat) : Stuck s (logappendBody din s) := by
  have hl := encodeRecord_length s.cfg s.als.writeSequence din
  by_cases hlt : s.als.writeOffset.toNat < s.cfg.nSlots
  · simp only [logappendBody, writeSlot_silent hl hlt hfit hd]
    exact unanswered_stuck _ rfl rfl
  · obtain ⟨u, hrefused, hnv, hanswers⟩ := refused_beyond hl (Nat.not_lt.1 hlt)
    have hcfg := hrefused.only.cfg
    have hsilent := writeSlot_silent (s := setWriteOffset 0 u) (i := 0) (hl.trans (by rw [← hcfg]; rfl))
      (show 0 < u.cfg.nSlots from hcfg ▸ hN) (show u.cfg.sizesFit = true from hcfg ▸ hfit)
      (by rw [storeDraw, setWriteOffset_store, hanswers]; exact hd)
    rw [logappendBody_retry hrefused.write, retryAppend, hsilent]
    exact unanswered_stuck _ hrefused.only.ctl hnv

end

/-- Settles O49: each ALS command waits at its first request in range, and nothing is accepted meanwhile. -/
theorem silentStoreLeavesTheBlockStuck : Obligations.SilentStoreLeavesTheBlockStuck := by
  intro s i hready hd hals hallowed hfit hlast
  have hN := nSlots_pos _ _ hready.config_ok
  have hstuck : Stuck (busy s) (bodyOf i (busy s)) := by
    cases i with
    | loginit => exact loginitBody_stuck (s := busy s) hN hfit hd
    | loglast => exact loglastBody_stuck (s := busy s) hd (hlast rfl).1 (hlast rfl).2
    | logappend din => exact logappendBody_stuck (s := busy s) hN hfit hd din
    | _ => cases hals
  refine ⟨_, exec_ready i s hready hallowed, hstuck.ctl, hstuck.pending, hstuck.nv, fun cw din rest => ?_⟩
  exact nothingIsAcceptedUnlessReady.1 _ cw din rest rfl (congrArg Ctl.cmdReady hstuck.ctl)

/-! LOGLAST after LOGAPPEND (R209 (e)). -/

theorem Responded.trans {s t u : State} {st st' : Status} {d d' : Nat} (h : Responded s t st d) (h' : Responded t u st' d') :
    Responded s u st' d' :=
  ⟨by rw [h'.1, h.1], h'.2⟩

theorem AlsFrame.ready {s t : State} {st : Status} {d : Nat} (hf : AlsFrame s t) (hr : Responded s t st d) (h : Ready s) :
    Ready t :=
  ⟨by rw [hf.cfg, hf.bbm]; exact h.config_ok, by rw [hr.1]; exact h.not_halted⟩

theorem appendSlot_lt {s : State} (hN : 0 < s.cfg.nSlots) : appendSlot s < s.cfg.nSlots := by
  rw [appendSlot]
  split <;> assumption

/-- Settles O51: LOGLAST reads the slot the append has just written. -/
theorem loglastReturnsTheAppended : Obligations.LoglastReturnsTheAppended := by
  intro s din hready hvalid hfit hwf hworks hdin hseq
  have hexec := exec_ready (.logappend din) s hready hvalid
  have hframe := (logappendBody_alsFrame din (busy s)).of_busy
  obtain ⟨u, h, -, hanswers, -⟩ :=
    logappendBody_appended (s := busy s) din hready.config_ok hfit hwf (hworks 0 (by omega))
  obtain ⟨t, ht⟩ : ∃ t, t = logappendBody din (busy s) := ⟨_, rfl⟩
  rw [bodyOf, ← ht] at hexec
  rw [← ht] at hframe h
  have hlt : appendSlot (busy s) < s.cfg.nSlots := appendSlot_lt (s := busy s) (nSlots_pos _ _ hready.config_ok)
  have hsize := configOk_nSlots_lt _ _ hready.config_ok
  have hoff : t.als.writeOffset.toNat = appendSlot (busy s) + 1 := by
    rw [h.als, BitVec.toNat_ofNat, Nat.mod_eq_of_lt (by omega)]
  have hnonzero : t.als.writeOffset ≠ 0 := fun h0 => by simp [h0] at hoff
  have hdraw : storeDraw t = .ok := by
    rw [storeDraw, h.answers, hanswers]
    exact hworks 1 (by omega)
  have hslot : slotBytes t.cfg t.store.nv (t.als.writeOffset.toNat - 1) = s.cfg.encodeRecord s.als.writeSequence din := by
    rw [hframe.cfg, hoff]
    exact h.bytes
  obtain ⟨v, data, hlast, hresp, -, -, -, -, hdata⟩ :=
    (loglastReturnsTheNewest t (hframe.ready h.responded.of_busy hready) (by rw [h.als]; exact hvalid)
      (by rw [hframe.cfg]; omega)).2 hnonzero hdraw
  rw [slotSeq, slotPayload, hslot, decodeSeq_encodeRecord, decodePayload_encodeRecord, if_neg hseq,
    Nat.mod_eq_of_lt hdin] at hdata
  exact ⟨t, v, hexec, hlast, hdata ▸ h.responded.of_busy.trans hresp⟩

end Sys2Proof.Machine
end

section
/-! SUPPORT. The log as a history of appends (R207 (g), R211, R213): what one more append does to it, and what a scan of the
store it left finds. -/

namespace Sys2Proof.Machine

/-! The counters that a history leaves, by division with remainder. -/

/-- The latest append of a slot that the last append did not go to is the one before. -/
theorem latestAppend_succ_of_ne {N m j : Nat} (hjN : j < N) (hjm : j < m) (hne : j ≠ m % N) :
    latestAppend N (m + 1) j = latestAppend N m j := by
  have hndvd : ¬ N ∣ m - 1 - j + 1 := fun ⟨q, hq⟩ => hne <| by
    rw [show m = j + N * q by omega, Nat.add_mul_mod_self_left, Nat.mod_eq_of_lt hjN]
  rw [latestAppend, latestAppend, show m + 1 - 1 - j = m - 1 - j + 1 by omega, Nat.succ_div_of_not_dvd hndvd]

theorem latestAppend_succ_self (N m : Nat) : latestAppend N (m + 1) (m % N) = m := by
  have hsplit := Nat.mod_add_div m N
  rcases Nat.eq_zero_or_pos N with rfl | hN
  · simp [latestAppend]
  · rw [latestAppend, show m + 1 - 1 - m % N = N * (m / N) by omega, Nat.mul_div_cancel_left _ hN, hsplit]

theorem latestAppend_lt {N m j : Nat} (hjm : j < m) : latestAppend N m j < m := by
  have := Nat.mul_div_le (m - 1 - j) N
  rw [latestAppend]
  omega

/-- Up to the last append's slot, the slots are of the last round. -/
theorem latestAppend_of_le {N k r j : Nat} (hr : r < N) (hj : j ≤ r) : latestAppend N (N * k + r + 1) j = N * k + j := by
  rw [latestAppend, show N * k + r + 1 - 1 - j = r - j + N * k by omega,
    Nat.add_mul_div_left _ _ (by omega), Nat.div_eq_of_lt (by omega), Nat.zero_add, Nat.add_comm]

/-- After the last append's slot, the slots are of the round before. -/
theorem latestAppend_of_gt {N k r j : Nat} (hj : r < j) (hjN : j < N) :
    latestAppend N (N * (k + 1) + r + 1) j = N * k + j := by
  rw [latestAppend, show N * (k + 1) + r + 1 - 1 - j = N + r - j + N * k by rw [Nat.mul_succ]; omega,
    Nat.add_mul_div_left _ _ (by omega), Nat.div_eq_of_lt (by omega), Nat.zero_add, Nat.add_comm]

/-! One more append (R211, R213). -/

theorem slotBytes_congr {c : Config} {nv nv' : Memory} {i j : Nat} (hne : j ≠ i)
    (h : ∀ a, (a < c.slotOffset i ∨ c.slotOffset i + c.recordSize ≤ a) → Memory.read nv' a = Memory.read nv a) :
    slotBytes c nv' j = slotBytes c nv j := by
  refine Memory.readBytes_congr _ _ _ _ fun k hk => h _ ?_
  rcases slot_disjoint c j i hne with hd | hd <;> omega

/-- The record of one more append, at the slot of its count, extends the history (R211 (f)). -/
theorem HoldsHistory.append {c : Config} {nv nv' : Memory} {values : List Nat} {din : Nat} (h : HoldsHistory c nv values)
    (hslot : slotBytes c nv' (values.length % c.nSlots) = c.encodeRecord (BitVec.ofNat 32 values.length) din)
    (hothers : ∀ j, j ≠ values.length % c.nSlots → slotBytes c nv' j = slotBytes c nv j) :
    HoldsHistory c nv' (values ++ [din]) := by
  intro j hj
  have hlen : (values ++ [din]).length = values.length + 1 := by simp
  rw [hlen]
  by_cases hq : j = values.length % c.nSlots
  · have hle : j < values.length + 1 := hq ▸ Nat.lt_succ_of_le (Nat.mod_le _ _)
    rw [if_pos hle, hq, latestAppend_succ_self, hslot]
    simp
  · have hold := h j hj
    by_cases hlt : j < values.length
    · rw [if_pos hlt] at hold
      rw [if_pos (by omega), hothers j hq, hold, latestAppend_succ_of_ne hj hlt hq,
        List.getD_append _ _ _ _ (latestAppend_lt hlt)]
    · have hne : j ≠ values.length := fun he => hq (he ▸ (Nat.mod_eq_of_lt hj).symm)
      rw [if_neg hlt] at hold
      rw [if_neg (by omega), slotSeq, hothers j hq]
      exact hold

/-- The log registers name the slot of the count (R28, R211 (a)). -/
theorem LogAt.appendSlot_eq {s : State} {values : List Nat} (h : LogAt s values) :
    appendSlot s = values.length % s.cfg.nSlots := by
  rw [← h.offset_mod, appendSlot]
  split
  · next hlt => rw [Nat.mod_eq_of_lt hlt]
  · next hge =>
    have hle := h.offset_le
    rw [show s.als.writeOffset.toNat = s.cfg.nSlots by omega, Nat.mod_self]

theorem incSeq_ofNat (n : Nat) : incSeq (BitVec.ofNat 32 n) = BitVec.ofNat 32 (n + 1) := by
  rw [incSeq, BitVec.ofNat_add]
  rfl

/-- Settles O52: the record goes to the slot of the count, under the count. -/
theorem logappendExtendsTheHistory : Obligations.LogappendExtendsTheHistory := by
  intro s din values hready hfit hwf hlog hd
  obtain ⟨t, hexec, hresp, hals, hframe, hbytes, hothers, -⟩ :=
    (logappendWritesOneRecord s din hready hlog.valid hfit hwf).2 hd
  have hslot := hlog.appendSlot_eq
  have hlt : appendSlot s < s.cfg.nSlots := appendSlot_lt (nSlots_pos _ _ hready.config_ok)
  have hsize := configOk_nSlots_lt _ _ hready.config_ok
  have hoff : t.als.writeOffset.toNat = appendSlot s + 1 := by
    rw [hals, BitVec.toNat_ofNat, Nat.mod_eq_of_lt (by omega)]
  refine ⟨t, hexec, hslot ▸ hresp, by rw [hals], ?_, by rw [hoff, hframe.cfg]; exact hlt, ?_, ?_⟩
  · rw [hlog.sequence, incSeq_ofNat] at hals
    rw [hals, List.length_append, List.length_singleton]
  · rw [hoff, hframe.cfg, hslot, List.length_append, List.length_singleton, Nat.mod_add_mod]
  · rw [hframe.cfg]
    rw [hlog.sequence, hslot] at hbytes
    exact hlog.history.append hbytes fun j hj => slotBytes_congr (hslot ▸ hj) hothers

/-! A scan of the store of a history (R207 (g)). -/

theorem HoldsHistory.slotSeq_eq {c : Config} {nv : Memory} {values : List Nat} (h : HoldsHistory c nv values) {j : Nat}
    (hj : j < c.nSlots) (hlt : j < values.length) :
    slotSeq c nv j = BitVec.ofNat 32 (latestAppend c.nSlots values.length j) := by
  have hslot := h j hj
  rw [if_pos hlt] at hslot
  rw [slotSeq, hslot, decodeSeq_encodeRecord]

theorem HoldsHistory.slotSeq_erased {c : Config} {nv : Memory} {values : List Nat} (h : HoldsHistory c nv values) {j : Nat}
    (hj : j < c.nSlots) (hge : values.length ≤ j) : slotSeq c nv j = sentinel := by
  have hslot := h j hj
  rwa [if_neg (Nat.not_lt.2 hge)] at hslot

theorem ofNat_ne_ofNat {a b : Nat} (ha : a < 2 ^ 32) (hb : b < 2 ^ 32) (h : a ≠ b) :
    BitVec.ofNat 32 a ≠ BitVec.ofNat 32 b := fun he => by
  have hnat := congrArg BitVec.toNat he
  rw [BitVec.toNat_ofNat, BitVec.toNat_ofNat, Nat.mod_eq_of_lt ha, Nat.mod_eq_of_lt hb] at hnat
  exact h hnat

theorem ofNat_ne_sentinel {a : Nat} (ha : a < 2 ^ 32 - 1) : BitVec.ofNat 32 a ≠ sentinel :=
  ofNat_ne_ofNat (b := 2 ^ 32 - 1) (by omega) (by omega) (by omega)

/-- The history of `k` full rounds and of `r + 1` appends more: a run of the slots to `r`, then a break. -/
structure LastRound (c : Config) (nv : Memory) (k r : Nat) : Prop where
  run : ∀ j, j ≤ r → slotSeq c nv j = BitVec.ofNat 32 (c.nSlots * k + j)
  break_ : r + 1 < c.nSlots → slotSeq c nv (r + 1) ≠ BitVec.ofNat 32 (c.nSlots * k + r + 1)

theorem HoldsHistory.lastRound {c : Config} {nv : Memory} {values : List Nat} {k r : Nat} (h : HoldsHistory c nv values)
    (hr : r < c.nSlots) (hlen : values.length = c.nSlots * k + r + 1) (hsmall : values.length < 2 ^ 32 - 1) :
    LastRound c nv k r where
  run j hj := by rw [h.slotSeq_eq (by omega) (by omega), hlen, latestAppend_of_le hr hj]
  break_ hlt := by
    cases k with
    | zero =>
      rw [h.slotSeq_erased hlt (by omega)]
      exact (ofNat_ne_sentinel (by omega)).symm
    | succ k =>
      have hround : c.nSlots * (k + 1) = c.nSlots * k + c.nSlots := Nat.mul_succ _ _
      rw [h.slotSeq_eq hlt (by omega), hlen, latestAppend_of_gt (Nat.lt_succ_self r) hlt]
      exact ofNat_ne_ofNat (by omega) (by omega) (by omega)

/-- LOGINIT finds the count of a history (R207 (g)). -/
theorem loginitBody_history (s : State) (values : List Nat) (hfit : s.cfg.sizesFit = true) (hN : 0 < s.cfg.nSlots)
    (hsize : s.cfg.nSlots < 2 ^ 32) (h : HoldsHistory s.cfg s.store.nv values) (hsmall : values.length < 2 ^ 32 - 1)
    (hworks : StoreWorks (s.cfg.nSlots + 1) s) :
    ∃ n, LoginitFinds n (BitVec.ofNat 32 (values.length % s.cfg.nSlots)) (BitVec.ofNat 32 values.length) s
      (loginitBody s) := by
  rcases Nat.eq_zero_or_pos values.length with h0 | hpos
  · rw [h0, Nat.zero_mod]
    exact ⟨1, loginitBody_virgin s hfit hN (h.slotSeq_erased hN (by omega)) (hworks 0 (by omega))⟩
  · obtain ⟨r, hr⟩ : ∃ r, r = (values.length - 1) % s.cfg.nSlots := ⟨_, rfl⟩
    obtain ⟨k, hk⟩ : ∃ k, k = (values.length - 1) / s.cfg.nSlots := ⟨_, rfl⟩
    have hrN : r < s.cfg.nSlots := hr ▸ Nat.mod_lt _ hN
    have hlen : values.length = s.cfg.nSlots * k + r + 1 := by
      have hsplit := Nat.div_add_mod (values.length - 1) s.cfg.nSlots
      rw [← hr, ← hk] at hsplit
      omega
    have round := h.lastRound hrN hlen hsmall
    have hwritten : slotSeq s.cfg s.store.nv 0 ≠ sentinel := by
      rw [round.run 0 (Nat.zero_le r)]
      exact ofNat_ne_sentinel (by omega)
    have hend := loginitBody_break r s hfit hrN (fun j hj => hworks j (by omega)) hwritten
      (fun j hj => by rw [round.run j (by omega), round.run (j + 1) (by omega), incSeq_ofNat]; rfl)
      (fun hlt => by rw [round.run r (Nat.le_refl r), incSeq_ofNat]; exact round.break_ hlt)
    have hoff : (if r + 1 < s.cfg.nSlots then BitVec.ofNat 32 (r + 1) else 0) =
        BitVec.ofNat 32 (values.length % s.cfg.nSlots) := by
      rw [hlen, Nat.add_assoc, Nat.mul_add_mod]
      split
      · next hlt => rw [Nat.mod_eq_of_lt hlt]
      · next hge =>
        rw [show r + 1 = s.cfg.nSlots by omega, Nat.mod_self]
        rfl
    rw [round.run r (Nat.le_refl r), incSeq_ofNat, ← hlen, hoff] at hend
    exact ⟨_, hend⟩

/-- Settles O53. -/
theorem loginitRecoversTheHistory : Obligations.LoginitRecoversTheHistory := by
  intro s values hready hfit h hsmall hworks
  have hN := nSlots_pos _ _ hready.config_ok
  have hsize := configOk_nSlots_lt _ _ hready.config_ok
  obtain ⟨n, hfinds⟩ := loginitBody_history (busy s) values hfit hN (Nat.lt_of_succ_lt hsize) h hsmall hworks
  have hframe := (loginitBody_frame (busy s)).1
  have hexec := exec_ready .loginit s hready trivial
  obtain ⟨t, ht⟩ : ∃ t, t = loginitBody (busy s) := ⟨_, rfl⟩
  rw [bodyOf, ← ht] at hexec
  rw [← ht] at hfinds hframe
  have hcfg : t.cfg = s.cfg := hframe.cfg
  have hlt : values.length % s.cfg.nSlots < s.cfg.nSlots := Nat.mod_lt _ hN
  have hoff : t.als.writeOffset.toNat = values.length % s.cfg.nSlots := by
    rw [hfinds.als]
    exact (BitVec.toNat_ofNat _ _).trans (Nat.mod_eq_of_lt (show values.length % s.cfg.nSlots < 2 ^ 32 by omega))
  have hseq : t.als.writeSequence = BitVec.ofNat 32 values.length := by rw [hfinds.als]
  refine ⟨t, hexec, hfinds.responded.of_busy, ⟨by rw [hfinds.als], hseq, ?_, ?_, ?_⟩, hoff, ?_⟩
  · rw [hoff, hcfg]
    exact Nat.le_of_lt hlt
  · rw [hoff, hcfg, Nat.mod_mod]
  · rw [hcfg, hfinds.nv]
    exact h
  · rw [hseq, BitVec.toNat_ofNat, Nat.mod_eq_of_lt (by omega)]

end Sys2Proof.Machine
end

section
/-! SUPPORT. The accessor (R190 to R193): a host that issues one BBM command after another, looking at each response, and
closes what it opened. -/

namespace Sys2Proof.Machine

/-- A BBM command that is issued to an accepting block runs in the state at the port (R40). -/
theorem issue_eq_exec {i : Instr} {s : State} (hb : isBbm i = true) (hr : s.ctl.cmdReady = true) :
    issue i s = exec i (openPort s.host s) := by
  have hport : issue i s = (openPort s.host s).atCommandPort (encode i).cw (encode i).din := step_command rfl
  have hp (d : Nat) : i ≠ .logappend d := fun h => by
    rw [h] at hb
    cases hb
  rw [hport]
  exact atCommandPort_of_decode (s := openPort s.host s) hr (decode_of_encode rfl hp _)

/-- Where an accessor that was begun in `s` stands between two of its commands. -/
structure Between (s u : State) : Prop where
  ready : Ready u
  cmdReady : u.ctl.cmdReady = true
  als : u.als = s.als
  store : u.store = s.store
  host : u.host = s.host

theorem Between.start {s : State} (h : Ready s) (hr : s.ctl.cmdReady = true) : Between s s := ⟨h, hr, rfl, rfl, rfl⟩

/-- A BBM command that was answered leaves the accessor between two commands again. -/
theorem Between.answered {s u t : State} {st : Status} {d : Nat} (h : Between s u)
    (hframe : BbmFrame (openPort u.host u) t) (hresp : Responded (openPort u.host u) t st d) : Between s t where
  ready := ⟨by rw [hframe.cfg, hframe.speed]; exact h.ready.config_ok, by rw [hframe.halt]; exact h.ready.not_halted⟩
  cmdReady := by rw [hresp.1]
  als := hframe.als.trans h.als
  store := hframe.store.trans h.store
  host := hframe.host.trans h.host

/-- The response is OK and the transaction goes on, or it is NO_ACK and there is none. -/
def Acknowledged (t : State) : Prop :=
  t.ctl.rspStatus = .ok ∧ t.bbm.phase = .data ∨ t.ctl.rspStatus = .noAck ∧ t.bbm.phase = .idle

theorem Between.issue_begin {s u : State} (h : Between s u) (hidle : u.bbm.phase = .idle) (addr : DeviceAddress)
    (dir : Direction) : ∃ t, issue (.begin addr dir) u = .next t ∧ Between s t ∧ Acknowledged t := by
  obtain ⟨t, hexec, hframe, -, -, -, hend⟩ := beginOpensATransaction _ addr dir (h.ready.openPort u.host) hidle
  rw [← issue_eq_exec rfl h.cmdReady] at hexec
  rcases hend with ⟨-, hresp, hphase, -⟩ | ⟨-, hresp, hphase, -⟩
  · exact ⟨t, hexec, h.answered hframe hresp, .inl ⟨by rw [hresp.1], hphase⟩⟩
  · exact ⟨t, hexec, h.answered hframe hresp, .inr ⟨by rw [hresp.1], hphase⟩⟩

theorem Between.issue_wrbyte {s u : State} (h : Between s u) (hdata : u.bbm.phase = .data) (b : Byte) :
    ∃ t, issue (.wrbyte b) u = .next t ∧ Between s t ∧ Acknowledged t := by
  obtain ⟨t, hexec, hframe, -, -, -, hend⟩ := wrbyteWritesOneByte _ b (h.ready.openPort u.host) hdata
  rw [← issue_eq_exec rfl h.cmdReady] at hexec
  rcases hend with ⟨-, hresp, hphase, -⟩ | ⟨-, hresp, hphase, -⟩
  · exact ⟨t, hexec, h.answered hframe hresp, .inl ⟨by rw [hresp.1], hphase⟩⟩
  · exact ⟨t, hexec, h.answered hframe hresp, .inr ⟨by rw [hresp.1], hphase⟩⟩

theorem Between.issue_rdbyte {s u : State} (h : Between s u) (hdata : u.bbm.phase = .data) (wantAck : Bool) :
    ∃ t, issue (.rdbyte wantAck) u = .next t ∧ Between s t ∧ t.ctl.rspStatus = .ok ∧ t.bbm.phase = .data := by
  obtain ⟨t, hexec, hresp, hframe, -, hphase, -⟩ := rdbyteReadsOneByte _ wantAck (h.ready.openPort u.host) hdata
  rw [← issue_eq_exec rfl h.cmdReady] at hexec
  exact ⟨t, hexec, h.answered hframe hresp, by rw [hresp.1], hphase⟩

/-- What the closing END leaves (R167, R192). -/
structure Closed (s t : State) : Prop where
  between : Between s t
  phase : t.bbm.phase = .idle
  sclDrv : t.bbm.sclDrv = true
  sdaDrv : t.bbm.sdaDrv = true
  lines : lineWrites t.trace.reverse = stopWrites
  phases : phasesOf t.trace.reverse = [.stop, .idle]
  responses : responsesOf t.trace.reverse = [(.ok, 0)]

theorem Between.issue_end {s u : State} (h : Between s u) (hphase : u.bbm.phase = .data ∨ u.bbm.phase = .idle) :
    ∃ t, issue .end_ u = .next t ∧ Closed s t := by
  obtain ⟨t, up, hexec, hresp, hframe, hbbm, -, htrace, -⟩ :=
    endClosesTheTransaction _ (h.ready.openPort u.host) hphase
  rw [← issue_eq_exec rfl h.cmdReady] at hexec
  exact ⟨t, hexec, h.answered hframe hresp, by rw [hbbm], by rw [hbbm], by rw [hbbm], by rw [htrace]; rfl,
    by rw [htrace]; rfl, by rw [htrace]; rfl⟩

/-- The two ends of a write: OK in a transaction that goes on, or NO_ACK after a stop; no byte is read. -/
structure WriteReport (s : State) (r : Report) : Prop where
  between : Between s r.state
  buf : r.buf = []
  status : r.status = .ok ∧ r.state.bbm.phase = .data ∨ r.status = .noAck ∧ r.state.bbm.phase = .idle

theorem WriteReport.open_or_idle {s : State} {r : Report} (h : WriteReport s r) :
    r.state.bbm.phase = .data ∨ r.state.bbm.phase = .idle :=
  h.status.imp And.right And.right

/-- A NO_ACK ends a pseudo-instruction with that as its result. -/
theorem WriteReport.of_noAck {s t : State} (h : Between s t) (hst : t.ctl.rspStatus = .noAck) (hphase : t.bbm.phase = .idle) :
    WriteReport s { status := t.ctl.rspStatus, buf := [], state := t } :=
  ⟨h, rfl, .inr ⟨hst, hphase⟩⟩

/-- WRITE, byte by byte (R190). -/
theorem pseudoWrite_reports (bytes : List Byte) {s u : State} (h : Between s u) (hdata : u.bbm.phase = .data) :
    ∃ r, pseudoWrite bytes u = .next r ∧ WriteReport s r := by
  induction bytes generalizing u with
  | nil => exact ⟨_, rfl, h, rfl, .inl ⟨rfl, hdata⟩⟩
  | cons b bs ih =>
    obtain ⟨t, hissue, hbetween, ⟨hst, hphase⟩ | ⟨hst, hphase⟩⟩ := h.issue_wrbyte hdata b
    · obtain ⟨r, hwrite, hr⟩ := ih hbetween hphase
      exact ⟨r, by simp only [pseudoWrite, hissue, andThen, hst, if_true, hwrite], hr⟩
    · refine ⟨_, ?_, WriteReport.of_noAck hbetween hst hphase⟩
      simp [pseudoWrite, hissue, andThen, hst]

/-- The closing END, after whatever result (R192, R193). -/
theorem closeBracket_closes {s : State} {r : Report} (h : Between s r.state)
    (hphase : r.state.bbm.phase = .data ∨ r.state.bbm.phase = .idle) :
    ∃ t, issue .end_ r.state = .next t ∧ closeBracket r = .next { r with state := t } ∧ Closed s t := by
  obtain ⟨t, hissue, hclosed⟩ := h.issue_end hphase
  exact ⟨t, hissue, by simp only [closeBracket, hissue, andThen], hclosed⟩

/-- A bracket whose BEGIN is not acknowledged: NO_ACK, and END all the same (R192, R193). -/
theorem bracket_noAck {addr : DeviceAddress} {dir : Direction} {body : State → Host.Outcome Report Fault Refusal}
    {s u t : State} (hissue : issue (.begin addr dir) u = .next t) (h : Between s t) (hst : t.ctl.rspStatus = .noAck)
    (hphase : t.bbm.phase = .idle) :
    ∃ v, bracket addr dir body u = .next { status := .noAck, buf := [], state := v } ∧ Closed s v := by
  obtain ⟨v, -, hclose, hclosed⟩ :=
    closeBracket_closes (r := { status := .noAck, buf := [], state := t }) h (.inr hphase)
  exact ⟨v, by simpa [bracket, hissue, andThen, hst] using hclose, hclosed⟩

/-- A bracket whose BEGIN is acknowledged: its body, and END (R192, R193). -/
theorem bracket_ok {addr : DeviceAddress} {dir : Direction} {body : State → Host.Outcome Report Fault Refusal}
    {s u t : State} {r : Report} (hissue : issue (.begin addr dir) u = .next t) (hst : t.ctl.rspStatus = .ok)
    (hbody : body t = .next r) (h : Between s r.state)
    (hphase : r.state.bbm.phase = .data ∨ r.state.bbm.phase = .idle) :
    ∃ v, bracket addr dir body u = .next { r with state := v } ∧ issue .end_ r.state = .next v ∧ Closed s v := by
  obtain ⟨v, hend, hclose, hclosed⟩ := closeBracket_closes h hphase
  exact ⟨v, by simpa [bracket, hissue, andThen, hst, hbody] using hclose, hend, hclosed⟩

/-- XWRITE from an idle block: OK or NO_ACK, and END (R192). -/
theorem pseudoXwrite_closes {s u : State} (h : Between s u) (hidle : u.bbm.phase = .idle) (addr : DeviceAddress)
    (bytes : List Byte) :
    ∃ r, pseudoXwrite addr bytes u = .next r ∧ (r.status = .ok ∨ r.status = .noAck) ∧ r.buf = [] ∧ Closed s r.state := by
  obtain ⟨t, hissue, hbetween, ⟨hst, hphase⟩ | ⟨hst, hphase⟩⟩ := h.issue_begin hidle addr .write
  · obtain ⟨r, hwrite, hr⟩ := pseudoWrite_reports bytes hbetween hphase
    obtain ⟨v, hbracket, -, hclosed⟩ := bracket_ok hissue hst hwrite hr.between hr.open_or_idle
    exact ⟨_, hbracket, hr.status.imp And.left And.left, hr.buf, hclosed⟩
  · obtain ⟨v, hbracket, hclosed⟩ := bracket_noAck (body := pseudoWrite bytes) hissue hbetween hst hphase
    exact ⟨_, hbracket, .inr rfl, rfl, hclosed⟩

/-- Settles O59. -/
theorem xwriteEndsIdle : Obligations.XwriteEndsIdle := by
  intro s addr bytes hready hcmd hidle
  obtain ⟨r, hx, hst, -, h⟩ := pseudoXwrite_closes (Between.start hready hcmd) hidle addr bytes
  exact ⟨r, hx, hst, h.phase, h.sclDrv, h.sdaDrv, h.between.als, h.between.store, h.between.ready.not_halted,
    h.between.cmdReady, h.between.host, h.lines, h.phases, h.responses⟩

/-! READ (R191). -/

/-- A chain of states that begins with `u` and goes on as `v`. -/
def chainCons (u : State) (v : Nat → State) : Nat → State
  | 0 => u
  | k + 1 => v k

/-- `n` RDBYTEs one after the other, all but the last acknowledged. -/
structure ReadChain (n : Nat) (v : Nat → State) : Prop where
  issues : ∀ k, k < n → issue (.rdbyte (decide (k + 1 < n))) (v k) = .next (v (k + 1))
  answers : ∀ k, k < n → (v (k + 1)).ctl.rspStatus = .ok

theorem ReadChain.cons {n : Nat} {u : State} {v : Nat → State} (h : ReadChain n v)
    (hissue : issue (.rdbyte (decide (0 < n))) u = .next (v 0)) (hst : (v 0).ctl.rspStatus = .ok) :
    ReadChain (n + 1) (chainCons u v) where
  issues k hk := by
    cases k with
    | zero => simpa [chainCons] using hissue
    | succ k => simpa [chainCons] using h.issues k (by omega)
  answers k hk := by
    cases k with
    | zero => exact hst
    | succ k => exact h.answers k (by omega)

/-- The bytes that a chain of RDBYTEs reads, in order. -/
def readData (n : Nat) (v : Nat → State) : List Byte :=
  (List.range n).map fun k => BitVec.ofNat 8 (v (k + 1)).ctl.rspData

theorem readData_cons (n : Nat) (u : State) (v : Nat → State) :
    readData (n + 1) (chainCons u v) = BitVec.ofNat 8 (v 0).ctl.rspData :: readData n v := by
  rw [readData, List.range_succ_eq_map, List.map_cons, List.map_map]
  rfl

theorem readData_getElem? {n k : Nat} (v : Nat → State) (h : k < n) :
    (readData n v)[k]? = some (BitVec.ofNat 8 (v (k + 1)).ctl.rspData) := by
  simp [readData, h]

theorem pseudoRead_reports (n : Nat) (buf : List Byte) {s u : State} (h : Between s u) (hdata : u.bbm.phase = .data) :
    ∃ v : Nat → State, v 0 = u ∧ ReadChain n v ∧ Between s (v n) ∧ (v n).bbm.phase = .data ∧
      pseudoRead n buf u = .next { status := .ok, buf := buf ++ readData n v, state := v n } := by
  induction n generalizing u buf with
  | zero => exact ⟨fun _ => u, rfl, ⟨nofun, nofun⟩, h, hdata, by simp [pseudoRead, readData]⟩
  | succ n ih =>
    obtain ⟨t, hissue, hbetween, hst, hphase⟩ := h.issue_rdbyte hdata (decide (0 < n))
    obtain ⟨v, rfl, hchain, hlast, hopen, hread⟩ := ih (buf ++ [BitVec.ofNat 8 t.ctl.rspData]) hbetween hphase
    refine ⟨chainCons u v, rfl, hchain.cons hissue hst, hlast, hopen, ?_⟩
    simp only [pseudoRead, hissue, andThen, hread, readData_cons, List.append_assoc, List.singleton_append]
    rfl

/-- Settles O60: the write phase, and after an OK the bracket of the read phase. -/
theorem xwrrdFillsItsBuffer : Obligations.XwrrdFillsItsBuffer := by
  intro s addr bytes n hready hcmd hidle
  obtain ⟨w, hx, hst, hbuf, hw⟩ := pseudoXwrite_closes (Between.start hready hcmd) hidle addr bytes
  rcases hst with hst | hst
  · have hskip : pseudoXwrrd addr bytes n s = bracket addr .read (pseudoRead n []) w.state := by
      simp only [pseudoXwrrd, hx, andThen, hst, if_true]
    obtain ⟨t, hissue, hbetween, ⟨hok, hphase⟩ | ⟨hno, hphase⟩⟩ := hw.between.issue_begin hw.phase addr .read
    · obtain ⟨v, rfl, hchain, hlast, hopen, hread⟩ := pseudoRead_reports n [] hbetween hphase
      obtain ⟨e, hbracket, hend, he⟩ := bracket_ok hissue hok hread hlast (.inl hopen)
      refine ⟨_, hskip.trans hbracket, he.phase, he.sclDrv, he.sdaDrv, he.between.als, he.between.store,
        .inl ⟨rfl, by simp [readData], w, v, hx, hst, hissue, hok,
          fun k hk => ⟨hchain.issues k hk, hchain.answers k hk, readData_getElem? v hk⟩, hend⟩⟩
    · obtain ⟨e, hbracket, he⟩ := bracket_noAck (body := pseudoRead n []) hissue hbetween hno hphase
      exact ⟨_, hskip.trans hbracket, he.phase, he.sclDrv, he.sdaDrv, he.between.als, he.between.store, .inr ⟨rfl, rfl⟩⟩
  · refine ⟨w, ?_, hw.phase, hw.sclDrv, hw.sdaDrv, hw.between.als, hw.between.store, .inr ⟨hst, hbuf⟩⟩
    simp [pseudoXwrrd, hx, andThen, hst]

end Sys2Proof.Machine
end
